-- ==== Sys2Proof/Word.lean ====
section
/-! DEFINITION. The plain words of the block: widths of 00_scope.md R8 and the data records of 00_scope.md R10, R11
and 10_state.md R23. -/

namespace Sys2Proof

/-- TIME_W = 64: scheduler time (R8, R14). -/
abbrev Time := BitVec 64

/-- DUR_W = 32: a pulse duration in ticks (R8, R11). -/
abbrev Dur := BitVec 32

/-- SAMPLE_W = 16: an opaque amplitude word (R8, R36). -/
abbrev Sample := BitVec 16

/-- GAIN_W = 32: an opaque gain value (R8, R41). -/
abbrev Gain := BitVec 32

/-- One 64-bit word of the host's request stream (entry 1). -/
abbrev Word := BitVec 64

/-- The 128-bit request header word W (R86). -/
abbrev Header := BitVec 128

/-- A destination key, chan * 16 + group (R161). -/
abbrev Key := BitVec 8

/-- A bit sequence, position 0 first on the wire (R10). -/
abbrev BitSeq := List Bool

/-- A pulse `(level, dur)` (R11): `level` is `true` for high. -/
structure Pulse where
  level : Bool
  dur : Dur
deriving DecidableEq, Repr

/-- A pulse train: an ordered list of pulses (R11). -/
abbrev PulseTrain := List Pulse

/-- A Command, each field at its frame width (10_state.md R23). -/
structure Command where
  group : BitVec 4
  chan : BitVec 4
  brightness : BitVec 8
  cmd : BitVec 2
  color : BitVec 6
  cksum : BitVec 8
deriving DecidableEq, Repr

end Sys2Proof
end

