-- ==== Sys2Proof/Config.lean ====
section
/-! DEFINITION. The fixed parameters of 00_scope.md R8 and the one value the spec leaves open. -/

namespace Sys2Proof.Config

/-- FRAME_LEN: 32 data bits and 1 pad bit (R8, R80). -/
def frameLen : Nat := 33

/-- BITBUF_CAP: the decoder's bit buffer bound (R8, R25). -/
def bitbufCap : Nat := 64

/-- SEQ_CAP: the longest bit sequence operand (R8, R92). -/
def seqCap : Nat := 64

/-- TRAIN_CAP: the longest pulse train operand (R8, R95). -/
def trainCap : Nat := 129

/-- NKEYS: the scheduler's destinations (R8, R27). -/
abbrev nKeys : Nat := 256

/-- What a 32-bit count field holds when the count is 2^32 or more, as a function of the count. The fields are
STAT_SYN (R42) and the `dropped` argument of SYN_QUEUE_FULL (R205). The spec states no value there: a FREE VALUE, with
no body (DESIGN CHOICE, safe, entry 11). -/
opaque countAbove32 : Nat → BitVec 32

end Sys2Proof.Config
end

