-- ==== Sys2Proof/Syntax.lean ====
section
/-! DEFINITION. The operations of the block: one constructor for each row of spec/opcode_table.json (30_encoding.md
R87), its operands already pulled out of the request. -/

namespace Sys2Proof

/-- The operand of format BS (R92): a bit sequence, or a length above SEQ_CAP, which makes the request malformed
(R102). -/
inductive SeqOperand where
  | seq (s : BitSeq)
  | tooLong (len : BitVec 7)
deriving DecidableEq, Repr

/-- The operand of format TR (R95): a pulse train, or a count above TRAIN_CAP, which makes the request malformed
(R102). -/
inductive TrainOperand where
  | train (t : PulseTrain)
  | tooLong (count : BitVec 8)
deriving DecidableEq, Repr

/-- The sixteen op codes (R87). -/
inductive Instr where
  /-- NOP, op 0x0, format N (R88). -/
  | nop
  /-- DEC_PULSE, op 0x1, format P (R89). -/
  | decPulse (level : Bool) (dur : Dur)
  /-- DEC_END, op 0x2, format N (R88). -/
  | decEnd
  /-- CKSUM, op 0x3, format CK (R90). -/
  | cksum (group : BitVec 4) (chan : BitVec 4) (brightness : BitVec 8)
  /-- CODEC_ENCODE, op 0x4, format RC (R91): raw fields of 8 bits. -/
  | codecEncode (rgroup rchan rbrightness rcmd rcolor rcksum : BitVec 8)
  /-- CODEC_DECODE, op 0x5, format BS (R92). -/
  | codecDecode (operand : SeqOperand)
  /-- SCH_SUBMIT, op 0x6, format CT (R93). -/
  | schSubmit (command : Command) (now : Time)
  /-- SCH_TICK, op 0x7, format T (R94). -/
  | schTick (now : Time)
  /-- ENC_ENCODE, op 0x8, format BS (R92). -/
  | encEncode (operand : SeqOperand)
  /-- SYN_ENQUEUE, op 0x9, format TR (R95). -/
  | synEnqueue (operand : TrainOperand)
  /-- SYN_FILL, op 0xA, format FL (R96). -/
  | synFill (n : BitVec 32)
  /-- CFG_WRITE, op 0xB, format CW (R97). -/
  | cfgWrite (addr : BitVec 8) (data : BitVec 64)
  /-- CFG_READ, op 0xC, format CR (R98). -/
  | cfgRead (addr : BitVec 8)
  /-- The reserved op code 0xD (R100). -/
  | reservedD
  /-- The reserved op code 0xE (R100). -/
  | reservedE
  /-- RESET, op 0xF, format N (R88). -/
  | reset
deriving DecidableEq, Repr

end Sys2Proof
end

