-- ==== Sys2Proof/WellFormed.lean ====
section
/-! DEFINITION. Which instructions a request can carry: the operand ranges of 30_encoding.md R92, R95 and R102. -/

namespace Sys2Proof

/-- A sequence operand holds at most SEQ_CAP bits, and a malformed one has a length above SEQ_CAP (R92, R102). -/
def SeqOperand.wellFormed : SeqOperand → Bool
  | .seq s => decide (s.length ≤ Config.seqCap)
  | .tooLong len => decide (Config.seqCap < len.toNat)

/-- A train operand holds at most TRAIN_CAP pulses, and a malformed one has a count above TRAIN_CAP (R95, R102). -/
def TrainOperand.wellFormed : TrainOperand → Bool
  | .train t => decide (t.length ≤ Config.trainCap)
  | .tooLong count => decide (Config.trainCap < count.toNat)

/-- An instruction that some request encodes. Every other operand fits its field by its type. -/
def Instr.wellFormed : Instr → Bool
  | .nop => true
  | .decPulse _ _ => true
  | .decEnd => true
  | .cksum _ _ _ => true
  | .codecEncode _ _ _ _ _ _ => true
  | .codecDecode o => o.wellFormed
  | .schSubmit _ _ => true
  | .schTick _ => true
  | .encEncode o => o.wellFormed
  | .synEnqueue o => o.wellFormed
  | .synFill _ => true
  | .cfgWrite _ _ => true
  | .cfgRead _ => true
  | .reservedD => true
  | .reservedE => true
  | .reset => true

end Sys2Proof
end

