-- ==== Sys2Proof/Decode.lean ====
section
/-! DEFINITION. From the host's request stream to an instruction, and back: 30_encoding.md R81 and R86 to R102.

The request stream is a list of 64-bit words (DESIGN CHOICE, safe, entry 1): a header is its low half W[63:0] and then its
high half W[127:64], and each pulse word follows as one word. -/

namespace Sys2Proof

/-! ## The data word of a Command -/

/-- `pack(c)`: the data word D of a Command (R81, R99). -/
def Command.pack (c : Command) : BitVec 32 :=
  c.group ++ c.chan ++ c.brightness ++ c.cmd ++ c.color ++ c.cksum

/-- The Command of a data word D (R99). -/
def commandOfData (d : BitVec 32) : Command where
  group := d.extractLsb' 28 4
  chan := d.extractLsb' 24 4
  brightness := d.extractLsb' 16 8
  cmd := d.extractLsb' 14 2
  color := d.extractLsb' 8 6
  cksum := d.extractLsb' 0 8

/-! ## Bit sequence and pulse train operands -/

/-- The sequence of a BS request: position i is bit i of the field `bits` = W[127:64], for i < len (R92). -/
def seqOfBits (len : Nat) (bits : BitVec 64) : BitSeq :=
  (List.range len).map fun i => bits.getLsbD i

/-- The number whose bit i is position i of a sequence. -/
def natOfSeq : BitSeq → Nat
  | [] => 0
  | b :: s => b.toNat + 2 * natOfSeq s

/-- The field `bits` of a BS request for a sequence of at most 64 bits; the ignored positions are written as 0 (R92,
R103). -/
def bitsOfSeq (s : BitSeq) : BitVec 64 := BitVec.ofNat 64 (natOfSeq s)

/-- A pulse word PW: dur = PW[31:0], level = PW[32], PW[63:33] reserved and ignored (R95, R101). -/
def pulseOfWord (pw : Word) : Pulse := ⟨pw.getLsbD 32, pw.extractLsb' 0 32⟩

/-- The pulse word of a pulse, its reserved bits 0 (R95). -/
def wordOfPulse (p : Pulse) : Word := 0#31 ++ BitVec.ofBool p.level ++ p.dur

/-- Format BS: a len above SEQ_CAP is malformed (R92, R102). -/
def seqOperand (w : Header) : SeqOperand :=
  let len := w.extractLsb' 8 7
  if Config.seqCap < len.toNat then .tooLong len else .seq (seqOfBits len.toNat (w.extractLsb' 64 64))

/-- Format TR: a count above TRAIN_CAP is malformed (R95, R102). -/
def trainOperand (w : Header) (pulseWords : List Word) : TrainOperand :=
  let count := w.extractLsb' 8 8
  if Config.trainCap < count.toNat then .tooLong count else .train (pulseWords.map pulseOfWord)

/-! ## The decoder -/

/-- The op code W[3:0] (R86, R87). -/
def opcode (w : Header) : BitVec 4 := w.extractLsb' 0 4

/-- How many pulse words follow a header: `count` for SYN_ENQUEUE (also a malformed one, R102), none otherwise (R86,
R95). -/
def pulseCount (w : Header) : Nat :=
  if opcode w = 0x9#4 then (w.extractLsb' 8 8).toNat else 0

/-- The instruction of a header and its pulse words, by the op code bits W[3], W[2], W[1], W[0] (R87 to R98). W[7:4] and
every bit the format does not name are not read (R101). -/
def instrOf (w : Header) (pulseWords : List Word) : Instr :=
  match w.getLsbD 3, w.getLsbD 2, w.getLsbD 1, w.getLsbD 0 with
  | false, false, false, false => .nop
  | false, false, false,  true => .decPulse (w.getLsbD 8) (w.extractLsb' 32 32)
  | false, false,  true, false => .decEnd
  | false, false,  true,  true => .cksum (w.extractLsb' 32 4) (w.extractLsb' 36 4) (w.extractLsb' 40 8)
  | false,  true, false, false => .codecEncode (w.extractLsb' 32 8) (w.extractLsb' 40 8) (w.extractLsb' 48 8)
      (w.extractLsb' 56 8) (w.extractLsb' 64 8) (w.extractLsb' 72 8)
  | false,  true, false,  true => .codecDecode (seqOperand w)
  | false,  true,  true, false => .schSubmit (commandOfData (w.extractLsb' 32 32)) (w.extractLsb' 64 64)
  | false,  true,  true,  true => .schTick (w.extractLsb' 64 64)
  |  true, false, false, false => .encEncode (seqOperand w)
  |  true, false, false,  true => .synEnqueue (trainOperand w pulseWords)
  |  true, false,  true, false => .synFill (w.extractLsb' 32 32)
  |  true, false,  true,  true => .cfgWrite (w.extractLsb' 8 8) (w.extractLsb' 64 64)
  |  true,  true, false, false => .cfgRead (w.extractLsb' 8 8)
  |  true,  true, false,  true => .reservedD
  |  true,  true,  true, false => .reservedE
  |  true,  true,  true,  true => .reset

/-- Why the stream's front is no request yet. Every header decodes (all sixteen op codes have a meaning, R87, R100), so
only a stream that ends too early is rejected. -/
inductive DecodeError where
  /-- No word is there. -/
  | noRequest
  /-- Only the low half of a header is there. -/
  | headerIncomplete
  /-- Fewer pulse words than the header's count are there (R86, R95). -/
  | pulseWordsMissing (need : Nat) (have_ : Nat)
deriving DecidableEq, Repr

/-- The 128-bit header word of its two halves. -/
def headerOf (lo hi : Word) : Header := hi ++ lo

/-- The request at the front of the stream, and the rest of the stream (R86). -/
def decode : List Word → Except DecodeError (Instr × List Word)
  | [] => .error .noRequest
  | [_] => .error .headerIncomplete
  | lo :: hi :: rest =>
    let w := headerOf lo hi
    let n := pulseCount w
    if rest.length < n then .error (.pulseWordsMissing n rest.length)
    else .ok (instrOf w (rest.take n), rest.drop n)

/-! ## The words of a table row -/

/-- The words of the request whose bits are `w mod 2^nbits`, bit 0 the least significant bit of the header and every bit
above nbits 0: the header's halves and exactly the pulse words its length counts (R86). -/
def requestWords (nbits w : Nat) : List Word :=
  let v := w % 2 ^ nbits
  let word (j : Nat) : Word := BitVec.ofNat 64 (v >>> (64 * j))
  let n := pulseCount (headerOf (word 0) (word 1))
  word 0 :: word 1 :: (List.range n).map fun j => word (j + 2)

/-- The instruction the decoder reads from an instruction whose bits are w, numbered as spec/opcode_table.json numbers
them. -/
def decodeTableWord (nbits w : Nat) : Option Instr :=
  match decode (requestWords nbits w) with
  | .ok (i, _) => some i
  | .error _ => none

/-! ## The encoder -/

/-- The op code of an instruction (R87). -/
def opcodeOf : Instr → BitVec 4
  | .nop => 0x0
  | .decPulse _ _ => 0x1
  | .decEnd => 0x2
  | .cksum _ _ _ => 0x3
  | .codecEncode _ _ _ _ _ _ => 0x4
  | .codecDecode _ => 0x5
  | .schSubmit _ _ => 0x6
  | .schTick _ => 0x7
  | .encEncode _ => 0x8
  | .synEnqueue _ => 0x9
  | .synFill _ => 0xA
  | .cfgWrite _ _ => 0xB
  | .cfgRead _ => 0xC
  | .reservedD => 0xD
  | .reservedE => 0xE
  | .reset => 0xF

/-- W[127:64] and W[15:8] of a BS header (R92). -/
def seqFields : SeqOperand → BitVec 64 × BitVec 8
  | .seq s => (bitsOfSeq s, BitVec.ofNat 8 s.length)
  | .tooLong len => (0, 0#1 ++ len)

/-- The count and the pulse words of a TR request; a malformed one is given pulse words of 0 (R95, R102). -/
def trainFields : TrainOperand → BitVec 8 × List Word
  | .train t => (BitVec.ofNat 8 t.length, t.map wordOfPulse)
  | .tooLong count => (count, List.replicate count.toNat 0)

/-- The header of an instruction: W[127:64], W[63:32], W[31:16] and W[15:8] above the op code; the reserved bits are 0
(R87 to R98, R103). -/
def encodeHeader (i : Instr) : Header :=
  let mk (hi : BitVec 64) (mid : BitVec 32) (b : BitVec 8) : Header := hi ++ mid ++ 0#16 ++ b ++ 0#4 ++ opcodeOf i
  match i with
  | .nop => mk 0 0 0
  | .decPulse level dur => mk 0 dur (0#7 ++ BitVec.ofBool level)
  | .decEnd => mk 0 0 0
  | .cksum group chan brightness => mk 0 (0#16 ++ brightness ++ chan ++ group) 0
  | .codecEncode rg rc rb rcmd rcol rck => mk (0#48 ++ rck ++ rcol) (rcmd ++ rb ++ rc ++ rg) 0
  | .codecDecode o => mk (seqFields o).1 0 (seqFields o).2
  | .schSubmit c now => mk now c.pack 0
  | .schTick now => mk now 0 0
  | .encEncode o => mk (seqFields o).1 0 (seqFields o).2
  | .synEnqueue o => mk 0 0 (trainFields o).1
  | .synFill n => mk 0 n 0
  | .cfgWrite addr data => mk data 0 addr
  | .cfgRead addr => mk 0 0 addr
  | .reservedD => mk 0 0 0
  | .reservedE => mk 0 0 0
  | .reset => mk 0 0 0

/-- The words of an instruction's request: its header's two halves, then its pulse words (R86, R95). -/
def encode (i : Instr) : List Word :=
  let w := encodeHeader i
  w.extractLsb' 0 64 :: w.extractLsb' 64 64 ::
    match i with
    | .synEnqueue o => (trainFields o).2
    | _ => []

end Sys2Proof
end

