-- ==== Sys2Proof/Machine/State.lean ====
section
/-! DEFINITION. The machine's state: the four parts of 10_state.md R20, the event stream of R22, the host's request
stream and the parameter QUEUE_DEPTH. Reset: 70_reset_and_hazards.md R291. -/

namespace Sys2Proof.Machine

/-! ## Outputs -/

/-- The diagnostic codes (60_exceptions.md R261). No other code exists. -/
inductive DiagCode where
  | decShortSep | decShortLow | decLongHigh | decBufOverflow
  | codecLength | codecTrailing | codecOverflow
  | schNothingEligible
  | synQueueFull | synPreempt
  | illegalOp | reqMalformed | cfgUnset | cfgBadAddr | cfgReadonly | cfgInvalid
deriving DecidableEq, Repr

/-- The operation-specific value of an EvResult: a word (CKSUM, CODEC_DECODE, CFG_READ), a sequence (CODEC_ENCODE) or a
pulse train (ENC_ENCODE) (10_state.md R22). -/
inductive ResultValue where
  | word (v : BitVec 64)
  | seq (s : BitSeq)
  | train (t : PulseTrain)
deriving DecidableEq, Repr

/-- The events of the output stream (10_state.md R22). A Command travels as zext_64 of its data word and a gain as
zext_64 of its value, as R165, R170 and R236 emit them (DEDUCED, safe, entry 12). -/
inductive Event where
  /-- `EvDiag(code, arg)`. -/
  | diag (code : DiagCode) (arg : BitVec 64)
  /-- `EvRxSeq(s)`. -/
  | rxSeq (s : BitSeq)
  /-- `EvRxCmd(zext_64(pack(c)))`. -/
  | rxCmd (d : BitVec 64)
  /-- `EvResult(v)`. -/
  | result (v : ResultValue)
  /-- `EvTxCmd(zext_64(pack(c)))`. -/
  | txCmd (d : BitVec 64)
  /-- `EvGain(zext_64(g))`. -/
  | gain (g : BitVec 64)
  /-- `EvSamples(w)`. -/
  | samples (w : List Sample)
deriving DecidableEq, Repr

/-! ## The decoder (R24 to R26) -/

/-- `S.dec_state` (R24). -/
inductive DecState where
  | awaitingHello
  | inMessage
deriving DecidableEq, Repr

/-- The decoder registers. `S.dec_len` is the length of `buf`; no position at or above it is held (R25, entry 9). -/
structure Decoder where
  state : DecState
  buf : BitSeq
  ovf : Bool
deriving DecidableEq, Repr

/-! ## The scheduler (R27, R28) -/

/-- One slot of `S.sch_tab` (R27). -/
structure Slot where
  valid : Bool
  lastSent : Time
  repeats : BitVec 16
  command : Command
deriving DecidableEq, Repr

/-- The scheduler table and the GainState. `gainCur = none` is NONE (gain_valid = 0, R28). -/
structure Scheduler where
  tab : Vector Slot Config.nKeys
  gainCur : Option Gain
  gainLastSend : Time
deriving DecidableEq, Repr

/-! ## The synthesizer (R29) -/

/-- The synthesizer's registers: `S.syn_q`, `S.syn_active`, `S.syn_amp`, `S.syn_rem`. -/
structure Synth where
  queue : List PulseTrain
  active : PulseTrain
  amp : Sample
  rem : BitVec 64
deriving DecidableEq, Repr

/-! ## The configuration registers (R30 to R43) -/

/-- A writable register of its width, and its written flag `S.cfg_set[A]` (R30). -/
structure CfgReg (width : Nat) where
  value : BitVec width
  written : Bool
deriving DecidableEq, Repr

/-- The writable registers (R31 to R41), each at its width. -/
structure CfgFile where
  decHelloMin : CfgReg 32
  decHelloMax : CfgReg 32
  decLowMin : CfgReg 32
  decLowMax : CfgReg 32
  decHighMax : CfgReg 32
  decSepMin : CfgReg 32
  decSepMax : CfgReg 32
  decCtrl : CfgReg 1
  encHelloTime : CfgReg 32
  encBitLowTime : CfgReg 32
  encBitHighTime : CfgReg 32
  encBitSepTime : CfgReg 32
  synTrailTime : CfgReg 32
  synRateNum : CfgReg 32
  synRateDen : CfgReg 32
  synAmpHigh : CfgReg 16
  synAmpLow : CfgReg 16
  synAmpIdle : CfgReg 16
  synQueueCap : CfgReg 32
  synCtrl : CfgReg 2
  schRepeatCount : CfgReg 16
  schTbr : CfgReg 64
  schCutoff : CfgReg 64
  schGainActive : CfgReg 32
  schGainInactive : CfgReg 32
deriving DecidableEq, Repr

/-- The names of the writable registers (R31 to R41). -/
inductive RegName where
  | decHelloMin | decHelloMax | decLowMin | decLowMax | decHighMax | decSepMin | decSepMax | decCtrl
  | encHelloTime | encBitLowTime | encBitHighTime | encBitSepTime
  | synTrailTime | synRateNum | synRateDen | synAmpHigh | synAmpLow | synAmpIdle | synQueueCap | synCtrl
  | schRepeatCount | schTbr | schCutoff | schGainActive | schGainInactive
deriving DecidableEq, Repr

/-- The names of the read-only status registers (R42). -/
inductive StatusName where
  | statDec | statSyn | statSynRem | statSch | statGainVal | statGainLast
deriving DecidableEq, Repr

/-- What an 8-bit configuration address names (R43, R67). -/
inductive CfgTarget where
  | writable (r : RegName)
  | status (st : StatusName)
  | unused
deriving DecidableEq, Repr

/-! ## The whole state -/

/-- The state. `dec`, `sch`, `syn` and `cfg` are the block's (R20). `requests` is the host's request stream not yet
taken (entries 1 and 2), `events` the block's output so far (R22, entry 3), `queueDepth` the OPEN parameter QUEUE_DEPTH
of R8: `none` is unbounded, and no operation writes it (entry 4). -/
structure State where
  dec : Decoder
  sch : Scheduler
  syn : Synth
  cfg : CfgFile
  requests : List Word
  events : List Event
  queueDepth : Option Nat
deriving DecidableEq, Repr

/-! ## Reset (R290, R291) -/

/-- A register with no reset value: UNSET, written flag 0. Its held value is 0, which nothing reads while the flag is 0
(DESIGN CHOICE, unsafe, entry 6). -/
def CfgReg.unset (width : Nat) : CfgReg width := ⟨0, false⟩

/-- A register with a reset value: written flag 1 (R291). -/
def CfgReg.resetTo {width : Nat} (v : BitVec width) : CfgReg width := ⟨v, true⟩

/-- The decoder after reset (R291). -/
def Decoder.reset : Decoder := ⟨.awaitingHello, [], false⟩

/-- A slot after reset: not valid. The other fields are unspecified; they are 0 here (DESIGN CHOICE, unsafe, entry 7). -/
def Slot.reset : Slot := ⟨false, 0, 0, ⟨0, 0, 0, 0, 0, 0⟩⟩

/-- The scheduler after reset: every slot invalid, the gain NONE, the last send 0 (R291). -/
def Scheduler.reset : Scheduler := ⟨Vector.replicate Config.nKeys Slot.reset, none, 0⟩

/-- The synthesizer after reset. `S.syn_amp` is unspecified; it is 0 here (DESIGN CHOICE, unsafe, entry 8). -/
def Synth.reset : Synth := ⟨[], [], 0, 0⟩

/-- The configuration register file after reset (R291). -/
def CfgFile.reset : CfgFile where
  decHelloMin := .unset 32
  decHelloMax := .unset 32
  decLowMin := .unset 32
  decLowMax := .unset 32
  decHighMax := .unset 32
  decSepMin := .unset 32
  decSepMax := .unset 32
  decCtrl := .resetTo 0
  encHelloTime := .resetTo 1300
  encBitLowTime := .resetTo 600
  encBitHighTime := .resetTo 1300
  encBitSepTime := .resetTo 700
  synTrailTime := .unset 32
  synRateNum := .unset 32
  synRateDen := .unset 32
  synAmpHigh := .unset 16
  synAmpLow := .unset 16
  synAmpIdle := .unset 16
  synQueueCap := .resetTo 0
  synCtrl := .resetTo 0
  schRepeatCount := .unset 16
  schTbr := .unset 64
  schCutoff := .unset 64
  schGainActive := .unset 32
  schGainInactive := .unset 32

/-- The state right after power-on (R290, R291). No request has been issued and nothing has been output yet (entries 2
and 3), and QUEUE_DEPTH is unbounded, the source's default (DESIGN CHOICE, unsafe, entry 4). -/
def State.reset : State where
  dec := .reset
  sch := .reset
  syn := .reset
  cfg := .reset
  requests := []
  events := []
  queueDepth := none

/-! ## One named update per part of the state -/

/-- Replace the decoder. -/
def State.withDec (s : State) (d : Decoder) : State := { s with dec := d }

/-- Replace the scheduler. -/
def State.withSch (s : State) (c : Scheduler) : State := { s with sch := c }

/-- Replace the synthesizer. -/
def State.withSyn (s : State) (y : Synth) : State := { s with syn := y }

/-- Replace the configuration file. -/
def State.withCfg (s : State) (c : CfgFile) : State := { s with cfg := c }

/-- Replace the request stream. -/
def State.withRequests (s : State) (r : List Word) : State := { s with requests := r }

/-- Replace the event stream. -/
def State.withEvents (s : State) (e : List Event) : State := { s with events := e }

/-! ## How a step can end -/

/-- Why the machine stops with a fault: it never does. The block has no traps and no operation can stop
(60_exceptions.md R266, 93_implementation_defined.md section 4), so this type has no constructor (DEDUCED, safe, entry
17). -/
inductive Fault where
deriving DecidableEq, Repr

/-- Why a step is refused. -/
inductive Refusal where
  /-- Raised by an arm of exec whose instruction has no meaning yet; safe. No arm of this model raises it. -/
  | notModelled (mnemonic : String)
deriving DecidableEq, Repr

end Sys2Proof.Machine
end

