-- ==== Sys2Proof/Machine/Ops.lean ====
section
/-! DEFINITION. The named operations over the state: events and diagnostics (00_scope.md R12), the request stream
(30_encoding.md R86), the configuration registers (46_system.md R231, R232) and the scheduler's slots (43_scheduler.md
R161). -/

namespace Sys2Proof.Machine

/-! ## Events and diagnostics -/

/-- The 8-bit number of a diagnostic code (60_exceptions.md R261). -/
def DiagCode.number : DiagCode → BitVec 8
  | .decShortSep => 0x01
  | .decShortLow => 0x02
  | .decLongHigh => 0x03
  | .decBufOverflow => 0x04
  | .codecLength => 0x10
  | .codecTrailing => 0x11
  | .codecOverflow => 0x12
  | .schNothingEligible => 0x20
  | .synQueueFull => 0x30
  | .synPreempt => 0x31
  | .illegalOp => 0x40
  | .reqMalformed => 0x41
  | .cfgUnset => 0x42
  | .cfgBadAddr => 0x43
  | .cfgReadonly => 0x44
  | .cfgInvalid => 0x45

/-- `emit Ev(args)`: append one event to the output stream (R12, R22). -/
def emit (e : Event) (s : State) : State := s.withEvents (s.events ++ [e])

/-- `warn Code(arg)`: emit the diagnostic; the operation goes on (R12, R260). -/
def warn (code : DiagCode) (arg : BitVec 64) (s : State) : State := emit (.diag code arg) s

/-- `raise Code(arg)`: emit the diagnostic, and the operation ends there with no further change (R12, R260). What the
block has in place of taking an exception (R266): no state is saved, no mode changes and control goes nowhere. `s` is
the state before the operation's first write. -/
def raise (code : DiagCode) (arg : BitVec 64) (s : State) : State := emit (.diag code arg) s

/-- A 32-bit count field of a status register or an argument: the count, or a free value where it does not fit (entry
11). -/
def count32 (n : Nat) : BitVec 32 :=
  if n < 2 ^ 32 then BitVec.ofNat 32 n else Config.countAbove32 n

/-! ## The request stream -/

/-- Take the request at the front of the stream: its instruction and the state with its words removed. `none` when no
complete request is there (R86, R292, entry 2). -/
def fetch (s : State) : Option (Instr × State) :=
  match decode s.requests with
  | .ok (i, rest) => some (i, s.withRequests rest)
  | .error _ => none

/-- Put a request at the front of the stream, as the host's issuing it does (entry 2). -/
def placeRequest (words : List Word) (s : State) : State := s.withRequests (words ++ s.requests)

/-! ## The configuration address map (R31 to R43, R67) -/

/-- The address of a writable register (R31 to R41). -/
def RegName.addr : RegName → BitVec 8
  | .decHelloMin => 0x00
  | .decHelloMax => 0x01
  | .decLowMin => 0x02
  | .decLowMax => 0x03
  | .decHighMax => 0x04
  | .decSepMin => 0x05
  | .decSepMax => 0x06
  | .decCtrl => 0x07
  | .encHelloTime => 0x10
  | .encBitLowTime => 0x11
  | .encBitHighTime => 0x12
  | .encBitSepTime => 0x13
  | .synTrailTime => 0x20
  | .synRateNum => 0x21
  | .synRateDen => 0x22
  | .synAmpHigh => 0x23
  | .synAmpLow => 0x24
  | .synAmpIdle => 0x25
  | .synQueueCap => 0x26
  | .synCtrl => 0x27
  | .schRepeatCount => 0x30
  | .schTbr => 0x31
  | .schCutoff => 0x32
  | .schGainActive => 0x33
  | .schGainInactive => 0x34

/-- Every writable register, by rising address. -/
def allRegs : List RegName :=
  [.decHelloMin, .decHelloMax, .decLowMin, .decLowMax, .decHighMax, .decSepMin, .decSepMax, .decCtrl,
   .encHelloTime, .encBitLowTime, .encBitHighTime, .encBitSepTime,
   .synTrailTime, .synRateNum, .synRateDen, .synAmpHigh, .synAmpLow, .synAmpIdle, .synQueueCap, .synCtrl,
   .schRepeatCount, .schTbr, .schCutoff, .schGainActive, .schGainInactive]

/-- The address of a status register (R42). -/
def StatusName.addr : StatusName → BitVec 8
  | .statDec => 0x40
  | .statSyn => 0x41
  | .statSynRem => 0x42
  | .statSch => 0x43
  | .statGainVal => 0x44
  | .statGainLast => 0x45

/-- Every status register, by rising address. -/
def allStatus : List StatusName := [.statDec, .statSyn, .statSynRem, .statSch, .statGainVal, .statGainLast]

/-- What an address names; every address of neither list is unused (R43). -/
def cfgTarget (a : BitVec 8) : CfgTarget :=
  match allRegs.find? (fun r => r.addr == a) with
  | some r => .writable r
  | none =>
    match allStatus.find? (fun st => st.addr == a) with
    | some st => .status st
    | none => .unused

/-! ## The configuration registers -/

/-- A register's value, zero-extended to 64 bits (R30). -/
def CfgFile.get (c : CfgFile) : RegName → BitVec 64
  | .decHelloMin => c.decHelloMin.value.setWidth 64
  | .decHelloMax => c.decHelloMax.value.setWidth 64
  | .decLowMin => c.decLowMin.value.setWidth 64
  | .decLowMax => c.decLowMax.value.setWidth 64
  | .decHighMax => c.decHighMax.value.setWidth 64
  | .decSepMin => c.decSepMin.value.setWidth 64
  | .decSepMax => c.decSepMax.value.setWidth 64
  | .decCtrl => c.decCtrl.value.setWidth 64
  | .encHelloTime => c.encHelloTime.value.setWidth 64
  | .encBitLowTime => c.encBitLowTime.value.setWidth 64
  | .encBitHighTime => c.encBitHighTime.value.setWidth 64
  | .encBitSepTime => c.encBitSepTime.value.setWidth 64
  | .synTrailTime => c.synTrailTime.value.setWidth 64
  | .synRateNum => c.synRateNum.value.setWidth 64
  | .synRateDen => c.synRateDen.value.setWidth 64
  | .synAmpHigh => c.synAmpHigh.value.setWidth 64
  | .synAmpLow => c.synAmpLow.value.setWidth 64
  | .synAmpIdle => c.synAmpIdle.value.setWidth 64
  | .synQueueCap => c.synQueueCap.value.setWidth 64
  | .synCtrl => c.synCtrl.value.setWidth 64
  | .schRepeatCount => c.schRepeatCount.value.setWidth 64
  | .schTbr => c.schTbr.value
  | .schCutoff => c.schCutoff.value
  | .schGainActive => c.schGainActive.value.setWidth 64
  | .schGainInactive => c.schGainInactive.value.setWidth 64

/-- The written flag `S.cfg_set[A]` of a register (R30). -/
def CfgFile.isSet (c : CfgFile) : RegName → Bool
  | .decHelloMin => c.decHelloMin.written
  | .decHelloMax => c.decHelloMax.written
  | .decLowMin => c.decLowMin.written
  | .decLowMax => c.decLowMax.written
  | .decHighMax => c.decHighMax.written
  | .decSepMin => c.decSepMin.written
  | .decSepMax => c.decSepMax.written
  | .decCtrl => c.decCtrl.written
  | .encHelloTime => c.encHelloTime.written
  | .encBitLowTime => c.encBitLowTime.written
  | .encBitHighTime => c.encBitHighTime.written
  | .encBitSepTime => c.encBitSepTime.written
  | .synTrailTime => c.synTrailTime.written
  | .synRateNum => c.synRateNum.written
  | .synRateDen => c.synRateDen.written
  | .synAmpHigh => c.synAmpHigh.written
  | .synAmpLow => c.synAmpLow.written
  | .synAmpIdle => c.synAmpIdle.written
  | .synQueueCap => c.synQueueCap.written
  | .synCtrl => c.synCtrl.written
  | .schRepeatCount => c.schRepeatCount.written
  | .schTbr => c.schTbr.written
  | .schCutoff => c.schCutoff.written
  | .schGainActive => c.schGainActive.written
  | .schGainInactive => c.schGainInactive.written

/-- `Reg[A] <- trunc_w(v)` and `S.cfg_set[A] <- 1` for one register of width w (R30, R232). -/
def CfgReg.store {w : Nat} (v : BitVec 64) (_ : CfgReg w) : CfgReg w := ⟨v.setWidth w, true⟩

/-- Store into one register of the file; every other register is left as it was (R66, R232). -/
def CfgFile.set (c : CfgFile) (v : BitVec 64) : RegName → CfgFile
  | .decHelloMin => { c with decHelloMin := c.decHelloMin.store v }
  | .decHelloMax => { c with decHelloMax := c.decHelloMax.store v }
  | .decLowMin => { c with decLowMin := c.decLowMin.store v }
  | .decLowMax => { c with decLowMax := c.decLowMax.store v }
  | .decHighMax => { c with decHighMax := c.decHighMax.store v }
  | .decSepMin => { c with decSepMin := c.decSepMin.store v }
  | .decSepMax => { c with decSepMax := c.decSepMax.store v }
  | .decCtrl => { c with decCtrl := c.decCtrl.store v }
  | .encHelloTime => { c with encHelloTime := c.encHelloTime.store v }
  | .encBitLowTime => { c with encBitLowTime := c.encBitLowTime.store v }
  | .encBitHighTime => { c with encBitHighTime := c.encBitHighTime.store v }
  | .encBitSepTime => { c with encBitSepTime := c.encBitSepTime.store v }
  | .synTrailTime => { c with synTrailTime := c.synTrailTime.store v }
  | .synRateNum => { c with synRateNum := c.synRateNum.store v }
  | .synRateDen => { c with synRateDen := c.synRateDen.store v }
  | .synAmpHigh => { c with synAmpHigh := c.synAmpHigh.store v }
  | .synAmpLow => { c with synAmpLow := c.synAmpLow.store v }
  | .synAmpIdle => { c with synAmpIdle := c.synAmpIdle.store v }
  | .synQueueCap => { c with synQueueCap := c.synQueueCap.store v }
  | .synCtrl => { c with synCtrl := c.synCtrl.store v }
  | .schRepeatCount => { c with schRepeatCount := c.schRepeatCount.store v }
  | .schTbr => { c with schTbr := c.schTbr.store v }
  | .schCutoff => { c with schCutoff := c.schCutoff.store v }
  | .schGainActive => { c with schGainActive := c.schGainActive.store v }
  | .schGainInactive => { c with schGainInactive := c.schGainInactive.store v }

/-- `width(A)` (R31 to R41). -/
def RegName.width : RegName → Nat
  | .decCtrl => 1
  | .synCtrl => 2
  | .synAmpHigh | .synAmpLow | .synAmpIdle | .schRepeatCount => 16
  | .schTbr | .schCutoff => 64
  | .decHelloMin | .decHelloMax | .decLowMin | .decLowMax | .decHighMax | .decSepMin | .decSepMax => 32
  | .encHelloTime | .encBitLowTime | .encBitHighTime | .encBitSepTime => 32
  | .synTrailTime | .synRateNum | .synRateDen | .synQueueCap => 32
  | .schGainActive | .schGainInactive => 32

/-- The lowest address among the UNSET registers of a list: `min U` of R231, or `none` where U is empty. -/
def lowestUnset (c : CfgFile) (regs : List RegName) : Option Nat :=
  ((regs.filter fun r => !c.isSet r).map fun r => r.addr.toNat).min?

/-- `require_cfg(A1, ..., Am)`, and then the rest of the operation (R231). -/
def requireCfg (regs : List RegName) (body : State → State) (s : State) : State :=
  match lowestUnset s.cfg regs with
  | some a => raise .cfgUnset (BitVec.ofNat 64 a) s
  | none => body s

/-- `CfgWrite(A, v)` (R232). -/
def cfgWriteReg (a : BitVec 8) (v : BitVec 64) (s : State) : State :=
  match cfgTarget a with
  | .status _ => raise .cfgReadonly (a.setWidth 64) s
  | .unused => raise .cfgBadAddr (a.setWidth 64) s
  | .writable r =>
    let x := v.setWidth r.width
    if (r = .synRateDen ∨ r = .schRepeatCount) ∧ x = 0 then raise .cfgInvalid (a.setWidth 64) s
    else s.withCfg (s.cfg.set v r)

/-! ## The scheduler's slots -/

/-- `key(c) = c.chan * 16 + c.group` (R161). -/
def commandKey (c : Command) : Key := c.chan ++ c.group

/-- `S.sch_tab[k]` (R27). -/
def slotAt (c : Scheduler) (k : Key) : Slot := c.tab[k.toNat]'(k.isLt)

/-- `S.sch_tab[k] <- v`. -/
def setSlot (c : Scheduler) (k : Key) (v : Slot) : Scheduler := { c with tab := c.tab.set k.toNat v k.isLt }

/-- The keys 0..255, rising (R27). -/
def allKeys : List Key := (List.range Config.nKeys).map (BitVec.ofNat 8)

end Sys2Proof.Machine
end

