-- ==== Sys2Proof/Machine/Operands.lean ====
section
/-! DEFINITION. The operand forms that an operation checks or lays out: malformed operands (30_encoding.md R102) and the
argument layouts of the diagnostics (60_exceptions.md R261). -/

namespace Sys2Proof.Machine

/-- The argument of REQ_MALFORMED: W[3:0] in arg[3:0], the offending value in arg[15:8] (R102, R261). -/
def malformedArg (op : BitVec 4) (value : BitVec 8) : BitVec 64 := 0#48 ++ value ++ 0#4 ++ op

/-- The argument of ILLEGAL_OP: W[3:0] in arg[3:0] (R100, R261). -/
def illegalArg (op : BitVec 4) : BitVec 64 := 0#60 ++ op

/-- The argument of DEC_SHORT_SEP and DEC_SHORT_LOW: n[7:0] at [47:40], d at [31:0] (R115, R116, R261). -/
def shortArg (n : Nat) (d : Dur) : BitVec 64 := 0#16 ++ BitVec.ofNat 8 n ++ 0#8 ++ d

/-- The argument of DEC_LONG_HIGH: n[7:0] at [47:40], FORWARD_PARTIAL at [33], resync at [32], d at [31:0] (R115,
R261). -/
def longHighArg (n : Nat) (forwardPartial resync : Bool) (d : Dur) : BitVec 64 :=
  0#16 ++ BitVec.ofNat 8 n ++ 0#6 ++ BitVec.ofBool forwardPartial ++ BitVec.ofBool resync ++ d

/-- The argument of SYN_QUEUE_FULL: the policy at [63], the rejected train's length or the number of trains dropped at
[31:0] (R205, R261). -/
def queueFullArg (policy : Bool) (count : Nat) : BitVec 64 := BitVec.ofBool policy ++ 0#31 ++ count32 count

/-- Format BS: a malformed operand raises REQ_MALFORMED before anything else the operation does (R102, R265). -/
def withSeq (op : BitVec 4) (o : SeqOperand) (body : BitSeq → State → State) (s : State) : State :=
  match o with
  | .seq q => body q s
  | .tooLong len => raise .reqMalformed (malformedArg op (len.setWidth 8)) s

/-- Format TR: a malformed operand raises REQ_MALFORMED before anything else the operation does (R102, R265). -/
def withTrain (op : BitVec 4) (o : TrainOperand) (body : PulseTrain → State → State) (s : State) : State :=
  match o with
  | .train t => body t s
  | .tooLong count => raise .reqMalformed (malformedArg op count) s

end Sys2Proof.Machine
end

