-- ==== Sys2Proof/Machine/Checksum.lean ====
section
/-! DEFINITION. The diffusion checksum engine: 41_checksum.md R130 to R133. -/

namespace Sys2Proof.Machine

/-- MG: the group masks, least significant bit first (R130). -/
def groupMasks : List (BitVec 8) := [110, 220, 137, 35]

/-- MC: the chan masks (R130). -/
def chanMasks : List (BitVec 8) := [244, 217, 131, 55]

/-- MB: the brightness masks, for bits 0 to 6; bit 7 has none (R130, R133). -/
def brightnessMasks : List (BitVec 8) := [49, 98, 196, 185, 67, 134, 61]

/-- XOR into `acc` the mask of every set bit of a field, from bit i up (R131). -/
def foldMasks {w : Nat} (field : BitVec w) : List (BitVec 8) → Nat → BitVec 8 → BitVec 8
  | [], _, acc => acc
  | m :: ms, i, acc => foldMasks field ms (i + 1) (if field.getLsbD i then acc ^^^ m else acc)

/-- `cksum(g, c, b)`: group first, then chan, then brightness (R131). -/
def cksumOf (g : BitVec 4) (c : BitVec 4) (b : BitVec 8) : BitVec 8 :=
  foldMasks b brightnessMasks 0 (foldMasks c chanMasks 0 (foldMasks g groupMasks 0 0))

/-- CKSUM (R132). -/
def execCksum (g : BitVec 4) (c : BitVec 4) (b : BitVec 8) (s : State) : Host.Outcome State Fault Refusal :=
  .next (emit (.result (.word ((cksumOf g c b).setWidth 64))) s)

end Sys2Proof.Machine
end

