-- ==== Sys2Proof/Machine/Codec.lean ====
section
/-! DEFINITION. The 33-bit frame codec: 42_frame_codec.md R140 to R147. -/

namespace Sys2Proof.Machine

/-! ## Encode -/

/-- Each raw field masked to its frame width (R140). -/
def truncateFields (rg rc rb rcmd rcol rck : BitVec 8) : Command where
  group := rg.setWidth 4
  chan := rc.setWidth 4
  brightness := rb
  cmd := rcmd.setWidth 2
  color := rcol.setWidth 6
  cksum := rck

/-- The frame sequence of a Command: F = {D, 0}, position i is F[32 - i] (R81, R83, R140). -/
def frameSeq (c : Command) : BitSeq :=
  let f : BitVec 33 := c.pack ++ 0#1
  (List.range Config.frameLen).map fun i => f.getLsbD (32 - i)

/-- CODEC_ENCODE (R141). -/
def execCodecEncode (rg rc rb rcmd rcol rck : BitVec 8) (s : State) : Host.Outcome State Fault Refusal :=
  .next (emit (.result (.seq (frameSeq (truncateFields rg rc rb rcmd rcol rck)))) s)

/-! ## Decode -/

/-- The outcome of `decode` (R142). -/
inductive FrameResult where
  | lengthError (n : Nat)
  | trailingBitError
  | overflowError
  | command (c : Command)
deriving DecidableEq, Repr

/-- The value of a bit list, its first bit the most significant (R142). -/
def valueMsbFirst (s : BitSeq) : Nat := s.foldl (fun v b => 2 * v + b.toNat) 0

/-- `decode(s)`, its conditions in the order of R142. The named fields consume 4+4+8+2+6+8 of the data bits; the
overflow test on what remains is kept although nothing can remain (R145, entry 5). The checksum is not checked (R146). -/
def decodeFrame (s : BitSeq) : FrameResult :=
  if s.length ≠ Config.frameLen then .lengthError s.length
  else if s.getD 32 false = true then .trailingBitError
  else
    let data := s.take 32
    let residual := data.drop (4 + 4 + 8 + 2 + 6 + 8)
    if residual ≠ [] then .overflowError
    else .command (commandOfData (BitVec.ofNat 32 (valueMsbFirst data)))

/-- `zext_64(pack(c))`, the form in which events carry a Command (R147, R170, R236). -/
def packed64 (c : Command) : BitVec 64 := c.pack.setWidth 64

/-- The body of CODEC_DECODE on a sequence operand: each error is a raise (R147). -/
def codecDecodeSeq (q : BitSeq) (s : State) : State :=
  match decodeFrame q with
  | .lengthError n => raise .codecLength (BitVec.ofNat 64 n) s
  | .trailingBitError => raise .codecTrailing 0 s
  | .overflowError => raise .codecOverflow 0 s
  | .command c => emit (.result (.word (packed64 c))) s

/-- CODEC_DECODE (R147). -/
def execCodecDecode (o : SeqOperand) (s : State) : Host.Outcome State Fault Refusal :=
  .next (withSeq 0x5 o codecDecodeSeq s)

/-! ## The receive path -/

/-- `rx_frame(s)`: an empty sequence is not decoded; a frame error is a warning (46_system.md R236). -/
def rxFrame (q : BitSeq) (s : State) : State :=
  if q = [] then s
  else
    match decodeFrame q with
    | .lengthError n => warn .codecLength (BitVec.ofNat 64 n) s
    | .trailingBitError => warn .codecTrailing 0 s
    | .overflowError => warn .codecOverflow 0 s
    | .command c => emit (.rxCmd (packed64 c)) s

end Sys2Proof.Machine
end

