-- ==== Sys2Proof/Machine/Encoder.lean ====
section
/-! DEFINITION. The OOK pulse encoder: 44_pulse_encoder.md R190 and R191. -/

namespace Sys2Proof.Machine

/-- The two pulses of one bit: a low pulse that carries it and a high separator (R84, R190). -/
def bitPulses (c : CfgFile) (b : Bool) : PulseTrain :=
  [⟨false, if b then c.encBitHighTime.value else c.encBitLowTime.value⟩, ⟨true, c.encBitSepTime.value⟩]

/-- `pulses(s)`: the hello pulse, then two pulses for each bit (R190). -/
def pulsesOf (c : CfgFile) (q : BitSeq) : PulseTrain := ⟨true, c.encHelloTime.value⟩ :: q.flatMap (bitPulses c)

/-- The body of ENC_ENCODE (R191). -/
def encEncodeSeq (q : BitSeq) (s : State) : State := emit (.result (.train (pulsesOf s.cfg q))) s

/-- ENC_ENCODE (R191). -/
def execEncEncode (o : SeqOperand) (s : State) : Host.Outcome State Fault Refusal :=
  .next (withSeq 0x8 o encEncodeSeq s)

end Sys2Proof.Machine
end

