-- ==== Sys2Proof/Machine/PulseDecoder.lean ====
section
/-! DEFINITION. The OOK pulse decoder: 40_decoder.md R110 to R118. -/

namespace Sys2Proof.Machine

/-- The kind of a flush: VALID or PARTIAL (R112). -/
inductive FlushKind where
  | validBuf
  | partialBuf
deriving DecidableEq, Repr

/-- The registers DEC_PULSE needs: 0x00 to 0x06 (R113, R231). -/
def decRegs : List RegName :=
  [.decHelloMin, .decHelloMax, .decLowMin, .decLowMax, .decHighMax, .decSepMin, .decSepMax]

/-- FORWARD_PARTIAL, bit 0 of DEC_CTRL (R32). -/
def forwardPartial (c : CfgFile) : Bool := c.decCtrl.value.getLsbD 0

/-- d lies in the hello window, both bounds included (R110, R114). -/
def inHello (c : CfgFile) (d : Dur) : Bool := decide (c.decHelloMin.value ≤ d) && decide (d ≤ c.decHelloMax.value)

/-- `flush(kind)`: hand over the bit buffer and empty it (R112). -/
def flush (kind : FlushKind) (s : State) : State :=
  let q := s.dec.buf
  let ovf := s.dec.ovf
  let s1 := s.withDec { s.dec with buf := [], ovf := false }
  if kind = .partialBuf ∧ forwardPartial s.cfg = false then s1
  else
    let s2 := if ovf then warn .decBufOverflow (BitVec.ofNat 64 q.length) s1 else s1
    rxFrame q (emit (.rxSeq q) s2)

/-- `S.dec_state <- v`. -/
def setDecState (v : DecState) (s : State) : State := s.withDec { s.dec with state := v }

/-- `append(b)`: one decoded bit, or the overflow flag when the buffer is full (R117). -/
def appendBit (b : Bool) (s : State) : State :=
  if s.dec.buf.length < Config.bitbufCap then s.withDec { s.dec with buf := s.dec.buf ++ [b] }
  else s.withDec { s.dec with ovf := true }

/-- DEC_PULSE in AWAITING_HELLO (R114). -/
def pulseAwaiting (level : Bool) (d : Dur) (s : State) : State :=
  if level = true ∧ inHello s.cfg d = true then s.withDec ⟨.inMessage, [], false⟩ else s

/-- DEC_PULSE in IN_MESSAGE, a high pulse (R115). -/
def pulseHigh (d : Dur) (s : State) : State :=
  let n := s.dec.buf.length
  if d < s.cfg.decSepMin.value then
    setDecState .awaitingHello (flush .validBuf (warn .decShortSep (shortArg n d) s))
  else if s.cfg.decSepMax.value < d then
    let resync := inHello s.cfg d
    setDecState (if resync then .inMessage else .awaitingHello)
      (flush .partialBuf (warn .decLongHigh (longHighArg n (forwardPartial s.cfg) resync d) s))
  else s

/-- DEC_PULSE in IN_MESSAGE, a low pulse (R116). -/
def pulseLow (d : Dur) (s : State) : State :=
  let n := s.dec.buf.length
  if d < s.cfg.decLowMin.value then
    setDecState .awaitingHello (flush .validBuf (warn .decShortLow (shortArg n d) s))
  else if d < s.cfg.decLowMax.value then appendBit false s
  else if s.cfg.decHighMax.value < d then setDecState .awaitingHello (flush .validBuf s)
  else appendBit true s

/-- The dispatch of DEC_PULSE on `S.dec_state` and `level` (R113). -/
def classifyPulse (level : Bool) (d : Dur) (s : State) : State :=
  match s.dec.state, level with
  | .awaitingHello, _ => pulseAwaiting level d s
  | .inMessage, true => pulseHigh d s
  | .inMessage, false => pulseLow d s

/-- DEC_PULSE (R113). -/
def execDecPulse (level : Bool) (d : Dur) (s : State) : Host.Outcome State Fault Refusal :=
  .next (requireCfg decRegs (classifyPulse level d) s)

/-- DEC_END: a valid flush, then AWAITING_HELLO, with no configuration check (R118). -/
def execDecEnd (s : State) : Host.Outcome State Fault Refusal :=
  .next (setDecState .awaitingHello (flush .validBuf s))

end Sys2Proof.Machine
end

