-- ==== Sys2Proof/Machine/Flags.lean ====
section
/-! DEFINITION. The block's status bits. It has no condition codes (10_state.md R44); its status registers (R42) are
computed from the live state. -/

namespace Sys2Proof.Machine

/-- The number of valid scheduler slots, 0..256 (R27). -/
def validSlots (c : Scheduler) : Nat := c.tab.toList.countP fun slot => slot.valid

/-- gain_valid (R28). -/
def gainValid (c : Scheduler) : Bool := c.gainCur.isSome

/-- `S.dec_state` as its bit: 0 is AWAITING_HELLO, 1 is IN_MESSAGE (R24). -/
def DecState.bit : DecState → BitVec 1
  | .awaitingHello => 0
  | .inMessage => 1

/-- STAT_DEC: [0] dec_state, [15:8] dec_len, [16] dec_ovf (R42). -/
def statDec (d : Decoder) : BitVec 64 :=
  0#47 ++ BitVec.ofBool d.ovf ++ BitVec.ofNat 8 d.buf.length ++ 0#7 ++ d.state.bit

/-- STAT_SYN: [31:0] len(syn_q), [63:32] len(syn_active) (R42); a count of 2^32 or more is entry 11's. -/
def statSyn (y : Synth) : BitVec 64 := count32 y.active.length ++ count32 y.queue.length

/-- STAT_SCH: [8:0] the number of valid slots, [16] gain_valid (R42). -/
def statSch (c : Scheduler) : BitVec 64 :=
  0#47 ++ BitVec.ofBool (gainValid c) ++ 0#7 ++ BitVec.ofNat 9 (validSlots c)

/-- STAT_GAIN_VAL: [31:0] gain_val, 0 when gain_valid = 0 (R42). -/
def statGainVal (c : Scheduler) : BitVec 64 := 0#32 ++ c.gainCur.getD 0

/-- The live value of a status register (R42). -/
def statusValue (s : State) : StatusName → BitVec 64
  | .statDec => statDec s.dec
  | .statSyn => statSyn s.syn
  | .statSynRem => s.syn.rem
  | .statSch => statSch s.sch
  | .statGainVal => statGainVal s.sch
  | .statGainLast => s.sch.gainLastSend

end Sys2Proof.Machine
end

