-- ==== Sys2Proof/Machine/Synth.lean ====
section
/-! DEFINITION. The waveform synthesizer: 45_synthesizer.md R200 to R209. -/

namespace Sys2Proof.Machine

/-! ## Conversions -/

/-- `rhe(n, d)`: n/d rounded to the nearest integer, ties to even (R201). -/
def rhe (n d : Nat) : Nat :=
  let q := n / d
  let r := n - q * d
  if 2 * r > d then q + 1 else if 2 * r < d then q else q + q % 2

/-- `to_samples(d)` (R202). -/
def toSamples (c : CfgFile) (d : Dur) : Nat := rhe (d.toNat * c.synRateNum.value.toNat) c.synRateDen.value.toNat

/-- `amp(level)` (R203). -/
def ampOf (c : CfgFile) (level : Bool) : Sample := if level then c.synAmpHigh.value else c.synAmpLow.value

/-- FULL_POLICY, bit 0 of SYN_CTRL: `true` is drop-oldest (R38). -/
def dropOldestPolicy (c : CfgFile) : Bool := c.synCtrl.value.getLsbD 0

/-- ORDER, bit 1 of SYN_CTRL: `true` is active-first (R38). -/
def activeFirst (c : CfgFile) : Bool := c.synCtrl.value.getLsbD 1

/-! ## Enqueue -/

/-- The effective capacity of the queue; `none` is no limit (R205). -/
def effectiveCap (s : State) : Option Nat :=
  let cap := s.cfg.synQueueCap.value.toNat
  if cap = 0 then s.queueDepth
  else
    match s.queueDepth with
    | none => some cap
    | some depth => some (min cap depth)

/-- The loop of drop-oldest: while the queue is at capacity, pop its front and count it (R205). -/
def dropFront (cap : Nat) : List PulseTrain → Nat → List PulseTrain × Nat
  | [], dropped => ([], dropped)
  | t :: q, dropped => if cap ≤ (t :: q).length then dropFront cap q (dropped + 1) else (t :: q, dropped)

/-- `push_back(S.syn_q, t)` (R11). -/
def pushBack (t : PulseTrain) (s : State) : State := s.withSyn { s.syn with queue := s.syn.queue ++ [t] }

/-- `admit(t2)`: whether the train is admitted, and the state after the capacity bound was applied (R205). -/
def admitTrain (t2 : PulseTrain) (s : State) : Bool × State :=
  match effectiveCap s with
  | none => (true, s)
  | some cap =>
    if s.syn.queue.length < cap then (true, s)
    else if dropOldestPolicy s.cfg = false then (false, warn .synQueueFull (queueFullArg false t2.length) s)
    else
      let r := dropFront cap s.syn.queue 0
      (true, warn .synQueueFull (queueFullArg true r.2) (s.withSyn { s.syn with queue := r.1 }))

/-- `syn_push(t)`: append the trailing separator and queue the train, if it is admitted (R204). -/
def synPush (t : PulseTrain) (s : State) : State :=
  let t2 := t ++ [⟨false, s.cfg.synTrailTime.value⟩]
  let r := admitTrain t2 s
  if r.1 then pushBack t2 r.2 else r.2

/-- SYN_ENQUEUE (R204). -/
def execSynEnqueue (o : TrainOperand) (s : State) : Host.Outcome State Fault Refusal :=
  .next (withTrain 0x9 o (fun t => requireCfg [.synTrailTime] (synPush t)) s)

/-! ## Fill -/

/-- What one SYN_FILL works on: the state, the samples written and the space left (R206). -/
structure FillCtx where
  st : State
  out : List Sample
  space : Nat

/-- Case (a) of R207: write from the segment in progress. Where this ends the segment, `S.syn_amp` keeps its amplitude; the
spec leaves it any value while `S.syn_rem` = 0 (I10 of 93_implementation_defined.md; DESIGN CHOICE, unsafe, entry 8). -/
def fillSegment (c : FillCtx) : FillCtx :=
  let k := min c.space c.st.syn.rem.toNat
  { st := c.st.withSyn { c.st.syn with rem := c.st.syn.rem - BitVec.ofNat 64 k }
    out := c.out ++ List.replicate k c.st.syn.amp
    space := c.space - k }

/-- Case (b) of R207: pop the next train as the active message; pulses it replaces are reported. -/
def fillPopTrain (t : PulseTrain) (q : List PulseTrain) (c : FillCtx) : FillCtx :=
  let old := c.st.syn.active
  let s1 := if old ≠ [] then warn .synPreempt (BitVec.ofNat 64 old.length) c.st else c.st
  { c with st := s1.withSyn { s1.syn with queue := q, active := t } }

/-- Case (c) of R207: pop the next pulse and begin its segment. Where the segment has no samples, `S.syn_amp` still takes
the pulse's amplitude; the spec leaves it any value while `S.syn_rem` = 0 (I10 of 93_implementation_defined.md; DESIGN
CHOICE, unsafe, entry 8). -/
def fillPopPulse (p : Pulse) (ps : PulseTrain) (c : FillCtx) : FillCtx :=
  let cfg := c.st.cfg
  { c with st := c.st.withSyn { c.st.syn with
      active := ps, amp := ampOf cfg p.level, rem := BitVec.ofNat 64 (toSamples cfg p.dur) } }

/-- Case (d) of R207: the idle amplitude fills the rest. -/
def fillIdle (c : FillCtx) : FillCtx :=
  { c with out := c.out ++ List.replicate c.space c.st.cfg.synAmpIdle.value, space := 0 }

/-- `fill_step()` with ORDER = 0: the cases in the order (a), (b), (c), (d) (R207). -/
def fillStepQueueFirst (c : FillCtx) : FillCtx :=
  if 0 < c.st.syn.rem.toNat then fillSegment c
  else
    match c.st.syn.queue with
    | t :: q => fillPopTrain t q c
    | [] =>
      match c.st.syn.active with
      | p :: ps => fillPopPulse p ps c
      | [] => fillIdle c

/-- `fill_step()` with ORDER = 1: the cases in the order (a), (c), (b), (d) (R208). -/
def fillStepActiveFirst (c : FillCtx) : FillCtx :=
  if 0 < c.st.syn.rem.toNat then fillSegment c
  else
    match c.st.syn.active with
    | p :: ps => fillPopPulse p ps c
    | [] =>
      match c.st.syn.queue with
      | t :: q => fillPopTrain t q c
      | [] => fillIdle c

/-- One step of the fill loop, by SYN_CTRL.ORDER (R206). -/
def fillStep (c : FillCtx) : FillCtx :=
  if activeFirst c.st.cfg then fillStepActiveFirst c else fillStepQueueFirst c

/-- The fill loop: while space is left, take a step (R206). The fuel is a bound on the steps (R209), see `fillFuel`. -/
def fillLoop : Nat → FillCtx → FillCtx
  | 0, c => c
  | fuel + 1, c => if c.space = 0 then c else fillLoop fuel (fillStep c)

/-- Enough steps for any fill (R209): two for each pulse that is queued or active, one for each queued train, one for the
segment in progress and one for the idle samples. `fillLoop_space` in Laws/Synth.lean proves that it is enough. -/
def fillFuel (y : Synth) : Nat :=
  2 * (y.active.length + (y.queue.map List.length).sum) + y.queue.length + (if 0 < y.rem.toNat then 1 else 0) + 1

/-- The registers SYN_FILL needs: 0x21 to 0x25 (R200, R231). -/
def fillRegs : List RegName := [.synRateNum, .synRateDen, .synAmpHigh, .synAmpLow, .synAmpIdle]

/-- The body of SYN_FILL: n samples (R206). -/
def fillSamples (n : Nat) (s : State) : State :=
  let c := fillLoop (fillFuel s.syn) ⟨s, [], n⟩
  emit (.samples c.out) c.st

/-- SYN_FILL (R206). -/
def execSynFill (n : BitVec 32) (s : State) : Host.Outcome State Fault Refusal :=
  .next (requireCfg fillRegs (fillSamples n.toNat) s)

end Sys2Proof.Machine
end

