-- ==== Sys2Proof/Machine/Scheduler.lean ====
section
/-! DEFINITION. The retransmission scheduler: 43_scheduler.md R160 to R173, with the transmit path of 46_system.md
R237. -/

namespace Sys2Proof.Machine

/-- The registers of the scheduler's configuration check (R160, R231). -/
def schRegs : List RegName :=
  [.schRepeatCount, .schTbr, .schCutoff, .schGainActive, .schGainInactive, .synTrailTime]

/-- `now - since >= bound` on the mathematical integers (R13, R167, R176). -/
def elapsed (now since bound : Time) : Bool := decide ((bound.toNat : Int) ≤ (now.toNat : Int) - (since.toNat : Int))

/-! ## The gain step -/

/-- `gain_step(target, now, K)`; NONE is unequal to every value, and `S.gain_last_send` is not written (R165, R166). -/
def gainStep (target : Gain) (now cutoff : Time) (s : State) : State :=
  if s.sch.gainCur ≠ some target ∧ elapsed now s.sch.gainLastSend cutoff = true then
    emit (.gain (target.setWidth 64)) (s.withSch { s.sch with gainCur := some target })
  else s

/-! ## The selection -/

/-- An entry is eligible when it is valid and old enough (R167). -/
def eligible (c : Scheduler) (now tbr : Time) (k : Key) : Bool :=
  (slotAt c k).valid && elapsed now (slotAt c k).lastSent tbr

/-- Elig: the eligible keys, rising (R164). -/
def eligibleKeys (c : Scheduler) (now tbr : Time) : List Key := allKeys.filter (eligible c now tbr)

/-- `select(Elig)`: the smallest last_sent_time, and among those that share it the smallest key (R169: TIE_BREAK is
LOWEST_KEY in this hardware). The keys come rising. `none` only for the empty list. -/
def selectKey (c : Scheduler) (elig : List Key) : Option Key :=
  match (elig.map fun k => (slotAt c k).lastSent.toNat).min? with
  | none => none
  | some m => elig.find? fun k => (slotAt c k).lastSent.toNat == m

/-! ## The emission -/

/-- `tx_frame(c)`: encode, expand and queue (46_system.md R237). -/
def txFrame (c : Command) (s : State) : State := synPush (pulsesOf s.cfg (frameSeq c)) s

/-- The entry after a send: one repeat fewer, removed at 0 (R171). A removed entry's other fields stand as they were; the
spec leaves them any value while valid is 0 (I9 of 93_implementation_defined.md; DESIGN CHOICE, unsafe, entry 7). -/
def slotAfterSend (slot : Slot) (now : Time) : Slot :=
  let r := slot.repeats - 1
  if r = 0 then { slot with valid := false } else { slot with repeats := r, lastSent := now }

/-- `emit_entry(k, now)` (R170, R171). -/
def emitEntry (k : Key) (now : Time) (s : State) : State :=
  let slot := slotAt s.sch k
  let s1 := txFrame slot.command (emit (.txCmd (packed64 slot.command)) s)
  let s2 := s1.withSch { s1.sch with gainLastSend := now }
  s2.withSch (setSlot s2.sch k (slotAfterSend slot now))

/-! ## The pass -/

/-- `sch_pass(now)` (R164). -/
def schPass (now : Time) (s : State) : State :=
  let idle := validSlots s.sch = 0
  let target := if idle then s.cfg.schGainInactive.value else s.cfg.schGainActive.value
  let s1 := gainStep target now s.cfg.schCutoff.value s
  match selectKey s1.sch (eligibleKeys s1.sch now s.cfg.schTbr.value) with
  | none => warn .schNothingEligible (BitVec.ofNat 64 (validSlots s1.sch)) s1
  | some k => emitEntry k now s1

/-- The upsert of SCH_SUBMIT: the entry replaces any prior one for its key (R162, R163). -/
def upsert (c : Command) (s : State) : State :=
  s.withSch (setSlot s.sch (commandKey c) ⟨true, 0, s.cfg.schRepeatCount.value, c⟩)

/-- SCH_SUBMIT (R162). -/
def execSchSubmit (c : Command) (now : Time) (s : State) : Host.Outcome State Fault Refusal :=
  .next (requireCfg schRegs (fun s => schPass now (upsert c s)) s)

/-- SCH_TICK (R173). -/
def execSchTick (now : Time) (s : State) : Host.Outcome State Fault Refusal :=
  .next (requireCfg schRegs (schPass now) s)

end Sys2Proof.Machine
end

