-- ==== Sys2Proof/Machine/System.lean ====
section
/-! DEFINITION. The system operations: 46_system.md R230 to R235 and the reserved op codes of 30_encoding.md R100. -/

namespace Sys2Proof.Machine

/-- NOP does nothing (R230). -/
def execNop (s : State) : Host.Outcome State Fault Refusal := .next s

/-- CFG_WRITE (R233). -/
def execCfgWrite (addr : BitVec 8) (data : BitVec 64) (s : State) : Host.Outcome State Fault Refusal :=
  .next (cfgWriteReg addr data s)

/-- The body of CFG_READ (R234). -/
def cfgReadReg (a : BitVec 8) (s : State) : State :=
  match cfgTarget a with
  | .unused => raise .cfgBadAddr (a.setWidth 64) s
  | .status st => emit (.result (.word (statusValue s st))) s
  | .writable r =>
    if s.cfg.isSet r = false then raise .cfgUnset (a.setWidth 64) s
    else emit (.result (.word (s.cfg.get r))) s

/-- CFG_READ (R234). -/
def execCfgRead (addr : BitVec 8) (s : State) : Host.Outcome State Fault Refusal := .next (cfgReadReg addr s)

/-- Op code 0xD raises ILLEGAL_OP (30_encoding.md R100). -/
def execReservedD (s : State) : Host.Outcome State Fault Refusal := .next (raise .illegalOp (illegalArg 0xD) s)

/-- Op code 0xE raises ILLEGAL_OP (30_encoding.md R100). -/
def execReservedE (s : State) : Host.Outcome State Fault Refusal := .next (raise .illegalOp (illegalArg 0xE) s)

/-- The reset of the block's four parts (R235, 70_reset_and_hazards.md R291). The event stream is output and is not
reset, the host's request stream is outside the block, and QUEUE_DEPTH is a parameter (entries 2, 3 and 4). -/
def blockReset (s : State) : State :=
  (((s.withDec .reset).withSch .reset).withSyn .reset).withCfg .reset

/-- RESET (R235): no event. -/
def execReset (s : State) : Host.Outcome State Fault Refusal := .next (blockReset s)

end Sys2Proof.Machine
end

