-- ==== Sys2Proof/Machine/Dispatch.lean ====
section
/-! DEFINITION. One arm for each op code of 30_encoding.md R87. -/

namespace Sys2Proof.Machine

def exec (i : Instr) (s : State) : Host.Outcome State Fault Refusal :=
  match i with
  | .nop => Sys2Proof.Machine.execNop s
  | .decPulse level dur => Sys2Proof.Machine.execDecPulse level dur s
  | .decEnd => Sys2Proof.Machine.execDecEnd s
  | .cksum group chan brightness => Sys2Proof.Machine.execCksum group chan brightness s
  | .codecEncode rg rc rb rcmd rcol rck => Sys2Proof.Machine.execCodecEncode rg rc rb rcmd rcol rck s
  | .codecDecode operand => Sys2Proof.Machine.execCodecDecode operand s
  | .schSubmit command now => Sys2Proof.Machine.execSchSubmit command now s
  | .schTick now => Sys2Proof.Machine.execSchTick now s
  | .encEncode operand => Sys2Proof.Machine.execEncEncode operand s
  | .synEnqueue operand => Sys2Proof.Machine.execSynEnqueue operand s
  | .synFill n => Sys2Proof.Machine.execSynFill n s
  | .cfgWrite addr data => Sys2Proof.Machine.execCfgWrite addr data s
  | .cfgRead addr => Sys2Proof.Machine.execCfgRead addr s
  | .reservedD => Sys2Proof.Machine.execReservedD s
  | .reservedE => Sys2Proof.Machine.execReservedE s
  | .reset => Sys2Proof.Machine.execReset s

end Sys2Proof.Machine
end

