-- ==== Sys2Proof/Machine/Step.lean ====
section
/-! DEFINITION. One step of the machine: one operation (20_memory.md R68, 70_reset_and_hazards.md R304). -/

namespace Sys2Proof.Machine

/-- Take the request at the front of the stream and perform it. While no complete request is there the block waits, and a
step changes nothing (R292, entry 2). -/
def step (s : State) : Host.Outcome State Fault Refusal :=
  match fetch s with
  | some (i, t) => exec i t
  | none => .next s

/-- The state with the request whose bits are `w mod 2^nbits` at the front of the stream, so that the next step performs
it (entry 2). -/
def State.withFetchWord (s : State) (nbits w : Nat) : State := placeRequest (requestWords nbits w) s

end Sys2Proof.Machine
end

