-- ==== Sys2Proof/Safety.lean ====
section
/-! DEFINITION. What a safe state is, and the words the statements use. Nothing here is called by the machine: each
definition is written from its rule, apart from the operation that follows the same rule. -/

namespace Sys2Proof.Machine

/-! ## The invariant -/

/-- The decoder: at most BITBUF_CAP bits; empty while awaiting a hello (R118); an overflow only with a full buffer
(R26). -/
structure Decoder.Ok (d : Decoder) : Prop where
  len_le : d.buf.length ≤ 64
  awaiting : d.state = .awaitingHello → d.buf = [] ∧ d.ovf = false
  ovf_full : d.ovf = true → d.buf.length = 64

/-- The scheduler: a valid entry has a repeat left (R171) and stands at its command's key (R161, R162). -/
def Scheduler.Ok (c : Scheduler) : Prop :=
  ∀ k : Key, (slotAt c k).valid = true →
    (slotAt c k).repeats ≠ 0 ∧
    k.toNat = (slotAt c k).command.chan.toNat * 16 + (slotAt c k).command.group.toNat

/-- A queued train: its last pulse is the low trailing separator, and it has at most TRAIN_CAP + 1 pulses (R85, R204,
R304). -/
def QueuedTrain (t : PulseTrain) : Prop := t.length ≤ 130 ∧ ∃ body trail, t = body ++ [⟨false, trail⟩]

/-- The synthesizer: every queued train is one, and the active message is what is left of one (R204, R207). -/
structure Synth.Ok (y : Synth) : Prop where
  queued : ∀ t ∈ y.queue, QueuedTrain t
  active_le : y.active.length ≤ 130

/-- The configuration: the registers with a reset value stay written, and a written SYN_RATE_DEN or SCH_REPEAT_COUNT is
not 0 (R232, R291). -/
structure CfgFile.Ok (c : CfgFile) : Prop where
  reset_set : ∀ r ∈ [RegName.decCtrl, .encHelloTime, .encBitLowTime, .encBitHighTime, .encBitSepTime, .synQueueCap,
    .synCtrl], c.isSet r = true
  den_ne : c.synRateDen.written = true → c.synRateDen.value ≠ 0
  repeat_ne : c.schRepeatCount.written = true → c.schRepeatCount.value ≠ 0

/-- The states the block can be in: each part is, and a bounded queue has a depth of at least 1 (R8) that its length does
not exceed (R205). -/
structure State.Inv (s : State) : Prop where
  dec : s.dec.Ok
  sch : s.sch.Ok
  syn : s.syn.Ok
  cfg : s.cfg.Ok
  depth : ∀ d, s.queueDepth = some d → 1 ≤ d ∧ s.syn.queue.length ≤ d

/-! ## Configuration premises -/

/-- Every writable register whose address lies in lo..hi has been written or has a reset value (R231). -/
def SetBetween (c : CfgFile) (lo hi : Nat) : Prop :=
  ∀ r : RegName, lo ≤ r.addr.toNat → r.addr.toNat ≤ hi → c.isSet r = true

/-- The scheduler's list: 0x30 to 0x34 and 0x20 (R160, R231). -/
def SchedulerSet (c : CfgFile) : Prop := SetBetween c 0x30 0x34 ∧ SetBetween c 0x20 0x20

/-- The registers an operation's check names, by address (the lists of R231). A malformed SYN_ENQUEUE makes no such
check (R265). -/
def needsReg (i : Instr) (r : RegName) : Prop :=
  match i with
  | .decPulse _ _ => r.addr.toNat ≤ 0x06
  | .schSubmit _ _ => r.addr.toNat = 0x20 ∨ (0x30 ≤ r.addr.toNat ∧ r.addr.toNat ≤ 0x34)
  | .schTick _ => r.addr.toNat = 0x20 ∨ (0x30 ≤ r.addr.toNat ∧ r.addr.toNat ≤ 0x34)
  | .synEnqueue (.train _) => r.addr.toNat = 0x20
  | .synFill _ => 0x21 ≤ r.addr.toNat ∧ r.addr.toNat ≤ 0x25
  | .synEnqueue (.tooLong _) => False
  | .nop | .decEnd | .cksum _ _ _ | .codecEncode _ _ _ _ _ _ | .codecDecode _ | .encEncode _ | .cfgWrite _ _
  | .cfgRead _ | .reservedD | .reservedE | .reset => False

/-- The unused configuration addresses (R43). -/
def UnusedAddr (a : Nat) : Prop :=
  (0x08 ≤ a ∧ a ≤ 0x0F) ∨ (0x14 ≤ a ∧ a ≤ 0x1F) ∨ (0x28 ≤ a ∧ a ≤ 0x2F) ∨ (0x35 ≤ a ∧ a ≤ 0x3F) ∨
    (0x46 ≤ a ∧ a ≤ 0xFF)

/-! ## Requests -/

/-- The two words of a header. -/
def headerWords (w : Header) : List Word := [w.extractLsb' 0 64, w.extractLsb' 64 64]

/-- The named fields of a header, each as its lowest bit and its width, by op code; for format BS also by len (R88 to
R98). Positions i >= len of a BS sequence are ignored, as reserved bits are (R92). -/
def namedFields (op len : Nat) : List (Nat × Nat) :=
  (0, 4) ::
    match op with
    | 0x1 => [(8, 1), (32, 32)]
    | 0x3 => [(32, 4), (36, 4), (40, 8)]
    | 0x4 => [(32, 8), (40, 8), (48, 8), (56, 8), (64, 8), (72, 8)]
    | 0x5 | 0x8 => (8, 7) :: (if len ≤ 64 then [(64, len)] else [])
    | 0x6 => [(32, 32), (64, 64)]
    | 0x7 => [(64, 64)]
    | 0x9 => [(8, 8)]
    | 0xA => [(32, 32)]
    | 0xB => [(8, 8), (64, 64)]
    | 0xC => [(8, 8)]
    | _ => []

/-- Two headers that differ at most in bits which the first one's format does not name (R101). -/
def SameNamedBits (w w' : Header) : Prop :=
  ∀ f ∈ namedFields (w.toNat % 16) (w.toNat / 2 ^ 8 % 2 ^ 7), ∀ i < f.2, w.getLsbD (f.1 + i) = w'.getLsbD (f.1 + i)

/-- Two pulse words that differ at most in their reserved bits PW[63:33] (R95, R101). -/
def SamePulseBits (p p' : Word) : Prop := ∀ i < 33, p.getLsbD i = p'.getLsbD i

/-- Perform instructions one after another. -/
def execAll : List Instr → State → Host.Outcome State Fault Refusal
  | [], s => .next s
  | i :: is, s =>
    match exec i s with
    | .next t => execAll is t
    | .fault r => .fault r
    | .refused r => .refused r

/-! ## Events the rules prescribe -/

/-- The data word D of a Command as a number (R81). -/
def dataNumber (c : Command) : Nat :=
  c.group.toNat * 2 ^ 28 + c.chan.toNat * 2 ^ 24 + c.brightness.toNat * 2 ^ 16 + c.cmd.toNat * 2 ^ 14 +
    c.color.toNat * 2 ^ 8 + c.cksum.toNat

/-- The 32 data bits of a sequence as a number, position 0 the most significant: the sum of R142. -/
def frameValue (q : BitSeq) : Nat := ((List.range 32).map fun i => (q.getD i false).toNat * 2 ^ (31 - i)).sum

/-- What the receive path emits for a delivered sequence (R236). -/
def rxEvents (q : BitSeq) : List Event :=
  if q.length = 0 then []
  else if q.length ≠ 33 then [.diag .codecLength (BitVec.ofNat 64 q.length)]
  else if q.getD 32 false = true then [.diag .codecTrailing 0]
  else [.rxCmd (BitVec.ofNat 64 (frameValue q))]

/-- What a delivered flush emits: DEC_BUF_OVERFLOW if bits were lost, EvRxSeq, and the receive path's event (R112). -/
def flushEvents (d : Decoder) : List Event :=
  (if d.ovf = true then [.diag .decBufOverflow (BitVec.ofNat 64 d.buf.length)] else []) ++ [.rxSeq d.buf] ++
    rxEvents d.buf

/-- The decoder after one decoded bit (R117). -/
def withBit (b : Bool) (d : Decoder) : Decoder :=
  if d.buf.length < 64 then { d with buf := d.buf ++ [b] } else { d with ovf := true }

/-- EvTxCmd. -/
def isTx : Event → Bool
  | .txCmd _ => true
  | .diag _ _ | .result _ | .rxSeq _ | .rxCmd _ | .gain _ | .samples _ => false

/-- EvTxCmd of a Command whose key is `k`: chan is D[27:24], group is D[31:28] (R99, R161). -/
def isTxOf (k : Key) : Event → Bool
  | .txCmd d => decide (d.toNat / 2 ^ 24 % 2 ^ 4 * 16 + d.toNat / 2 ^ 28 % 2 ^ 4 = k.toNat)
  | .diag _ _ | .result _ | .rxSeq _ | .rxCmd _ | .gain _ | .samples _ => false

/-- EvGain. -/
def isGain : Event → Bool
  | .gain _ => true
  | .diag _ _ | .result _ | .rxSeq _ | .rxCmd _ | .txCmd _ | .samples _ => false

/-- An EvDiag of a given code. -/
def isDiag (code : DiagCode) : Event → Bool
  | .diag c _ => decide (c = code)
  | .result _ | .rxSeq _ | .rxCmd _ | .txCmd _ | .gain _ | .samples _ => false

/-- The request and configuration codes, which are only ever raised (R261). -/
def isRaiseCode (code : DiagCode) : Bool :=
  match code with
  | .illegalOp | .reqMalformed | .cfgUnset | .cfgBadAddr | .cfgReadonly | .cfgInvalid => true
  | .decShortSep | .decShortLow | .decLongHigh | .decBufOverflow | .codecLength | .codecTrailing | .codecOverflow
  | .schNothingEligible | .synQueueFull | .synPreempt => false

/-! ## Who may emit and write what -/

/-- The op codes (R87) of the operations that may emit an event: the table of R22, and for the diagnostics the table of
R261. CODEC_OVERFLOW never occurs. -/
def emitters : Event → List (BitVec 4)
  | .rxSeq _ | .rxCmd _ => [0x1, 0x2]
  | .result _ => [0x3, 0x4, 0x5, 0x8, 0xC]
  | .txCmd _ | .gain _ => [0x6, 0x7]
  | .samples _ => [0xA]
  | .diag code _ =>
    match code with
    | .decShortSep | .decShortLow | .decLongHigh => [0x1]
    | .decBufOverflow => [0x1, 0x2]
    | .codecLength | .codecTrailing => [0x1, 0x2, 0x5]
    | .codecOverflow => []
    | .schNothingEligible => [0x6, 0x7]
    | .synQueueFull => [0x6, 0x7, 0x9]
    | .synPreempt => [0xA]
    | .illegalOp => [0xD, 0xE]
    | .reqMalformed => [0x5, 0x8, 0x9]
    | .cfgUnset => [0x1, 0x6, 0x7, 0x9, 0xA, 0xC]
    | .cfgBadAddr => [0xB, 0xC]
    | .cfgReadonly | .cfgInvalid => [0xB]

/-- The operations that write the decoder's registers (R24 to R26, R235). -/
def writesDec : Instr → Bool
  | .decPulse _ _ | .decEnd | .reset => true
  | .nop | .cksum _ _ _ | .codecEncode _ _ _ _ _ _ | .codecDecode _ | .schSubmit _ _ | .schTick _ | .encEncode _
  | .synEnqueue _ | .synFill _ | .cfgWrite _ _ | .cfgRead _ | .reservedD | .reservedE => false

/-- The operations that write the scheduler table or the GainState (R27, R28, R61, R235). -/
def writesSch : Instr → Bool
  | .schSubmit _ _ | .schTick _ | .reset => true
  | .nop | .decPulse _ _ | .decEnd | .cksum _ _ _ | .codecEncode _ _ _ _ _ _ | .codecDecode _ | .encEncode _
  | .synEnqueue _ | .synFill _ | .cfgWrite _ _ | .cfgRead _ | .reservedD | .reservedE => false

/-- The operations that write the synthesizer's registers (R29, R62, R235). -/
def writesSyn : Instr → Bool
  | .synEnqueue _ | .synFill _ | .schSubmit _ _ | .schTick _ | .reset => true
  | .nop | .decPulse _ _ | .decEnd | .cksum _ _ _ | .codecEncode _ _ _ _ _ _ | .codecDecode _ | .encEncode _
  | .cfgWrite _ _ | .cfgRead _ | .reservedD | .reservedE => false

/-- The operations that write a configuration register (R30, R60, R235). -/
def writesCfg : Instr → Bool
  | .cfgWrite _ _ | .reset => true
  | .nop | .decPulse _ _ | .decEnd | .cksum _ _ _ | .codecEncode _ _ _ _ _ _ | .codecDecode _ | .schSubmit _ _
  | .schTick _ | .encEncode _ | .synEnqueue _ | .synFill _ | .cfgRead _ | .reservedD | .reservedE => false

/-! ## The synthesizer's queue -/

/-- The queue has room: it is below SYN_QUEUE_CAP if that is not 0, and below QUEUE_DEPTH if that is bounded (R205). -/
def HasRoom (s : State) : Prop :=
  (s.cfg.synQueueCap.value.toNat ≠ 0 → s.syn.queue.length < s.cfg.synQueueCap.value.toNat) ∧
    ∀ d, s.queueDepth = some d → s.syn.queue.length < d

/-- `cap` is the effective capacity: the smaller of SYN_QUEUE_CAP, if that is not 0, and QUEUE_DEPTH, if that is bounded
(R205). -/
def CapIs (s : State) (cap : Nat) : Prop :=
  (s.cfg.synQueueCap.value.toNat ≠ 0 → cap ≤ s.cfg.synQueueCap.value.toNat) ∧
    (∀ d, s.queueDepth = some d → cap ≤ d) ∧
    ((s.cfg.synQueueCap.value.toNat ≠ 0 ∧ cap = s.cfg.synQueueCap.value.toNat) ∨ s.queueDepth = some cap)

/-- The samples of one pulse: its count of its amplitude (R202, R203). -/
def pulseSamples (c : CfgFile) (p : Pulse) : List Sample :=
  List.replicate (rhe (p.dur.toNat * c.synRateNum.value.toNat) c.synRateDen.value.toNat)
    (if p.level = true then c.synAmpHigh.value else c.synAmpLow.value)

/-- The samples still to play when every train is played in full and in order: the rest of the segment, the active
message, the queue (R208). -/
def pendingSamples (c : CfgFile) (y : Synth) : List Sample :=
  List.replicate y.rem.toNat y.amp ++ (y.active ++ y.queue.flatten).flatMap (pulseSamples c)

/-- The train the transmit path makes of a Command, with its trailing separator (R204, R237). -/
def txTrain (c : CfgFile) (cmd : Command) : PulseTrain := pulsesOf c (frameSeq cmd) ++ [⟨false, c.synTrailTime.value⟩]

/-! ## The scheduler -/

/-- How many slots are valid (R27). -/
def validCount (c : Scheduler) : Nat := (List.range 256).countP fun k => (slotAt c (BitVec.ofNat 8 k)).valid

/-- Entry k is eligible at `now` (R167). -/
def Eligible (s : State) (now : Time) (k : Key) : Prop :=
  (slotAt s.sch k).valid = true ∧
    (now.toNat : Int) - ((slotAt s.sch k).lastSent.toNat : Int) ≥ (s.cfg.schTbr.value.toNat : Int)

/-- The gain a pass drives: inactive when the table is empty, active otherwise (R164). -/
def passTarget (s : State) : Gain :=
  if validCount s.sch = 0 then s.cfg.schGainInactive.value else s.cfg.schGainActive.value

/-- The gain changes in a pass at `now` (R165, R166). -/
abbrev GainChanges (s : State) (now : Time) : Prop :=
  s.sch.gainCur ≠ some (passTarget s) ∧
    (now.toNat : Int) - (s.sch.gainLastSend.toNat : Int) ≥ (s.cfg.schCutoff.value.toNat : Int)

/-- `S.gain_cur` after the gain step of a pass. -/
def gainAfter (s : State) (now : Time) : Option Gain := if GainChanges s now then some (passTarget s) else s.sch.gainCur

/-- What the gain step of a pass emits. -/
def gainEvents (s : State) (now : Time) : List Event :=
  if GainChanges s now then [.gain (BitVec.ofNat 64 (passTarget s).toNat)] else []

/-- Entry k is the one a pass at `now` sends: eligible, none eligible older, and of those as old the lowest key (R169,
TIE_BREAK = LOWEST_KEY). -/
def Selected (s : State) (now : Time) (k : Key) : Prop :=
  Eligible s now k ∧ ∀ j, Eligible s now j →
    (slotAt s.sch k).lastSent.toNat < (slotAt s.sch j).lastSent.toNat ∨
      ((slotAt s.sch k).lastSent = (slotAt s.sch j).lastSent ∧ k.toNat ≤ j.toNat)

/-- The table after entry k was sent at `now`: its count is one lower, and it is removed at 0; no other slot changes
(R171). `c` is the scheduler before, `c'` after. -/
def SentAt (c c' : Scheduler) (k : Key) (now : Time) : Prop :=
  (∀ j, j ≠ k → slotAt c' j = slotAt c j) ∧
    (if (slotAt c k).repeats.toNat = 1 then (slotAt c' k).valid = false
     else (slotAt c' k).valid = true ∧ (slotAt c' k).lastSent = now ∧
       (slotAt c' k).repeats.toNat + 1 = (slotAt c k).repeats.toNat ∧ (slotAt c' k).command = (slotAt c k).command)

/-- Times each at least SCH_TBR after the one before, the first after `last` (R174). -/
def Spaced (tbr : Nat) : Nat → List Time → Prop
  | _, [] => True
  | last, now :: ts => last + tbr ≤ now.toNat ∧ Spaced tbr now.toNat ts

/-- The scheduler that the pass of a SCH_SUBMIT of `c` works on: the entry of its key is fresh, every other slot and the
GainState are as in `s` (R162, R163). -/
def Upserted (s : State) (c : Command) (sch : Scheduler) : Prop :=
  let k : Key := BitVec.ofNat 8 (c.chan.toNat * 16 + c.group.toNat)
  slotAt sch k = ⟨true, 0, s.cfg.schRepeatCount.value, c⟩ ∧ (∀ j, j ≠ k → slotAt sch j = slotAt s.sch j) ∧
    sch.gainCur = s.sch.gainCur ∧ sch.gainLastSend = s.sch.gainLastSend

/-- Operation `i` at `s` makes a pass, and the pass selects entry `k` (R164, R169): so the entry is valid and was last
sent at least SCH_TBR before. -/
def PassSelects (i : Instr) (s : State) (k : Key) : Prop :=
  match i with
  | .schTick now => SchedulerSet s.cfg ∧ Selected s now k
  | .schSubmit c now => SchedulerSet s.cfg ∧ ∃ sch, Upserted s c sch ∧ Selected (s.withSch sch) now k
  | .nop | .decPulse _ _ | .decEnd | .cksum _ _ _ | .codecEncode _ _ _ _ _ _ | .codecDecode _ | .encEncode _
  | .synEnqueue _ | .synFill _ | .cfgWrite _ _ | .cfgRead _ | .reservedD | .reservedE | .reset => False

/-- `n` of the operations of a run make a pass that selects entry `k`. -/
def SelectionsAre (k : Key) : List Instr → State → Nat → Prop
  | [], _, n => n = 0
  | i :: is, s, n => ∃ (t : State) (m : Nat), exec i s = .next t ∧ SelectionsAre k is t m ∧
      ((PassSelects i s k ∧ n = m + 1) ∨ (¬PassSelects i s k ∧ n = m))

/-! ## Reset -/

/-- The reset values that R291 gives. The values it calls unspecified, and those of UNSET registers, are not
mentioned. -/
structure AtReset (t : State) : Prop where
  dec : t.dec.state = .awaitingHello ∧ t.dec.buf = [] ∧ t.dec.ovf = false
  slots : ∀ k, (slotAt t.sch k).valid = false
  gain : t.sch.gainCur = none ∧ t.sch.gainLastSend = 0
  syn : t.syn.queue = [] ∧ t.syn.active = [] ∧ t.syn.rem = 0
  flags : ∀ r, t.cfg.isSet r = true ↔
    r.addr.toNat = 0x07 ∨ (0x10 ≤ r.addr.toNat ∧ r.addr.toNat ≤ 0x13) ∨ r.addr.toNat = 0x26 ∨ r.addr.toNat = 0x27
  values : t.cfg.decCtrl.value = 0 ∧ t.cfg.encHelloTime.value = 1300 ∧ t.cfg.encBitLowTime.value = 600 ∧
    t.cfg.encBitHighTime.value = 1300 ∧ t.cfg.encBitSepTime.value = 700 ∧ t.cfg.synQueueCap.value = 0 ∧
    t.cfg.synCtrl.value = 0

end Sys2Proof.Machine
end

