-- ==== Sys2Proof/Certificates/Slice0/Obligations.lean ====
section
/-! DEFINITION. The statements for the provers. Each docstring names the rules of spec/ it rests on; the words used
beside the machine's own are in Sys2Proof/Safety.lean.

An equation `exec i s = .next (s.withEvents ...)` says the whole frame: every part of the state it does not mention is
as before. -/

open Sys2Proof Sys2Proof.Machine

/-! ## Requests: 30_encoding.md -/

/-- Decoding what the encoder wrote gives the instruction back, with every operand at every value, and the rest of the
stream (R87 to R98). -/
def Obligations.DecodeOfEncodeIsIdentity : Prop :=
  ∀ (i : Instr) (rest : List Word), i.wellFormed = true → decode (encode i ++ rest) = .ok (i, rest)

/-- What the decoder answers is an instruction with its operands in range: a sequence of at most 64 bits, a train of at
most 129 pulses, or a malformed operand above those bounds (R92, R95, R102). -/
def Obligations.DecodedInstructionIsWellFormed : Prop :=
  ∀ (ws : List Word) (i : Instr) (rest : List Word), decode ws = .ok (i, rest) → i.wellFormed = true

/-- A request takes its header and, for op code 0x9 alone, `count` pulse words (R86). -/
def Obligations.RequestLengthFollowsFromHeader : Prop :=
  ∀ (w : Header) (rest : List Word),
    let n := if w.toNat % 16 = 0x9 then w.toNat / 2 ^ 8 % 2 ^ 8 else 0
    n ≤ rest.length → ∃ i, decode (headerWords w ++ rest) = .ok (i, rest.drop n)

/-- Two requests that differ only in reserved bits behave identically (R101). -/
def Obligations.ReservedBitsAreIgnored : Prop :=
  ∀ (s : State) (w w' : Header) (pws pws' rest : List Word),
    SameNamedBits w w' → List.Forall₂ SamePulseBits pws pws' → pws.length = pulseCount w →
    step (s.withRequests (headerWords w ++ pws ++ rest)) = step (s.withRequests (headerWords w' ++ pws' ++ rest))

/-- Words written out in 95_test_vectors.md section 3.8 decode to the operations they stand for, at least
one for each format with operands. -/
def Obligations.SpecWordsDecodeToTheirOperations : Prop :=
  decodeTableWord 128 0x00000000000000000000051400000101 = some (.decPulse true 1300) ∧
  decodeTableWord 128 0x00000000000000000000322100000003 = some (.cksum 1 2 50) ∧
  decodeTableWord 128 0x000000000000ba280264050300000004 = some (.codecEncode 3 5 100 2 40 186) ∧
  decodeTableWord 128 0x00000000000f42403564a8ba00000006 = some (.schSubmit ⟨3, 5, 100, 2, 40, 186⟩ 1000000) ∧
  decodeTableWord 128 0x00000000000000010000000000000208 = some (.encEncode (.seq [true, false])) ∧
  decodeTableWord 192 0x00000001000003e800000000000000000000000000000109 = some (.synEnqueue (.train [⟨true, 1000⟩])) ∧
  decodeTableWord 128 0x0000000000000007000000000000250b = some (.cfgWrite 0x25 7) ∧
  decodeTableWord 128 0x0000000008004c480000000000002105 =
    some (.codecDecode (.seq ((List.range 33).map fun i => decide (i ∈ [3, 6, 10, 11, 14, 27])))) ∧
  decodeTableWord 128 0x000000000010c8e00000000000000007 = some (.schTick 1100000) ∧
  decodeTableWord 128 0x0000000000000000000007d00000000a = some (.synFill 2000) ∧
  decodeTableWord 128 0x0000000000000000000000000000400c = some (.cfgRead 0x40)

/-- Every operand of every request format stands at the bits its rule gives, for every header and every pulse word: N
(R88), P (R89), CK (R90), RC (R91), BS (R92), CT (R93), T (R94), TR (R95), FL (R96), CW (R97) and CR (R98), and the
reserved op codes. The fields of the data word D = W[63:32] are those of R99. -/
def Obligations.RequestFieldsStandAtTheirBits : Prop :=
  ∀ (w : Header) (rest : List Word),
    let op := w.toNat % 16
    let field (width lo : Nat) : BitVec width := BitVec.ofNat width (w.toNat / 2 ^ lo)
    let reads (i : Instr) : Prop := decode (headerWords w ++ rest) = .ok (i, rest)
    let len := w.toNat / 2 ^ 8 % 2 ^ 7
    let count := w.toNat / 2 ^ 8 % 2 ^ 8
    let readsSeq (of : SeqOperand → Instr) : Prop :=
      if len ≤ 64 then reads (of (.seq ((List.range len).map fun i => w.getLsbD (64 + i))))
      else reads (of (.tooLong (field 7 8)))
    (op = 0x0 → reads .nop) ∧
    (op = 0x1 → reads (.decPulse (w.getLsbD 8) (field 32 32))) ∧
    (op = 0x2 → reads .decEnd) ∧
    (op = 0x3 → reads (.cksum (field 4 32) (field 4 36) (field 8 40))) ∧
    (op = 0x4 → reads (.codecEncode (field 8 32) (field 8 40) (field 8 48) (field 8 56) (field 8 64) (field 8 72))) ∧
    (op = 0x5 → readsSeq .codecDecode) ∧
    (op = 0x6 → reads (.schSubmit
      { group := field 4 60, chan := field 4 56, brightness := field 8 48, cmd := field 2 46, color := field 6 40,
        cksum := field 8 32 } (field 64 64))) ∧
    (op = 0x7 → reads (.schTick (field 64 64))) ∧
    (op = 0x8 → readsSeq .encEncode) ∧
    (∀ pws : List Word, op = 0x9 → pws.length = count →
      decode (headerWords w ++ pws ++ rest) = .ok (.synEnqueue
        (if count ≤ 129 then .train (pws.map fun p => ⟨p.getLsbD 32, BitVec.ofNat 32 p.toNat⟩)
         else .tooLong (field 8 8)), rest)) ∧
    (op = 0xA → reads (.synFill (field 32 32))) ∧
    (op = 0xB → reads (.cfgWrite (field 8 8) (field 64 64))) ∧
    (op = 0xC → reads (.cfgRead (field 8 8))) ∧
    (op = 0xD → reads .reservedD) ∧ (op = 0xE → reads .reservedE) ∧ (op = 0xF → reads .reset)

/-- A step performs the decoded instruction on the state with the request's words removed (R68, R86). -/
def Obligations.StepRunsTheDecodedInstruction : Prop :=
  ∀ (s : State) (i : Instr) (rest : List Word), decode s.requests = .ok (i, rest) →
    step s = exec i (s.withRequests rest)

/-- With no complete request in the stream a step changes nothing. The model's reading of "waits for its first
request" (entry 2). -/
def Obligations.StepWaitsForACompleteRequest : Prop :=
  ∀ s : State,
    (s.requests.length < 2 ∨
      ∃ w rest, s.requests = headerWords w ++ rest ∧ w.toNat % 16 = 0x9 ∧ rest.length < w.toNat / 2 ^ 8 % 2 ^ 8) →
    step s = .next s

/-! ## System operations: 46_system.md -/

/-- NOP changes nothing, whatever its reserved bits; only its request is consumed (R230). -/
def Obligations.NopChangesNothing : Prop :=
  (∀ s : State, exec .nop s = .next s) ∧
  ∀ (s : State) (w : Header) (rest : List Word), w.toNat % 16 = 0x0 →
    step (s.withRequests (headerWords w ++ rest)) = .next (s.withRequests rest)

/-- A request with op code 0xD or 0xE raises ILLEGAL_OP with its op code and changes nothing else; it is one header long
(R100). -/
def Obligations.ReservedOpcodesRaiseIllegalOp : Prop :=
  (∀ s : State, exec .reservedD s = .next (s.withEvents (s.events ++ [.diag .illegalOp 0xD]))) ∧
  (∀ s : State, exec .reservedE s = .next (s.withEvents (s.events ++ [.diag .illegalOp 0xE]))) ∧
  ∀ (s : State) (w : Header) (rest : List Word), w.toNat % 16 = 0xD ∨ w.toNat % 16 = 0xE →
    step (s.withRequests (headerWords w ++ rest)) =
      .next ((s.withRequests rest).withEvents (s.events ++ [.diag .illegalOp (BitVec.ofNat 64 (w.toNat % 16))]))

/-- A malformed request raises REQ_MALFORMED with its op code and the offending value and changes nothing else,
whatever is configured; a SYN_ENQUEUE still consumes its full length (R102). -/
def Obligations.MalformedRequestIsRaised : Prop :=
  (∀ (s : State) (w : Header) (rest : List Word),
    w.toNat % 16 = 0x5 ∨ w.toNat % 16 = 0x8 → 64 < w.toNat / 2 ^ 8 % 2 ^ 7 →
    step (s.withRequests (headerWords w ++ rest)) =
      .next ((s.withRequests rest).withEvents (s.events ++
        [.diag .reqMalformed (BitVec.ofNat 64 (w.toNat / 2 ^ 8 % 2 ^ 7 * 2 ^ 8 + w.toNat % 16))]))) ∧
  ∀ (s : State) (w : Header) (pws rest : List Word),
    w.toNat % 16 = 0x9 → 129 < w.toNat / 2 ^ 8 % 2 ^ 8 → pws.length = w.toNat / 2 ^ 8 % 2 ^ 8 →
    step (s.withRequests (headerWords w ++ pws ++ rest)) =
      .next ((s.withRequests rest).withEvents (s.events ++
        [.diag .reqMalformed (BitVec.ofNat 64 (w.toNat / 2 ^ 8 % 2 ^ 8 * 2 ^ 8 + 9))]))

/-- An operation that needs an UNSET register is refused with CFG_UNSET and the lowest such address, and with nothing
else; with every register it needs written, it emits no CFG_UNSET (R231). CFG_READ has a CFG_UNSET of its own (R234). -/
def Obligations.UnsetRegisterRefusesTheOperation : Prop :=
  (∀ (i : Instr) (s : State) (r : RegName), needsReg i r → s.cfg.isSet r = false →
    (∀ r', needsReg i r' → s.cfg.isSet r' = false → r.addr.toNat ≤ r'.addr.toNat) →
    exec i s = .next (s.withEvents (s.events ++ [.diag .cfgUnset (BitVec.ofNat 64 r.addr.toNat)]))) ∧
  ∀ (i : Instr) (s : State), (∀ r, needsReg i r → s.cfg.isSet r = true) → (∀ a, i ≠ .cfgRead a) →
    ∃ t, exec i s = .next t ∧ t.events.filter (isDiag .cfgUnset) = s.events.filter (isDiag .cfgUnset)

/-- CFG_WRITE: a status register is refused with CFG_READONLY, an unused address with CFG_BAD_ADDR, a 0 for
SYN_RATE_DEN or SCH_REPEAT_COUNT with CFG_INVALID, each with no other change. Otherwise the register takes the low bits
of its width and is marked written, and no other register changes (R232). -/
def Obligations.CfgWriteOutcome : Prop :=
  ∀ (s : State) (a : BitVec 8) (v : BitVec 64),
    (0x40 ≤ a.toNat ∧ a.toNat ≤ 0x45 → exec (.cfgWrite a v) s =
      .next (s.withEvents (s.events ++ [.diag .cfgReadonly (BitVec.ofNat 64 a.toNat)]))) ∧
    (UnusedAddr a.toNat → exec (.cfgWrite a v) s =
      .next (s.withEvents (s.events ++ [.diag .cfgBadAddr (BitVec.ofNat 64 a.toNat)]))) ∧
    ∀ r : RegName, r.addr = a →
      if (a.toNat = 0x22 ∧ v.toNat % 2 ^ 32 = 0) ∨ (a.toNat = 0x30 ∧ v.toNat % 2 ^ 16 = 0) then
        exec (.cfgWrite a v) s = .next (s.withEvents (s.events ++ [.diag .cfgInvalid (BitVec.ofNat 64 a.toNat)]))
      else
        ∃ c, exec (.cfgWrite a v) s = .next (s.withCfg c) ∧
          (c.get r).toNat = v.toNat % 2 ^ r.width ∧ c.isSet r = true ∧
          ∀ r', r' ≠ r → c.get r' = s.cfg.get r' ∧ c.isSet r' = s.cfg.isSet r'

/-- The addresses and widths of the writable registers, as R31 to R41 list them. -/
def Obligations.RegisterMapAsListed : Prop :=
  allRegs.map (fun r => (r.addr.toNat, r.width)) =
    [(0x00, 32), (0x01, 32), (0x02, 32), (0x03, 32), (0x04, 32), (0x05, 32), (0x06, 32), (0x07, 1),
     (0x10, 32), (0x11, 32), (0x12, 32), (0x13, 32),
     (0x20, 32), (0x21, 32), (0x22, 32), (0x23, 16), (0x24, 16), (0x25, 16), (0x26, 32), (0x27, 2),
     (0x30, 16), (0x31, 64), (0x32, 64), (0x33, 32), (0x34, 32)] ∧
  ∀ r, r ∈ allRegs

/-- Every address is a writable register's, a status register's, or unused; CFG_WRITE and CFG_READ of an unused one are
refused with CFG_BAD_ADDR and nothing else (R43). -/
def Obligations.UnusedAddressesAreRefused : Prop :=
  (∀ a : BitVec 8, UnusedAddr a.toNat ↔ (∀ r : RegName, r.addr ≠ a) ∧ ∀ st : StatusName, st.addr ≠ a) ∧
  ∀ (s : State) (a : BitVec 8) (v : BitVec 64), UnusedAddr a.toNat →
    exec (.cfgWrite a v) s = .next (s.withEvents (s.events ++ [.diag .cfgBadAddr (BitVec.ofNat 64 a.toNat)])) ∧
    exec (.cfgRead a) s = .next (s.withEvents (s.events ++ [.diag .cfgBadAddr (BitVec.ofNat 64 a.toNat)]))

/-- CFG_READ: an unused address is refused with CFG_BAD_ADDR; a writable register gives its value zero-extended once it is
written, and CFG_UNSET before; a status register gives its live value, whose fields StatusRegistersShowTheLiveState says.
No state changes, and the address is W[15:8] of the request (R234). -/
def Obligations.CfgReadOutcome : Prop :=
  (∀ (s : State) (a : BitVec 8), UnusedAddr a.toNat →
    exec (.cfgRead a) s = .next (s.withEvents (s.events ++ [.diag .cfgBadAddr (BitVec.ofNat 64 a.toNat)]))) ∧
  (∀ (s : State) (r : RegName), exec (.cfgRead r.addr) s =
    .next (s.withEvents (s.events ++
      [if s.cfg.isSet r = true then .result (.word (s.cfg.get r))
       else .diag .cfgUnset (BitVec.ofNat 64 r.addr.toNat)]))) ∧
  (∀ (s : State) (st : StatusName), exec (.cfgRead st.addr) s =
    .next (s.withEvents (s.events ++ [.result (.word (statusValue s st))]))) ∧
  ∀ (s : State) (w : Header) (rest : List Word), w.toNat % 16 = 0xC →
    step (s.withRequests (headerWords w ++ rest)) =
      exec (.cfgRead (BitVec.ofNat 8 (w.toNat / 2 ^ 8))) (s.withRequests rest)

/-- CFG_READ of a status register gives the live state in the fields of R42, and CFG_WRITE of one is refused with
CFG_READONLY. Where a count does not fit its field, the read still answers with some word (entry 11). -/
def Obligations.StatusRegistersShowTheLiveState : Prop :=
  (∀ s : State,
    let read (a : BitVec 8) (v : Nat) : Prop :=
      exec (.cfgRead a) s = .next (s.withEvents (s.events ++ [.result (.word (BitVec.ofNat 64 v))]))
    (s.dec.buf.length ≤ 64 → read 0x40
      ((if s.dec.state = .inMessage then 1 else 0) + s.dec.buf.length * 2 ^ 8 + s.dec.ovf.toNat * 2 ^ 16)) ∧
    (∃ v, read 0x41 v) ∧
    (s.syn.queue.length < 2 ^ 32 → s.syn.active.length < 2 ^ 32 →
      read 0x41 (s.syn.queue.length + s.syn.active.length * 2 ^ 32)) ∧
    read 0x42 s.syn.rem.toNat ∧
    read 0x43 (validCount s.sch + (if s.sch.gainCur = none then 0 else 2 ^ 16)) ∧
    read 0x44 (match s.sch.gainCur with | none => 0 | some g => g.toNat) ∧
    read 0x45 s.sch.gainLastSend.toNat) ∧
  ∀ (s : State) (a : BitVec 8) (v : BitVec 64), 0x40 ≤ a.toNat → a.toNat ≤ 0x45 →
    exec (.cfgWrite a v) s = .next (s.withEvents (s.events ++ [.diag .cfgReadonly (BitVec.ofNat 64 a.toNat)]))

/-- RESET gives every state element that R291 gives a reset value that value and emits no event; the events already in
the stream stay (R235). -/
def Obligations.ResetOperationRestoresTheResetState : Prop :=
  (∀ s : State, ∃ t, exec .reset s = .next t ∧ AtReset t ∧ t.events = s.events) ∧
  ∀ (s : State) (w : Header) (rest : List Word), w.toNat % 16 = 0xF →
    step (s.withRequests (headerWords w ++ rest)) = exec .reset (s.withRequests rest)

/-- The state after power-on has the reset values of R291. -/
def Obligations.PowerOnStateIsTheResetState : Prop := AtReset State.reset

/-! ## The checksum: 41_checksum.md -/

/-- CKSUM emits the XOR, from 0, of the mask of every set bit of group, chan and brightness bits 0 to 6, and changes
nothing; its operands are W[35:32], W[39:36] and W[47:40] of the request (R90, R130, R131, R132). -/
def Obligations.CksumIsTheXorOfTheMasks : Prop :=
  (∀ (s : State) (w : Header) (rest : List Word), w.toNat % 16 = 0x3 →
    step (s.withRequests (headerWords w ++ rest)) =
      exec (.cksum (BitVec.ofNat 4 (w.toNat / 2 ^ 32)) (BitVec.ofNat 4 (w.toNat / 2 ^ 36))
        (BitVec.ofNat 8 (w.toNat / 2 ^ 40))) (s.withRequests rest)) ∧
  ∀ (s : State) (g c : BitVec 4) (b : BitVec 8),
    let on (x : Bool) (m : Nat) : Nat := if x then m else 0
    exec (.cksum g c b) s = .next (s.withEvents (s.events ++ [.result (.word (BitVec.ofNat 64
      (0 ^^^ on (g.getLsbD 0) 110 ^^^ on (g.getLsbD 1) 220 ^^^ on (g.getLsbD 2) 137 ^^^ on (g.getLsbD 3) 35 ^^^
        on (c.getLsbD 0) 244 ^^^ on (c.getLsbD 1) 217 ^^^ on (c.getLsbD 2) 131 ^^^ on (c.getLsbD 3) 55 ^^^
        on (b.getLsbD 0) 49 ^^^ on (b.getLsbD 1) 98 ^^^ on (b.getLsbD 2) 196 ^^^ on (b.getLsbD 3) 185 ^^^
        on (b.getLsbD 4) 67 ^^^ on (b.getLsbD 5) 134 ^^^ on (b.getLsbD 6) 61)))]))

/-- The checksum is linear over XOR, and flipping one contributing bit flips its mask's bits and so changes the checksum.
The spec's own inference (R134: "The checksum is linear over XOR"). -/
def Obligations.CksumIsLinear : Prop :=
  (∀ (g g' c c' : BitVec 4) (b b' : BitVec 8),
    cksumOf (g ^^^ g') (c ^^^ c') (b ^^^ b') = cksumOf g c b ^^^ cksumOf g' c' b') ∧
  ∀ (g c : BitVec 4) (b : BitVec 8),
    (∀ i < 4, cksumOf (g ^^^ BitVec.twoPow 4 i) c b = cksumOf g c b ^^^ groupMasks.getD i 0 ∧
      cksumOf (g ^^^ BitVec.twoPow 4 i) c b ≠ cksumOf g c b) ∧
    (∀ i < 4, cksumOf g (c ^^^ BitVec.twoPow 4 i) b = cksumOf g c b ^^^ chanMasks.getD i 0 ∧
      cksumOf g (c ^^^ BitVec.twoPow 4 i) b ≠ cksumOf g c b) ∧
    ∀ i < 7, cksumOf g c (b ^^^ BitVec.twoPow 8 i) = cksumOf g c b ^^^ brightnessMasks.getD i 0 ∧
      cksumOf g c (b ^^^ BitVec.twoPow 8 i) ≠ cksumOf g c b

/-- Brightness bit 7 has no mask: the checksum depends on brightness bits 6 to 0 only (R133). -/
def Obligations.BrightnessTopBitHasNoMask : Prop :=
  ∀ (s : State) (g c : BitVec 4) (b : BitVec 8),
    exec (.cksum g c b) s = exec (.cksum g c (BitVec.ofNat 8 (b.toNat % 2 ^ 7))) s

/-! ## The frame codec: 42_frame_codec.md -/

/-- CODEC_ENCODE emits 33 bits, position i being bit 32 - i of F = (D, 0), with every raw field masked to its frame width;
it changes nothing and never fails. Its six raw fields are the bytes of the request from bit 32 up (R91, R140, R141). -/
def Obligations.CodecEncodePacksTheMaskedFields : Prop :=
  (∀ (s : State) (w : Header) (rest : List Word), w.toNat % 16 = 0x4 →
    let byte (lo : Nat) : BitVec 8 := BitVec.ofNat 8 (w.toNat / 2 ^ lo)
    step (s.withRequests (headerWords w ++ rest)) =
      exec (.codecEncode (byte 32) (byte 40) (byte 48) (byte 56) (byte 64) (byte 72)) (s.withRequests rest)) ∧
  ∀ (s : State) (rg rc rb rcmd rcol rck : BitVec 8), ∃ q : BitSeq,
    exec (.codecEncode rg rc rb rcmd rcol rck) s = .next (s.withEvents (s.events ++ [.result (.seq q)])) ∧
    q.length = 33 ∧
    ∀ i < 33, q.getD i false =
      (2 * (rg.toNat % 16 * 2 ^ 28 + rc.toNat % 16 * 2 ^ 24 + rb.toNat * 2 ^ 16 + rcmd.toNat % 4 * 2 ^ 14 +
        rcol.toNat % 64 * 2 ^ 8 + rck.toNat)).testBit (32 - i)

/-- CODEC_DECODE of a sequence: CODEC_LENGTH with its length unless it has 33 bits, then CODEC_TRAILING if position 32 is
1, and otherwise its 32 data bits, whatever the checksum; nothing else changes (R142, R143, R144, R146). -/
def Obligations.CodecDecodeOutcome : Prop :=
  ∀ (s : State) (q : BitSeq),
    exec (.codecDecode (.seq q)) s = .next (s.withEvents (s.events ++
      [if q.length ≠ 33 then .diag .codecLength (BitVec.ofNat 64 q.length)
       else if q.getD 32 false = true then .diag .codecTrailing 0
       else .result (.word (BitVec.ofNat 64 (frameValue q)))]))

/-- Decoding what CODEC_ENCODE emits gives back the fields, truncated to their frame widths. The spec's own inference (R149:
"This holds for every cksum value, matching or not."). -/
def Obligations.CodecRoundTrip : Prop :=
  ∀ (s t : State) (rg rc rb rcmd rcol rck : BitVec 8) (q : BitSeq),
    exec (.codecEncode rg rc rb rcmd rcol rck) s = .next (s.withEvents (s.events ++ [.result (.seq q)])) →
    exec (.codecDecode (.seq q)) t = .next (t.withEvents (t.events ++
      [.result (.word (BitVec.ofNat 64 (dataNumber
        ⟨BitVec.ofNat 4 rg.toNat, BitVec.ofNat 4 rc.toNat, rb, BitVec.ofNat 2 rcmd.toNat, BitVec.ofNat 6 rcol.toNat,
          rck⟩)))]))

/-- No operation emits CODEC_OVERFLOW. The spec's own inference (R145: "The overflow check can never fail."). -/
def Obligations.CodecOverflowIsNeverEmitted : Prop :=
  ∀ (i : Instr) (s t : State), exec i s = .next t →
    t.events.filter (isDiag .codecOverflow) = s.events.filter (isDiag .codecOverflow)

/-! ## The pulse decoder: 40_decoder.md -/

/-- DEC_PULSE while awaiting a hello: a high pulse in the hello window starts a message with an empty buffer; any other
pulse is ignored, with no event (R114). -/
def Obligations.PulseWhileAwaitingHello : Prop :=
  ∀ (s : State) (level : Bool) (d : Dur), SetBetween s.cfg 0x00 0x06 → s.dec.state = .awaitingHello →
    exec (.decPulse level d) s = .next
      (if level = true ∧ s.cfg.decHelloMin.value.toNat ≤ d.toNat ∧ d.toNat ≤ s.cfg.decHelloMax.value.toNat then
        s.withDec ⟨.inMessage, [], false⟩
       else s)

/-- DEC_PULSE of a high pulse in a message: too short closes it as valid, too long as partial (delivered only with
FORWARD_PARTIAL, and a resync when it is also in the hello window), otherwise it is a gap (R115). -/
def Obligations.HighPulseInAMessage : Prop :=
  ∀ (s : State) (d : Dur), SetBetween s.cfg 0x00 0x06 → s.dec.state = .inMessage →
    let n := s.dec.buf.length % 2 ^ 8
    let forward := s.cfg.decCtrl.value.toNat
    let resync := if s.cfg.decHelloMin.value.toNat ≤ d.toNat ∧ d.toNat ≤ s.cfg.decHelloMax.value.toNat then 1 else 0
    exec (.decPulse true d) s = .next
      (if d.toNat < s.cfg.decSepMin.value.toNat then
        (s.withDec ⟨.awaitingHello, [], false⟩).withEvents
          (s.events ++ [.diag .decShortSep (BitVec.ofNat 64 (n * 2 ^ 40 + d.toNat))] ++ flushEvents s.dec)
       else if s.cfg.decSepMax.value.toNat < d.toNat then
        (s.withDec ⟨if resync = 1 then .inMessage else .awaitingHello, [], false⟩).withEvents
          (s.events ++
            [.diag .decLongHigh (BitVec.ofNat 64 (n * 2 ^ 40 + forward * 2 ^ 33 + resync * 2 ^ 32 + d.toNat))] ++
            (if forward = 1 then flushEvents s.dec else []))
       else s)

/-- DEC_PULSE of a low pulse in a message: too short closes it as valid with a warning, the zero window appends 0, too
long closes it as valid with none, and the rest appends 1 (R116); a 65th bit only sets the overflow flag (R117). -/
def Obligations.LowPulseInAMessage : Prop :=
  ∀ (s : State) (d : Dur), SetBetween s.cfg 0x00 0x06 → s.dec.state = .inMessage →
    let n := s.dec.buf.length % 2 ^ 8
    exec (.decPulse false d) s = .next
      (if d.toNat < s.cfg.decLowMin.value.toNat then
        (s.withDec ⟨.awaitingHello, [], false⟩).withEvents
          (s.events ++ [.diag .decShortLow (BitVec.ofNat 64 (n * 2 ^ 40 + d.toNat))] ++ flushEvents s.dec)
       else if d.toNat < s.cfg.decLowMax.value.toNat then s.withDec (withBit false s.dec)
       else if s.cfg.decHighMax.value.toNat < d.toNat then
        (s.withDec ⟨.awaitingHello, [], false⟩).withEvents (s.events ++ flushEvents s.dec)
       else s.withDec (withBit true s.dec))

/-- DEC_END always delivers what the buffer holds, in either state and with nothing configured, and leaves
AWAITING_HELLO; when it is awaiting a hello already, it emits the empty sequence alone (R118). -/
def Obligations.DecEndFlushesTheBuffer : Prop :=
  (∀ s : State, exec .decEnd s =
    .next ((s.withDec ⟨.awaitingHello, [], false⟩).withEvents (s.events ++ flushEvents s.dec))) ∧
  (∀ (s : State) (w : Header) (rest : List Word), w.toNat % 16 = 0x2 →
    step (s.withRequests (headerWords w ++ rest)) = exec .decEnd (s.withRequests rest)) ∧
  ∀ s : State, s.dec.Ok → s.dec.state = .awaitingHello →
    exec .decEnd s = .next (s.withEvents (s.events ++ [.rxSeq []]))

/-- The events of a packet depend only on the pulses, the window registers and FORWARD_PARTIAL: two blocks that agree on
these, each awaiting a hello with an empty buffer, emit the same events for it, and both end awaiting a hello with an
empty buffer. The spec's own inference (R119: "Then the events of the packet depend only on the pulses, the window
registers and FORWARD_PARTIAL."). -/
def Obligations.PacketEventsDependOnlyOnPulsesAndWindows : Prop :=
  ∀ (s s' : State) (ps : PulseTrain), s.dec = ⟨.awaitingHello, [], false⟩ → s'.dec = ⟨.awaitingHello, [], false⟩ →
    (∀ r : RegName, r.addr.toNat ≤ 0x07 → s.cfg.get r = s'.cfg.get r ∧ s.cfg.isSet r = s'.cfg.isSet r) →
    ∃ es : List Event,
      execAll (ps.map (fun p => Instr.decPulse p.level p.dur) ++ [.decEnd]) s = .next (s.withEvents (s.events ++ es)) ∧
      execAll (ps.map (fun p => Instr.decPulse p.level p.dur) ++ [.decEnd]) s' = .next (s'.withEvents (s'.events ++ es))

/-- Loopback: with windows that bracket the encoder's timings, the train of a sequence of at most 64 bits, closed by the
trailing separator and delivered as one packet, yields that sequence and then the empty one. The spec's own inference
(R121: "it yields exactly two delivered sequences: s (at the trailing low) and `[]` (at DEC_END)"). -/
def Obligations.LoopbackDeliversTheSequence : Prop :=
  ∀ (s : State) (q : BitSeq), q.length ≤ 64 → s.dec.state = .awaitingHello → SetBetween s.cfg 0x00 0x06 →
    s.cfg.decHelloMin.value.toNat ≤ s.cfg.encHelloTime.value.toNat →
    s.cfg.encHelloTime.value.toNat ≤ s.cfg.decHelloMax.value.toNat →
    s.cfg.decLowMin.value.toNat ≤ s.cfg.encBitLowTime.value.toNat →
    s.cfg.encBitLowTime.value.toNat < s.cfg.decLowMax.value.toNat →
    s.cfg.decLowMax.value.toNat ≤ s.cfg.encBitHighTime.value.toNat →
    s.cfg.encBitHighTime.value.toNat ≤ s.cfg.decHighMax.value.toNat →
    s.cfg.decSepMin.value.toNat ≤ s.cfg.encBitSepTime.value.toNat →
    s.cfg.encBitSepTime.value.toNat ≤ s.cfg.decSepMax.value.toNat →
    s.cfg.decHighMax.value.toNat < s.cfg.synTrailTime.value.toNat →
    ∃ t : PulseTrain,
      exec (.encEncode (.seq q)) s = .next (s.withEvents (s.events ++ [.result (.train t)])) ∧
      t.length = 1 + 2 * q.length ∧
      execAll ((t ++ [Pulse.mk false s.cfg.synTrailTime.value]).map (fun p => Instr.decPulse p.level p.dur) ++ [.decEnd]) s =
        .next ((s.withDec ⟨.awaitingHello, [], false⟩).withEvents
          (s.events ++ [.rxSeq q] ++ rxEvents q ++ [.rxSeq []]))

/-! ## The pulse encoder: 44_pulse_encoder.md -/

/-- ENC_ENCODE emits 1 + 2n pulses: the hello, then for each bit a low pulse of the bit's time and a high separator; it
changes nothing and needs nothing configured (R84, R190). -/
def Obligations.EncEncodeTrainShape : Prop :=
  ∀ (s : State) (q : BitSeq), ∃ t : PulseTrain,
    exec (.encEncode (.seq q)) s = .next (s.withEvents (s.events ++ [.result (.train t)])) ∧
    t.length = 1 + 2 * q.length ∧ t[0]? = some ⟨true, s.cfg.encHelloTime.value⟩ ∧
    ∀ i < q.length,
      t[2 * i + 1]? = some ⟨false, if q.getD i false = true then s.cfg.encBitHighTime.value
        else s.cfg.encBitLowTime.value⟩ ∧
      t[2 * i + 2]? = some ⟨true, s.cfg.encBitSepTime.value⟩

/-- A 33-bit frame is 67 pulses, and its durations add up as R192 says; at the reset timings that is 44200 + 700k. The
spec's own inference (R192: "A 33-bit frame encodes to 67 pulses."). -/
def Obligations.FrameTrainDuration : Prop :=
  ∀ (s : State) (q : BitSeq), q.length = 33 → ∃ t : PulseTrain,
    exec (.encEncode (.seq q)) s = .next (s.withEvents (s.events ++ [.result (.train t)])) ∧ t.length = 67 ∧
    let k := q.count true
    let total := (t.map fun p => p.dur.toNat).sum
    k ≤ 33 ∧
    total = s.cfg.encHelloTime.value.toNat + 33 * s.cfg.encBitSepTime.value.toNat +
      k * s.cfg.encBitHighTime.value.toNat + (33 - k) * s.cfg.encBitLowTime.value.toNat ∧
    (s.cfg.encHelloTime.value = 1300 → s.cfg.encBitLowTime.value = 600 → s.cfg.encBitHighTime.value = 1300 →
      s.cfg.encBitSepTime.value = 700 → total = 44200 + 700 * k)

/-! ## The synthesizer: 45_synthesizer.md -/

/-- The rounding of sample counts is to the nearest integer, ties to the even one (R201). -/
def Obligations.RoundingIsNearestTiesToEven : Prop :=
  ∀ n d : Nat, 1 ≤ d →
    2 * ((n : Int) - (rhe n d : Int) * (d : Int)).natAbs ≤ d ∧
    (2 * ((n : Int) - (rhe n d : Int) * (d : Int)).natAbs = d → rhe n d % 2 = 0)

/-- SYN_ENQUEUE with SYN_TRAIL_TIME written. With room, the train goes to the back of the queue with the low trailing pulse
appended, and nothing else happens. At capacity, reject-new drops the new train with SYN_QUEUE_FULL and its length;
drop-oldest drops from the front until there is room, with SYN_QUEUE_FULL and their number, and queues the new train. The
active message is never touched (R205). A number of 2^32 or more does not fit the argument: there it is some value (entry
11). -/
def Obligations.SynEnqueueOutcome : Prop :=
  ∀ (s : State) (t : PulseTrain), SetBetween s.cfg 0x20 0x20 →
    let t2 : PulseTrain := t ++ [⟨false, s.cfg.synTrailTime.value⟩]
    (HasRoom s → exec (.synEnqueue (.train t)) s = .next (s.withSyn { s.syn with queue := s.syn.queue ++ [t2] })) ∧
    ∀ cap : Nat, CapIs s cap → 1 ≤ cap → cap ≤ s.syn.queue.length →
      let dropped := s.syn.queue.length + 1 - cap
      ∃ arg : BitVec 64,
        if s.cfg.synCtrl.value.toNat % 2 = 0 then
          exec (.synEnqueue (.train t)) s = .next (s.withEvents (s.events ++ [.diag .synQueueFull arg])) ∧
          (t2.length < 2 ^ 32 → arg = BitVec.ofNat 64 t2.length)
        else
          exec (.synEnqueue (.train t)) s = .next
            ((s.withSyn { s.syn with queue := s.syn.queue.drop dropped ++ [t2] }).withEvents
              (s.events ++ [.diag .synQueueFull arg])) ∧
          (dropped < 2 ^ 32 → arg = BitVec.ofNat 64 (2 ^ 63 + dropped))

/-- SYN_FILL of n with its registers written emits SYN_PREEMPT warnings, if any, and then exactly n samples, and writes
only the synthesizer (R206). -/
def Obligations.SynFillEmitsExactlyNSamples : Prop :=
  ∀ (s : State) (n : BitVec 32), SetBetween s.cfg 0x21 0x25 →
    ∃ (y : Synth) (pre : List Event) (w : List Sample),
      exec (.synFill n) s = .next ((s.withSyn y).withEvents (s.events ++ pre ++ [.samples w])) ∧
      w.length = n.toNat ∧ (∀ e ∈ pre, isDiag .synPreempt e = true) ∧ (n = 0 → y = s.syn ∧ pre = [])

/-- SYN_FILL with ORDER = 0, one clause for each case of R207: a segment in progress is written first; then a queued train
replaces the active message, with SYN_PREEMPT for the pulses it discards; then the next pulse begins a segment; then
idle samples fill the buffer. That S.syn_amp stands where R207's pseudocode last wrote it while S.syn_rem = 0 is the
model's choice (entry 8). -/
def Obligations.SynFillQueueFirstCases : Prop :=
  ∀ (s : State) (n : BitVec 32), SetBetween s.cfg 0x21 0x25 → n ≠ 0 → s.cfg.synCtrl.value.toNat / 2 % 2 = 0 →
    (s.syn.rem ≠ 0 →
      let k := min n.toNat s.syn.rem.toNat
      let s1 := s.withSyn { s.syn with rem := s.syn.rem - BitVec.ofNat 64 k }
      ∃ (y : Synth) (pre : List Event) (w : List Sample),
        exec (.synFill (n - BitVec.ofNat 32 k)) s1 = .next ((s1.withSyn y).withEvents (s.events ++ pre ++ [.samples w])) ∧
        exec (.synFill n) s = .next ((s.withSyn y).withEvents
          (s.events ++ pre ++ [.samples (List.replicate k s.syn.amp ++ w)]))) ∧
    (s.syn.rem = 0 → ∀ t q, s.syn.queue = t :: q →
      exec (.synFill n) s = exec (.synFill n) ((s.withSyn { s.syn with queue := q, active := t }).withEvents
        (s.events ++ if s.syn.active = [] then [] else [.diag .synPreempt (BitVec.ofNat 64 s.syn.active.length)]))) ∧
    (s.syn.rem = 0 → s.syn.queue = [] → ∀ p ps, s.syn.active = p :: ps →
      exec (.synFill n) s = exec (.synFill n) (s.withSyn
        ⟨[], ps, if p.level = true then s.cfg.synAmpHigh.value else s.cfg.synAmpLow.value,
          BitVec.ofNat 64 (rhe (p.dur.toNat * s.cfg.synRateNum.value.toNat) s.cfg.synRateDen.value.toNat)⟩)) ∧
    (s.syn.rem = 0 → s.syn.queue = [] → s.syn.active = [] →
      exec (.synFill n) s =
        .next (s.withEvents (s.events ++ [.samples (List.replicate n.toNat s.cfg.synAmpIdle.value)])))

/-- SYN_FILL with ORDER = 1: after a segment in progress comes the active message, and only when that is empty the queue
(R208). That S.syn_amp stands where the pseudocode last wrote it while S.syn_rem = 0 is the model's choice (entry 8). -/
def Obligations.SynFillActiveFirstCases : Prop :=
  ∀ (s : State) (n : BitVec 32), SetBetween s.cfg 0x21 0x25 → n ≠ 0 → s.cfg.synCtrl.value.toNat / 2 % 2 = 1 →
    (s.syn.rem ≠ 0 →
      let k := min n.toNat s.syn.rem.toNat
      let s1 := s.withSyn { s.syn with rem := s.syn.rem - BitVec.ofNat 64 k }
      ∃ (y : Synth) (pre : List Event) (w : List Sample),
        exec (.synFill (n - BitVec.ofNat 32 k)) s1 = .next ((s1.withSyn y).withEvents (s.events ++ pre ++ [.samples w])) ∧
        exec (.synFill n) s = .next ((s.withSyn y).withEvents
          (s.events ++ pre ++ [.samples (List.replicate k s.syn.amp ++ w)]))) ∧
    (s.syn.rem = 0 → ∀ p ps, s.syn.active = p :: ps →
      exec (.synFill n) s = exec (.synFill n) (s.withSyn
        ⟨s.syn.queue, ps, if p.level = true then s.cfg.synAmpHigh.value else s.cfg.synAmpLow.value,
          BitVec.ofNat 64 (rhe (p.dur.toNat * s.cfg.synRateNum.value.toNat) s.cfg.synRateDen.value.toNat)⟩)) ∧
    (s.syn.rem = 0 → s.syn.active = [] → ∀ t q, s.syn.queue = t :: q →
      exec (.synFill n) s = exec (.synFill n) (s.withSyn { s.syn with queue := q, active := t })) ∧
    (s.syn.rem = 0 → s.syn.queue = [] → s.syn.active = [] →
      exec (.synFill n) s =
        .next (s.withEvents (s.events ++ [.samples (List.replicate n.toNat s.cfg.synAmpIdle.value)])))

/-- Two consecutive SYN_FILLs give the samples, the warnings and the final registers of one SYN_FILL of the summed length.
The spec's own inference (R210: "The concatenation of the EvSamples payloads of consecutive SYN_FILL operations equals
the payload of one SYN_FILL of the summed length."). That the final S.syn_amp is the same even where S.syn_rem = 0 is the
model's choice (entry 8). -/
def Obligations.SynFillSplitsAcrossCalls : Prop :=
  ∀ (s : State) (m n : BitVec 32), SetBetween s.cfg 0x21 0x25 → m.toNat + n.toNat < 2 ^ 32 →
    ∃ (y1 y2 : Synth) (pre1 pre2 : List Event) (w1 w2 : List Sample),
      exec (.synFill m) s = .next ((s.withSyn y1).withEvents (s.events ++ pre1 ++ [.samples w1])) ∧
      exec (.synFill n) ((s.withSyn y1).withEvents (s.events ++ pre1 ++ [.samples w1])) =
        .next ((s.withSyn y2).withEvents (s.events ++ pre1 ++ [.samples w1] ++ pre2 ++ [.samples w2])) ∧
      exec (.synFill (m + n)) s =
        .next ((s.withSyn y2).withEvents (s.events ++ pre1 ++ pre2 ++ [.samples (w1 ++ w2)]))

/-- With the queue, the active message and the segment all empty, SYN_FILL emits n idle samples and changes no state.
The spec's own inference (R211: "Every SYN_FILL in that condition emits n copies of SYN_AMP_IDLE and changes no
state."). That this holds of S.syn_amp too, which is any value while S.syn_rem = 0, is the model's choice (entry 8). -/
def Obligations.IdleFillChangesNothing : Prop :=
  ∀ (s : State) (n : BitVec 32), SetBetween s.cfg 0x21 0x25 → s.syn.queue = [] → s.syn.active = [] → s.syn.rem = 0 →
    exec (.synFill n) s = .next (s.withEvents (s.events ++ [.samples (List.replicate n.toNat s.cfg.synAmpIdle.value)]))

/-- With ORDER = 1 SYN_FILL writes the first n samples of: the rest of the segment in progress, then every pulse of the
active message and of every queued train, in FIFO order and in full, then idle samples. It emits no SYN_PREEMPT, and
what it leaves is what a further SYN_FILL goes on with. The spec's own inference (R208: "Every queued train that is not
dropped by rule R205 is then played in full, in FIFO order"). -/
def Obligations.ActiveFirstPlaysEveryTrainInFull : Prop :=
  ∀ (s : State) (n : BitVec 32), SetBetween s.cfg 0x21 0x25 → s.cfg.synCtrl.value.toNat / 2 % 2 = 1 →
    ∃ y : Synth,
      exec (.synFill n) s = .next ((s.withSyn y).withEvents (s.events ++
        [.samples ((pendingSamples s.cfg s.syn ++ List.replicate n.toNat s.cfg.synAmpIdle.value).take n.toNat)])) ∧
      pendingSamples s.cfg y = (pendingSamples s.cfg s.syn).drop n.toNat

/-! ## The scheduler: 43_scheduler.md -/

/-- SCH_TICK with no eligible entry: the gain step (towards inactive when the table is empty, towards active otherwise),
then SCH_NOTHING_ELIGIBLE with the number of valid slots; no write to the table or to the last send time (R165, R168). -/
def Obligations.TickWithNothingEligible : Prop :=
  ∀ (s : State) (now : Time), SchedulerSet s.cfg → (∀ k, ¬Eligible s now k) →
    exec (.schTick now) s = .next ((s.withSch { s.sch with gainCur := gainAfter s now }).withEvents
      (s.events ++ gainEvents s now ++ [.diag .schNothingEligible (BitVec.ofNat 64 (validCount s.sch))]))

/-- SCH_TICK sends the eligible entry with the smallest last send time, the lowest key among equals: the gain step's event,
EvTxCmd, the push of its train, the last send time and the entry updated, and nothing else (R169 to R171). With room the
train is queued; on a full queue the send counts all the same, and reject-new drops the train of 68 pulses with
SYN_QUEUE_FULL, drop-oldest the oldest trains (R302). -/
def Obligations.TickSendsTheOldestEntry : Prop :=
  ∀ (s : State) (now : Time) (k : Key), SchedulerSet s.cfg → Selected s now k → (slotAt s.sch k).repeats ≠ 0 →
    let train := txTrain s.cfg (slotAt s.sch k).command
    ∃ (c : Scheduler) (q : List PulseTrain) (full : List Event),
      exec (.schTick now) s = .next (((s.withSch c).withSyn { s.syn with queue := q }).withEvents
        (s.events ++ gainEvents s now ++ [.txCmd (BitVec.ofNat 64 (dataNumber (slotAt s.sch k).command))] ++ full)) ∧
      c.gainCur = gainAfter s now ∧ c.gainLastSend = now ∧ SentAt s.sch c k now ∧
      (HasRoom s → full = [] ∧ q = s.syn.queue ++ [train]) ∧
      ∀ cap : Nat, CapIs s cap → 1 ≤ cap → cap ≤ s.syn.queue.length →
        if s.cfg.synCtrl.value.toNat % 2 = 0 then full = [.diag .synQueueFull 68] ∧ q = s.syn.queue
        else q = s.syn.queue.drop (s.syn.queue.length + 1 - cap) ++ [train] ∧
          ∃ arg : BitVec 64, full = [.diag .synQueueFull arg] ∧
            (s.syn.queue.length < 2 ^ 32 → arg = BitVec.ofNat 64 (2 ^ 63 + (s.syn.queue.length + 1 - cap)))

/-- SCH_SUBMIT replaces the entry at chan * 16 + group by a fresh one (repeats SCH_REPEAT_COUNT, last send 0, the command
as given), leaves every other slot and the GainState, and then makes the pass that SCH_TICK makes (R163). -/
def Obligations.SubmitReplacesTheEntryThenPasses : Prop :=
  ∀ (s : State) (c : Command) (now : Time), SchedulerSet s.cfg → ∃ (sch : Scheduler) (t : State),
    let k : Key := BitVec.ofNat 8 (c.chan.toNat * 16 + c.group.toNat)
    slotAt sch k = ⟨true, 0, s.cfg.schRepeatCount.value, c⟩ ∧ (∀ j, j ≠ k → slotAt sch j = slotAt s.sch j) ∧
    sch.gainCur = s.sch.gainCur ∧ sch.gainLastSend = s.sch.gainLastSend ∧
    exec (.schSubmit c now) s = .next t ∧ exec (.schTick now) (s.withSch sch) = .next t

/-- One SCH_SUBMIT or SCH_TICK appends at most one EvTxCmd and at most one EvGain and pushes at most one train. The spec's
own inference (R172: "A pass emits at most one command."). -/
def Obligations.AtMostOneSendPerOperation : Prop :=
  ∀ (i : Instr) (s : State), ((∃ c now, i = .schSubmit c now) ∨ ∃ now, i = .schTick now) →
    ∃ (t : State) (es : List Event) (n : Nat) (new : List PulseTrain),
      exec i s = .next t ∧ t.events = s.events ++ es ∧
      (es.filter isTx).length ≤ 1 ∧ (es.filter isGain).length ≤ 1 ∧
      t.syn.queue = s.syn.queue.drop n ++ new ∧ new.length ≤ 1

/-- An entry that is alone in the table is sent exactly as many times as it has repeats left, by as many ticks each at
least SCH_TBR after the send before, and the table is then empty. The spec's own inference (R174: "each submitted command
is emitted exactly SCH_REPEAT_COUNT times"). -/
def Obligations.EntryIsSentRepeatCountTimes : Prop :=
  ∀ (s : State) (k : Key) (ts : List Time), SchedulerSet s.cfg → (slotAt s.sch k).valid = true →
    (∀ j, j ≠ k → (slotAt s.sch j).valid = false) → ts ≠ [] → ts.length = (slotAt s.sch k).repeats.toNat →
    Spaced s.cfg.schTbr.value.toNat (slotAt s.sch k).lastSent.toNat ts →
    ∃ t, execAll (ts.map .schTick) s = .next t ∧ validCount t.sch = 0 ∧
      t.events.filter isTx = s.events.filter isTx ++
        List.replicate ts.length (.txCmd (BitVec.ofNat 64 (dataNumber (slotAt s.sch k).command)))

/-- Among other entries too: from a SCH_SUBMIT on, over any later operations but RESET and a SCH_SUBMIT with the same key,
every pass that selects the entry sends its command, and no other operation sends one of its key. It is sent
SCH_REPEAT_COUNT times when that many passes have selected it, and is then removed; before that it keeps the repeats that
are left. A pass that selects it comes at least SCH_TBR after its last send. The spec's own inference (R174: "each
submitted command is emitted exactly SCH_REPEAT_COUNT times"). -/
def Obligations.EntryAmongOthersIsSentRepeatCountTimes : Prop :=
  ∀ (s : State) (c : Command) (now : Time) (is : List Instr), s.Inv → SchedulerSet s.cfg →
    (∀ i ∈ is, i ≠ .reset ∧ ∀ c' now', i = .schSubmit c' now' → ¬(c'.chan = c.chan ∧ c'.group = c.group)) →
    let k : Key := BitVec.ofNat 8 (c.chan.toNat * 16 + c.group.toNat)
    let count := s.cfg.schRepeatCount.value.toNat
    ∃ (t : State) (n : Nat),
      execAll (.schSubmit c now :: is) s = .next t ∧ SelectionsAre k (.schSubmit c now :: is) s n ∧ n ≤ count ∧
      t.events.filter (isTxOf k) = s.events.filter (isTxOf k) ++
        List.replicate n (.txCmd (BitVec.ofNat 64 (dataNumber c))) ∧
      if n = count then (slotAt t.sch k).valid = false
      else (slotAt t.sch k).valid = true ∧ (slotAt t.sch k).command = c ∧
        (slotAt t.sch k).repeats.toNat + n = count

/-! ## The whole machine -/

/-- Each part of the state is written only by its own operations; no operation touches the request stream or QUEUE_DEPTH
(R24 to R30, R60 to R62). -/
def Obligations.EachPartHasItsWriters : Prop :=
  ∀ (i : Instr) (s t : State), exec i s = .next t →
    (writesDec i = false → t.dec = s.dec) ∧ (writesSch i = false → t.sch = s.sch) ∧
    (writesSyn i = false → t.syn = s.syn) ∧ (writesCfg i = false → t.cfg = s.cfg) ∧
    t.requests = s.requests ∧ t.queueDepth = s.queueDepth

/-- Every event an operation appends is one that the tables of R22 and R261 let it emit: EvRxSeq and EvRxCmd only by
DEC_PULSE and DEC_END, EvResult only by CKSUM, CODEC_ENCODE, CODEC_DECODE, ENC_ENCODE and CFG_READ, EvTxCmd and EvGain
only by SCH_SUBMIT and SCH_TICK, EvSamples only by SYN_FILL, and each EvDiag code only by the operations that raise
it. -/
def Obligations.EachEventHasItsEmitters : Prop :=
  ∀ (i : Instr) (s t : State), exec i s = .next t →
    ∃ es : List Event, t.events = s.events ++ es ∧ ∀ e ∈ es, opcodeOf i ∈ emitters e

/-- An operation that emits a request or configuration diagnostic emits nothing else and changes nothing else (R260,
R265). -/
def Obligations.RaiseIsTheOnlyEffect : Prop :=
  ∀ (i : Instr) (s t : State) (es : List Event) (code : DiagCode) (arg : BitVec 64),
    exec i s = .next t → t.events = s.events ++ es → .diag code arg ∈ es → isRaiseCode code = true →
    t = s.withEvents (s.events ++ [.diag code arg])

/-- No step takes an event out of the stream, RESET's neither (R22, R235). -/
def Obligations.EventStreamOnlyGrows : Prop :=
  ∀ s t : State, step s = .next t → ∃ es, t.events = s.events ++ es

/-- No operation of the block can stop: every step answers a next state (93_implementation_defined.md section 4). -/
def Obligations.EveryStepAnswersANextState : Prop :=
  ∀ s : State, ∃ t, step s = .next t

/-- The invariant holds after power-on. -/
def Obligations.InvariantHoldsAtReset : Prop := State.reset.Inv

/-- Every step keeps the invariant, from every state that has it, reached or not. -/
def Obligations.EveryStepKeepsTheInvariant : Prop :=
  ∀ s t : State, s.Inv → step s = .next t → t.Inv
end

