-- ==== Sys2Proof/Laws/State.lean ====
section
/-! SUPPORT. What each named update of the state does to each field. -/

namespace Sys2Proof.Machine

/-! ### withDec -/

@[simp] theorem State.withDec_dec (s : State) (x : Decoder) : (s.withDec x).dec = x := rfl
@[simp] theorem State.withDec_sch (s : State) (x : Decoder) : (s.withDec x).sch = s.sch := rfl
@[simp] theorem State.withDec_syn (s : State) (x : Decoder) : (s.withDec x).syn = s.syn := rfl
@[simp] theorem State.withDec_cfg (s : State) (x : Decoder) : (s.withDec x).cfg = s.cfg := rfl
@[simp] theorem State.withDec_requests (s : State) (x : Decoder) : (s.withDec x).requests = s.requests := rfl
@[simp] theorem State.withDec_events (s : State) (x : Decoder) : (s.withDec x).events = s.events := rfl
@[simp] theorem State.withDec_queueDepth (s : State) (x : Decoder) : (s.withDec x).queueDepth = s.queueDepth := rfl
@[simp] theorem State.withDec_withDec (s : State) (x y : Decoder) : (s.withDec x).withDec y = s.withDec y := rfl
@[simp] theorem State.withDec_self (s : State) : s.withDec s.dec = s := rfl

/-! ### withSch -/

@[simp] theorem State.withSch_dec (s : State) (x : Scheduler) : (s.withSch x).dec = s.dec := rfl
@[simp] theorem State.withSch_sch (s : State) (x : Scheduler) : (s.withSch x).sch = x := rfl
@[simp] theorem State.withSch_syn (s : State) (x : Scheduler) : (s.withSch x).syn = s.syn := rfl
@[simp] theorem State.withSch_cfg (s : State) (x : Scheduler) : (s.withSch x).cfg = s.cfg := rfl
@[simp] theorem State.withSch_requests (s : State) (x : Scheduler) : (s.withSch x).requests = s.requests := rfl
@[simp] theorem State.withSch_events (s : State) (x : Scheduler) : (s.withSch x).events = s.events := rfl
@[simp] theorem State.withSch_queueDepth (s : State) (x : Scheduler) : (s.withSch x).queueDepth = s.queueDepth := rfl
@[simp] theorem State.withSch_withSch (s : State) (x y : Scheduler) : (s.withSch x).withSch y = s.withSch y := rfl
@[simp] theorem State.withSch_self (s : State) : s.withSch s.sch = s := rfl

/-! ### withSyn -/

@[simp] theorem State.withSyn_dec (s : State) (x : Synth) : (s.withSyn x).dec = s.dec := rfl
@[simp] theorem State.withSyn_sch (s : State) (x : Synth) : (s.withSyn x).sch = s.sch := rfl
@[simp] theorem State.withSyn_syn (s : State) (x : Synth) : (s.withSyn x).syn = x := rfl
@[simp] theorem State.withSyn_cfg (s : State) (x : Synth) : (s.withSyn x).cfg = s.cfg := rfl
@[simp] theorem State.withSyn_requests (s : State) (x : Synth) : (s.withSyn x).requests = s.requests := rfl
@[simp] theorem State.withSyn_events (s : State) (x : Synth) : (s.withSyn x).events = s.events := rfl
@[simp] theorem State.withSyn_queueDepth (s : State) (x : Synth) : (s.withSyn x).queueDepth = s.queueDepth := rfl
@[simp] theorem State.withSyn_withSyn (s : State) (x y : Synth) : (s.withSyn x).withSyn y = s.withSyn y := rfl
@[simp] theorem State.withSyn_self (s : State) : s.withSyn s.syn = s := rfl

/-! ### withCfg -/

@[simp] theorem State.withCfg_dec (s : State) (x : CfgFile) : (s.withCfg x).dec = s.dec := rfl
@[simp] theorem State.withCfg_sch (s : State) (x : CfgFile) : (s.withCfg x).sch = s.sch := rfl
@[simp] theorem State.withCfg_syn (s : State) (x : CfgFile) : (s.withCfg x).syn = s.syn := rfl
@[simp] theorem State.withCfg_cfg (s : State) (x : CfgFile) : (s.withCfg x).cfg = x := rfl
@[simp] theorem State.withCfg_requests (s : State) (x : CfgFile) : (s.withCfg x).requests = s.requests := rfl
@[simp] theorem State.withCfg_events (s : State) (x : CfgFile) : (s.withCfg x).events = s.events := rfl
@[simp] theorem State.withCfg_queueDepth (s : State) (x : CfgFile) : (s.withCfg x).queueDepth = s.queueDepth := rfl
@[simp] theorem State.withCfg_withCfg (s : State) (x y : CfgFile) : (s.withCfg x).withCfg y = s.withCfg y := rfl
@[simp] theorem State.withCfg_self (s : State) : s.withCfg s.cfg = s := rfl

/-! ### withRequests -/

@[simp] theorem State.withRequests_dec (s : State) (x : List Word) : (s.withRequests x).dec = s.dec := rfl
@[simp] theorem State.withRequests_sch (s : State) (x : List Word) : (s.withRequests x).sch = s.sch := rfl
@[simp] theorem State.withRequests_syn (s : State) (x : List Word) : (s.withRequests x).syn = s.syn := rfl
@[simp] theorem State.withRequests_cfg (s : State) (x : List Word) : (s.withRequests x).cfg = s.cfg := rfl
@[simp] theorem State.withRequests_requests (s : State) (x : List Word) : (s.withRequests x).requests = x := rfl
@[simp] theorem State.withRequests_events (s : State) (x : List Word) : (s.withRequests x).events = s.events := rfl
@[simp] theorem State.withRequests_queueDepth (s : State) (x : List Word) : (s.withRequests x).queueDepth = s.queueDepth := rfl
@[simp] theorem State.withRequests_withRequests (s : State) (x y : List Word) : (s.withRequests x).withRequests y = s.withRequests y := rfl
@[simp] theorem State.withRequests_self (s : State) : s.withRequests s.requests = s := rfl

/-! ### withEvents -/

@[simp] theorem State.withEvents_dec (s : State) (x : List Event) : (s.withEvents x).dec = s.dec := rfl
@[simp] theorem State.withEvents_sch (s : State) (x : List Event) : (s.withEvents x).sch = s.sch := rfl
@[simp] theorem State.withEvents_syn (s : State) (x : List Event) : (s.withEvents x).syn = s.syn := rfl
@[simp] theorem State.withEvents_cfg (s : State) (x : List Event) : (s.withEvents x).cfg = s.cfg := rfl
@[simp] theorem State.withEvents_requests (s : State) (x : List Event) : (s.withEvents x).requests = s.requests := rfl
@[simp] theorem State.withEvents_events (s : State) (x : List Event) : (s.withEvents x).events = x := rfl
@[simp] theorem State.withEvents_queueDepth (s : State) (x : List Event) : (s.withEvents x).queueDepth = s.queueDepth := rfl
@[simp] theorem State.withEvents_withEvents (s : State) (x y : List Event) : (s.withEvents x).withEvents y = s.withEvents y := rfl
@[simp] theorem State.withEvents_self (s : State) : s.withEvents s.events = s := rfl

@[simp] theorem State.withDec_withEvents_self (s : State) (x : Decoder) : (s.withDec x).withEvents s.events = s.withDec x := rfl
@[simp] theorem State.withSch_withEvents_self (s : State) (x : Scheduler) : (s.withSch x).withEvents s.events = s.withSch x := rfl
@[simp] theorem State.withSyn_withEvents_self (s : State) (x : Synth) : (s.withSyn x).withEvents s.events = s.withSyn x := rfl

/-- Two states are equal when their seven fields are. -/
theorem State.eq_of_fields {s t : State} (hd : s.dec = t.dec) (hs : s.sch = t.sch) (hy : s.syn = t.syn)
    (hc : s.cfg = t.cfg) (hr : s.requests = t.requests) (he : s.events = t.events) (hq : s.queueDepth = t.queueDepth) :
    s = t := by
  cases s; cases t; simp_all

end Sys2Proof.Machine
end

