-- ==== Sys2Proof/Laws/Ops.lean ====
section
/-! SUPPORT. One lemma for each shared operation of Machine/Ops.lean and Machine/Operands.lean, saying all it can do. -/

namespace Sys2Proof.Machine

/-! ## Events -/

@[simp] theorem emit_dec (e : Event) (s : State) : (emit e s).dec = s.dec := rfl
@[simp] theorem emit_sch (e : Event) (s : State) : (emit e s).sch = s.sch := rfl
@[simp] theorem emit_syn (e : Event) (s : State) : (emit e s).syn = s.syn := rfl
@[simp] theorem emit_cfg (e : Event) (s : State) : (emit e s).cfg = s.cfg := rfl
@[simp] theorem emit_requests (e : Event) (s : State) : (emit e s).requests = s.requests := rfl
@[simp] theorem emit_queueDepth (e : Event) (s : State) : (emit e s).queueDepth = s.queueDepth := rfl
@[simp] theorem emit_events (e : Event) (s : State) : (emit e s).events = s.events ++ [e] := rfl

/-- A warning is its event and nothing else. -/
theorem warn_eq (code : DiagCode) (arg : BitVec 64) (s : State) :
    warn code arg s = s.withEvents (s.events ++ [.diag code arg]) := rfl

/-- A raise is its event and nothing else (R260, R266). -/
theorem raise_eq (code : DiagCode) (arg : BitVec 64) (s : State) :
    raise code arg s = s.withEvents (s.events ++ [.diag code arg]) := rfl

/-! ## The configuration registers -/

/-- The address map: a register's address names that register (R67). -/
@[simp] theorem cfgTarget_addr (r : RegName) : cfgTarget r.addr = .writable r := by cases r <;> rfl

/-- The address map: a status register's address names it (R42). -/
@[simp] theorem cfgTarget_status (st : StatusName) : cfgTarget st.addr = .status st := by cases st <;> rfl

/-- An address names a register only if it is that register's own. -/
theorem addr_of_cfgTarget {a : BitVec 8} {r : RegName} (h : cfgTarget a = .writable r) : a = r.addr := by
  unfold cfgTarget at h
  split at h
  · rename_i r' hf
    cases h
    have := List.find?_some hf
    exact (beq_iff_eq.mp this).symm
  · split at h <;> cases h

/-- Reading back a stored register gives the low bits its width keeps (R30). -/
theorem CfgFile.get_set_self (c : CfgFile) (v : BitVec 64) (r : RegName) :
    (c.set v r).get r = (v.setWidth r.width).setWidth 64 := by
  cases r <;> simp [CfgFile.get, CfgFile.set, CfgReg.store, RegName.width]

/-- A stored register is marked written (R30). -/
@[simp] theorem CfgFile.isSet_set_self (c : CfgFile) (v : BitVec 64) (r : RegName) : (c.set v r).isSet r = true := by
  cases r <;> rfl

/-- A store leaves every other register's value alone (R66). -/
theorem CfgFile.get_set_of_ne (c : CfgFile) (v : BitVec 64) {r r' : RegName} (h : r' ≠ r) :
    (c.set v r).get r' = c.get r' := by
  cases r <;> cases r' <;> first | rfl | exact absurd rfl h

/-- A store leaves every other register's written flag alone (R66). -/
theorem CfgFile.isSet_set_of_ne (c : CfgFile) (v : BitVec 64) {r r' : RegName} (h : r' ≠ r) :
    (c.set v r).isSet r' = c.isSet r' := by
  cases r <;> cases r' <;> first | rfl | exact absurd rfl h

/-- No register of a list is UNSET exactly when the check finds none (R231). -/
theorem lowestUnset_eq_none {c : CfgFile} {regs : List RegName} :
    lowestUnset c regs = none ↔ ∀ r ∈ regs, c.isSet r = true := by
  simp [lowestUnset, List.min?_eq_none_iff, List.filter_eq_nil_iff]

/-- The check reports the address of an UNSET register of its list, and no UNSET one lies lower (R231). -/
theorem lowestUnset_eq_some {c : CfgFile} {regs : List RegName} {a : Nat} (h : lowestUnset c regs = some a) :
    (∃ r ∈ regs, c.isSet r = false ∧ r.addr.toNat = a) ∧ ∀ r ∈ regs, c.isSet r = false → a ≤ r.addr.toNat := by
  obtain ⟨hm, hle⟩ := List.min?_eq_some_iff.mp h
  simp only [List.mem_map, List.mem_filter] at hm hle
  refine ⟨?_, fun r hr hs => hle _ ⟨r, ⟨hr, by simp [hs]⟩, rfl⟩⟩
  obtain ⟨r, ⟨hr, hs⟩, rfl⟩ := hm
  exact ⟨r, hr, by simpa using hs, rfl⟩

/-- With every register of the list written, the check lets the operation run (R231). -/
theorem requireCfg_of_set {regs : List RegName} {s : State} (body : State → State)
    (h : ∀ r ∈ regs, s.cfg.isSet r = true) : requireCfg regs body s = body s := by
  simp [requireCfg, lowestUnset_eq_none.mpr h]

/-- What the check can do: run the operation on the same state, or raise CFG_UNSET and leave everything else (R231). -/
theorem requireCfg_cases (regs : List RegName) (body : State → State) (s : State) :
    ((∀ r ∈ regs, s.cfg.isSet r = true) ∧ requireCfg regs body s = body s) ∨
    ∃ r ∈ regs, s.cfg.isSet r = false ∧ (∀ r' ∈ regs, s.cfg.isSet r' = false → r.addr.toNat ≤ r'.addr.toNat) ∧
      requireCfg regs body s = raise .cfgUnset (r.addr.setWidth 64) s := by
  rcases hu : lowestUnset s.cfg regs with _ | a
  · have h := lowestUnset_eq_none.mp hu
    exact .inl ⟨h, requireCfg_of_set body h⟩
  · obtain ⟨⟨r, hr, hs, rfl⟩, hle⟩ := lowestUnset_eq_some hu
    refine .inr ⟨r, hr, hs, hle, ?_⟩
    simp only [requireCfg, hu]
    rw [BitVec.ofNat_toNat]

/-- What a configuration write can do (R232). -/
theorem cfgWriteReg_cases (a : BitVec 8) (v : BitVec 64) (s : State) :
    (∃ st, cfgTarget a = .status st ∧ cfgWriteReg a v s = raise .cfgReadonly (a.setWidth 64) s) ∨
    (cfgTarget a = .unused ∧ cfgWriteReg a v s = raise .cfgBadAddr (a.setWidth 64) s) ∨
    (∃ r, cfgTarget a = .writable r ∧ (r = .synRateDen ∨ r = .schRepeatCount) ∧ v.setWidth r.width = 0 ∧
      cfgWriteReg a v s = raise .cfgInvalid (a.setWidth 64) s) ∨
    ∃ r, cfgTarget a = .writable r ∧ ¬((r = .synRateDen ∨ r = .schRepeatCount) ∧ v.setWidth r.width = 0) ∧
      cfgWriteReg a v s = s.withCfg (s.cfg.set v r) := by
  unfold cfgWriteReg
  rcases ht : cfgTarget a with r | st | _
  · by_cases h : (r = .synRateDen ∨ r = .schRepeatCount) ∧ v.setWidth r.width = 0
    · exact .inr (.inr (.inl ⟨r, rfl, h.1, h.2, if_pos h⟩))
    · exact .inr (.inr (.inr ⟨r, rfl, h, if_neg h⟩))
  · exact .inl ⟨st, rfl, rfl⟩
  · exact .inr (.inl ⟨rfl, rfl⟩)

/-! ## The scheduler's slots -/

/-- A slot just written reads back. -/
@[simp] theorem slotAt_setSlot_self (c : Scheduler) (k : Key) (v : Slot) : slotAt (setSlot c k v) k = v := by
  simp [slotAt, setSlot]

/-- Writing one slot leaves every other slot alone. -/
theorem slotAt_setSlot_of_ne (c : Scheduler) (v : Slot) {k k' : Key} (h : k' ≠ k) :
    slotAt (setSlot c k v) k' = slotAt c k' := by
  have hn : k.toNat ≠ k'.toNat := fun e => h (BitVec.eq_of_toNat_eq e).symm
  simp only [slotAt, setSlot]
  exact Vector.getElem_set_ne k.isLt k'.isLt hn

@[simp] theorem setSlot_gainCur (c : Scheduler) (k : Key) (v : Slot) : (setSlot c k v).gainCur = c.gainCur := rfl
@[simp] theorem setSlot_gainLastSend (c : Scheduler) (k : Key) (v : Slot) :
    (setSlot c k v).gainLastSend = c.gainLastSend := rfl

/-- Every key is in the list of keys. -/
theorem mem_allKeys (k : Key) : k ∈ allKeys := by
  refine List.mem_map.mpr ⟨k.toNat, List.mem_range.mpr k.isLt, ?_⟩
  simp

/-- The keys rise strictly. -/
theorem allKeys_rising : allKeys.Pairwise (fun j k => j.toNat < k.toNat) := by
  unfold allKeys
  rw [List.pairwise_map]
  refine List.pairwise_lt_range.imp_of_mem ?_
  intro i j hi hj h
  simp only [List.mem_range] at hi hj
  simp only [BitVec.toNat_ofNat]
  rw [Nat.mod_eq_of_lt hi, Nat.mod_eq_of_lt hj]
  exact h

/-- A 32-bit count field holds the count whenever it fits. -/
theorem count32_toNat {n : Nat} (h : n < 2 ^ 32) : (count32 n).toNat = n := by
  simp only [count32, if_pos h, BitVec.toNat_ofNat]
  exact Nat.mod_eq_of_lt h

end Sys2Proof.Machine
end

