-- ==== Sys2Proof/Laws/Codec.lean ====
section
/-! SUPPORT. What the frame codec and the receive path can do: 42_frame_codec.md R140 to R147, 46_system.md R236. -/

namespace Sys2Proof.Machine

/-- A frame sequence has 33 positions (R80). -/
@[simp] theorem frameSeq_length (c : Command) : (frameSeq c).length = 33 := by simp [frameSeq, Config.frameLen]

/-- The data word D as a number (R81). -/
theorem pack_toNat (c : Command) : c.pack.toNat = dataNumber c := by
  obtain ⟨g, ch, b, m, l, k⟩ := c
  simp only [Command.pack, dataNumber, BitVec.toNat_append]
  have := g.isLt
  have := ch.isLt
  have := b.isLt
  have := m.isLt
  have := l.isLt
  have := k.isLt
  rw [← Nat.shiftLeft_add_eq_or_of_lt (by omega), ← Nat.shiftLeft_add_eq_or_of_lt (by omega),
    ← Nat.shiftLeft_add_eq_or_of_lt (by omega), ← Nat.shiftLeft_add_eq_or_of_lt (by omega),
    ← Nat.shiftLeft_add_eq_or_of_lt (by omega)]
  simp only [Nat.shiftLeft_eq]
  omega

/-- The word in which an event carries a Command, as a number (R170, R236). -/
theorem packed64_eq (c : Command) : packed64 c = BitVec.ofNat 64 (dataNumber c) := by
  rw [packed64, ← pack_toNat]
  simp

/-- What `decode` can answer, and when (R142). -/
theorem decodeFrame_cases (q : BitSeq) :
    (q.length ≠ 33 ∧ decodeFrame q = .lengthError q.length) ∨
    (q.length = 33 ∧ q.getD 32 false = true ∧ decodeFrame q = .trailingBitError) ∨
    (q.length = 33 ∧ q.getD 32 false = false ∧
      decodeFrame q = .command (commandOfData (BitVec.ofNat 32 (valueMsbFirst (q.take 32))))) := by
  unfold decodeFrame Config.frameLen
  by_cases hl : q.length = 33
  · refine .inr ?_
    by_cases ht : q.getD 32 false = true
    · refine .inl ⟨hl, ht, ?_⟩
      rw [if_neg (not_not.mpr hl), if_pos ht]
    · refine .inr ⟨hl, by simpa using ht, ?_⟩
      have hd : (q.take 32).drop (4 + 4 + 8 + 2 + 6 + 8) = [] := by
        apply List.drop_eq_nil_of_le
        simp
      rw [if_neg (not_not.mpr hl), if_neg ht]
      simp only [hd, ne_eq, not_true_eq_false, if_false]
  · exact .inl ⟨hl, if_pos hl⟩

/-- The receive path emits nothing for an empty sequence and one event otherwise; it changes nothing else (R236). -/
theorem rxFrame_cases (q : BitSeq) (s : State) :
    (q = [] ∧ rxFrame q s = s) ∨ (q ≠ [] ∧ ∃ e, rxFrame q s = s.withEvents (s.events ++ [e])) := by
  by_cases hq : q = []
  · exact .inl ⟨hq, if_pos hq⟩
  · refine .inr ⟨hq, ?_⟩
    unfold rxFrame
    rw [if_neg hq]
    rcases decodeFrame q with n | _ | _ | c <;> exact ⟨_, rfl⟩

/-- CODEC_DECODE on a sequence emits one event and changes nothing else (R147). -/
theorem codecDecodeSeq_cases (q : BitSeq) (s : State) : ∃ e, codecDecodeSeq q s = s.withEvents (s.events ++ [e]) := by
  unfold codecDecodeSeq
  rcases decodeFrame q with n | _ | _ | c <;> exact ⟨_, rfl⟩

end Sys2Proof.Machine
end

