-- ==== Sys2Proof/Laws/Decode.lean ====
section
/-! SUPPORT. What the decoder reads from a header: one lemma for each op code of 30_encoding.md R87, and the framing of
R86. -/

namespace Sys2Proof

open Sys2Proof.Machine

/-- A header is its two halves put together. -/
theorem headerOf_extract (w : Header) : headerOf (w.extractLsb' 0 64) (w.extractLsb' 64 64) = w := by
  unfold headerOf
  apply BitVec.eq_of_getLsbD_eq
  intro i hi
  simp only [BitVec.getLsbD_append, BitVec.getLsbD_extractLsb']
  by_cases h : i < 64
  · simp [h]
  · simp only [h, decide_false, Nat.zero_add]
    rw [show 64 + (i - 64) = i by omega]
    simp
    omega

/-- The op code as a number (R86). -/
theorem opcode_toNat (w : Header) : (opcode w).toNat = w.toNat % 16 := by
  simp [opcode, BitVec.extractLsb'_toNat]

/-- The op code is k exactly when W[3:0] is k (R86). -/
theorem opcode_eq_iff (w : Header) {k : Nat} (hk : k < 16) : opcode w = BitVec.ofNat 4 k ↔ w.toNat % 16 = k := by
  rw [← opcode_toNat, ← BitVec.toNat_inj, BitVec.toNat_ofNat, Nat.mod_eq_of_lt hk]

/-- The number of pulse words, on the header's number (R86, R95). -/
theorem pulseCount_eq (w : Header) : pulseCount w = if w.toNat % 16 = 0x9 then w.toNat / 2 ^ 8 % 2 ^ 8 else 0 := by
  unfold pulseCount
  simp only [opcode_eq_iff w (k := 9) (by omega), BitVec.extractLsb'_toNat, Nat.shiftRight_eq_div_pow]

/-- Decoding a stream that begins with a header (R86). -/
theorem decode_headerWords (w : Header) (rest : List Word) :
    decode (headerWords w ++ rest) =
      if rest.length < pulseCount w then .error (.pulseWordsMissing (pulseCount w) rest.length)
      else .ok (instrOf w (rest.take (pulseCount w)), rest.drop (pulseCount w)) := by
  simp only [headerWords, List.cons_append, List.nil_append, decode, headerOf_extract]

/-- An op code bit, from the op code's number. -/
theorem getLsbD_of_op {w : Header} {k : Nat} (h : w.toNat % 16 = k) {i : Nat} (hi : i < 4) :
    w.getLsbD i = k.testBit i := by
  rw [BitVec.getLsbD, ← h, show (16 : Nat) = 2 ^ 4 from rfl, Nat.testBit_mod_two_pow]
  simp [hi]

theorem instrOf_nop {w : Header} (ps : List Word) (h : w.toNat % 16 = 0x0) :
    instrOf w ps = .nop := by
  simp only [instrOf, getLsbD_of_op h (show 0 < 4 by omega), getLsbD_of_op h (show 1 < 4 by omega),
    getLsbD_of_op h (show 2 < 4 by omega), getLsbD_of_op h (show 3 < 4 by omega)]
  rfl

theorem instrOf_decPulse {w : Header} (ps : List Word) (h : w.toNat % 16 = 0x1) :
    instrOf w ps = .decPulse (w.getLsbD 8) (w.extractLsb' 32 32) := by
  simp only [instrOf, getLsbD_of_op h (show 0 < 4 by omega), getLsbD_of_op h (show 1 < 4 by omega),
    getLsbD_of_op h (show 2 < 4 by omega), getLsbD_of_op h (show 3 < 4 by omega)]
  rfl

theorem instrOf_decEnd {w : Header} (ps : List Word) (h : w.toNat % 16 = 0x2) :
    instrOf w ps = .decEnd := by
  simp only [instrOf, getLsbD_of_op h (show 0 < 4 by omega), getLsbD_of_op h (show 1 < 4 by omega),
    getLsbD_of_op h (show 2 < 4 by omega), getLsbD_of_op h (show 3 < 4 by omega)]
  rfl

theorem instrOf_cksum {w : Header} (ps : List Word) (h : w.toNat % 16 = 0x3) :
    instrOf w ps = .cksum (w.extractLsb' 32 4) (w.extractLsb' 36 4) (w.extractLsb' 40 8) := by
  simp only [instrOf, getLsbD_of_op h (show 0 < 4 by omega), getLsbD_of_op h (show 1 < 4 by omega),
    getLsbD_of_op h (show 2 < 4 by omega), getLsbD_of_op h (show 3 < 4 by omega)]
  rfl

theorem instrOf_codecEncode {w : Header} (ps : List Word) (h : w.toNat % 16 = 0x4) :
    instrOf w ps = .codecEncode (w.extractLsb' 32 8) (w.extractLsb' 40 8)
      (w.extractLsb' 48 8) (w.extractLsb' 56 8) (w.extractLsb' 64 8) (w.extractLsb' 72 8) := by
  simp only [instrOf, getLsbD_of_op h (show 0 < 4 by omega), getLsbD_of_op h (show 1 < 4 by omega),
    getLsbD_of_op h (show 2 < 4 by omega), getLsbD_of_op h (show 3 < 4 by omega)]
  rfl

theorem instrOf_codecDecode {w : Header} (ps : List Word) (h : w.toNat % 16 = 0x5) :
    instrOf w ps = .codecDecode (seqOperand w) := by
  simp only [instrOf, getLsbD_of_op h (show 0 < 4 by omega), getLsbD_of_op h (show 1 < 4 by omega),
    getLsbD_of_op h (show 2 < 4 by omega), getLsbD_of_op h (show 3 < 4 by omega)]
  rfl

theorem instrOf_schSubmit {w : Header} (ps : List Word) (h : w.toNat % 16 = 0x6) :
    instrOf w ps = .schSubmit (commandOfData (w.extractLsb' 32 32)) (w.extractLsb' 64 64) := by
  simp only [instrOf, getLsbD_of_op h (show 0 < 4 by omega), getLsbD_of_op h (show 1 < 4 by omega),
    getLsbD_of_op h (show 2 < 4 by omega), getLsbD_of_op h (show 3 < 4 by omega)]
  rfl

theorem instrOf_schTick {w : Header} (ps : List Word) (h : w.toNat % 16 = 0x7) :
    instrOf w ps = .schTick (w.extractLsb' 64 64) := by
  simp only [instrOf, getLsbD_of_op h (show 0 < 4 by omega), getLsbD_of_op h (show 1 < 4 by omega),
    getLsbD_of_op h (show 2 < 4 by omega), getLsbD_of_op h (show 3 < 4 by omega)]
  rfl

theorem instrOf_encEncode {w : Header} (ps : List Word) (h : w.toNat % 16 = 0x8) :
    instrOf w ps = .encEncode (seqOperand w) := by
  simp only [instrOf, getLsbD_of_op h (show 0 < 4 by omega), getLsbD_of_op h (show 1 < 4 by omega),
    getLsbD_of_op h (show 2 < 4 by omega), getLsbD_of_op h (show 3 < 4 by omega)]
  rfl

theorem instrOf_synEnqueue {w : Header} (ps : List Word) (h : w.toNat % 16 = 0x9) :
    instrOf w ps = .synEnqueue (trainOperand w ps) := by
  simp only [instrOf, getLsbD_of_op h (show 0 < 4 by omega), getLsbD_of_op h (show 1 < 4 by omega),
    getLsbD_of_op h (show 2 < 4 by omega), getLsbD_of_op h (show 3 < 4 by omega)]
  rfl

theorem instrOf_synFill {w : Header} (ps : List Word) (h : w.toNat % 16 = 0xA) :
    instrOf w ps = .synFill (w.extractLsb' 32 32) := by
  simp only [instrOf, getLsbD_of_op h (show 0 < 4 by omega), getLsbD_of_op h (show 1 < 4 by omega),
    getLsbD_of_op h (show 2 < 4 by omega), getLsbD_of_op h (show 3 < 4 by omega)]
  rfl

theorem instrOf_cfgWrite {w : Header} (ps : List Word) (h : w.toNat % 16 = 0xB) :
    instrOf w ps = .cfgWrite (w.extractLsb' 8 8) (w.extractLsb' 64 64) := by
  simp only [instrOf, getLsbD_of_op h (show 0 < 4 by omega), getLsbD_of_op h (show 1 < 4 by omega),
    getLsbD_of_op h (show 2 < 4 by omega), getLsbD_of_op h (show 3 < 4 by omega)]
  rfl

theorem instrOf_cfgRead {w : Header} (ps : List Word) (h : w.toNat % 16 = 0xC) :
    instrOf w ps = .cfgRead (w.extractLsb' 8 8) := by
  simp only [instrOf, getLsbD_of_op h (show 0 < 4 by omega), getLsbD_of_op h (show 1 < 4 by omega),
    getLsbD_of_op h (show 2 < 4 by omega), getLsbD_of_op h (show 3 < 4 by omega)]
  rfl

theorem instrOf_reservedD {w : Header} (ps : List Word) (h : w.toNat % 16 = 0xD) :
    instrOf w ps = .reservedD := by
  simp only [instrOf, getLsbD_of_op h (show 0 < 4 by omega), getLsbD_of_op h (show 1 < 4 by omega),
    getLsbD_of_op h (show 2 < 4 by omega), getLsbD_of_op h (show 3 < 4 by omega)]
  rfl

theorem instrOf_reservedE {w : Header} (ps : List Word) (h : w.toNat % 16 = 0xE) :
    instrOf w ps = .reservedE := by
  simp only [instrOf, getLsbD_of_op h (show 0 < 4 by omega), getLsbD_of_op h (show 1 < 4 by omega),
    getLsbD_of_op h (show 2 < 4 by omega), getLsbD_of_op h (show 3 < 4 by omega)]
  rfl

theorem instrOf_reset {w : Header} (ps : List Word) (h : w.toNat % 16 = 0xF) :
    instrOf w ps = .reset := by
  simp only [instrOf, getLsbD_of_op h (show 0 < 4 by omega), getLsbD_of_op h (show 1 < 4 by omega),
    getLsbD_of_op h (show 2 < 4 by omega), getLsbD_of_op h (show 3 < 4 by omega)]
  rfl

/-! ## What the encoder wrote -/

/-- The low part of two values put together. -/
theorem extractLsb'_append_low {n k : Nat} (x : BitVec n) (y : BitVec k) : (x ++ y).extractLsb' 0 k = y := by
  apply BitVec.eq_of_getLsbD_eq
  intro i hi
  simp [BitVec.getLsbD_append, hi]

/-- A pulse word gives its pulse back (R95). -/
theorem pulseOfWord_wordOfPulse (p : Pulse) : pulseOfWord (wordOfPulse p) = p := by
  obtain ⟨level, dur⟩ := p
  simp only [pulseOfWord, wordOfPulse, extractLsb'_append_low, BitVec.getLsbD_append]
  cases level <;> simp

/-- Bit i of a sequence's number is its position i (R92). -/
theorem natOfSeq_testBit (s : BitSeq) (i : Nat) : (natOfSeq s).testBit i = s.getD i false := by
  induction s generalizing i with
  | nil => simp [natOfSeq]
  | cons b s ih =>
    unfold natOfSeq
    cases i with
    | zero => cases b <;> simp [Nat.testBit_zero]
    | succ i =>
      rw [Nat.testBit_succ, show (b.toNat + 2 * natOfSeq s) / 2 = natOfSeq s by
        cases b <;> simp; omega, ih]
      simp

/-- The field of a BS request gives its sequence back (R92). -/
theorem seqOfBits_bitsOfSeq (s : BitSeq) (h : s.length ≤ 64) : seqOfBits s.length (bitsOfSeq s) = s := by
  apply List.ext_getElem
  · simp [seqOfBits]
  · intro i h1 h2
    simp [seqOfBits, bitsOfSeq, BitVec.getLsbD_ofNat, natOfSeq_testBit, h2]
    omega

end Sys2Proof
end

