-- ==== Sys2Proof/Laws/PerInstr.lean ====
section
/-! SUPPORT. A family of facts about each instruction as syntax: its encoding carries its own op code (30_encoding.md
R86, R87). -/

namespace Sys2Proof.Laws.OpcodeOfEncoding

/-- The op code bits W[3:0] of an instruction's header are the op code of its table row (R87). -/
def Statement (i : Instr) : Prop := opcode (encodeHeader i) = opcodeOf i

theorem nop : Statement .nop := extractLsb'_append_low _ _

theorem decPulse (level : Bool) (dur : Dur) : Statement (.decPulse level dur) := extractLsb'_append_low _ _

theorem decEnd : Statement .decEnd := extractLsb'_append_low _ _

theorem cksum (group chan : BitVec 4) (brightness : BitVec 8) :
    Statement (.cksum group chan brightness) := extractLsb'_append_low _ _

theorem codecEncode (rgroup rchan rbrightness rcmd rcolor rcksum : BitVec 8) :
    Statement (.codecEncode rgroup rchan rbrightness rcmd rcolor rcksum) := extractLsb'_append_low _ _

theorem codecDecode (operand : SeqOperand) : Statement (.codecDecode operand) := extractLsb'_append_low _ _

theorem schSubmit (command : Command) (now : Time) : Statement (.schSubmit command now) := extractLsb'_append_low _ _

theorem schTick (now : Time) : Statement (.schTick now) := extractLsb'_append_low _ _

theorem encEncode (operand : SeqOperand) : Statement (.encEncode operand) := extractLsb'_append_low _ _

theorem synEnqueue (operand : TrainOperand) : Statement (.synEnqueue operand) := extractLsb'_append_low _ _

theorem synFill (n : BitVec 32) : Statement (.synFill n) := extractLsb'_append_low _ _

theorem cfgWrite (addr : BitVec 8) (data : BitVec 64) : Statement (.cfgWrite addr data) := extractLsb'_append_low _ _

theorem cfgRead (addr : BitVec 8) : Statement (.cfgRead addr) := extractLsb'_append_low _ _

theorem reservedD : Statement .reservedD := extractLsb'_append_low _ _

theorem reservedE : Statement .reservedE := extractLsb'_append_low _ _

theorem reset : Statement .reset := extractLsb'_append_low _ _

end Sys2Proof.Laws.OpcodeOfEncoding
end

