-- ==== Sys2Proof/Laws/PulseDecoder.lean ====
section
/-! SUPPORT. What the pulse decoder's operations can do: 40_decoder.md R112 to R117. -/

namespace Sys2Proof.Machine

/-- A flush empties the buffer and clears the overflow flag, may append events, and changes nothing else (R112). -/
theorem flush_cases (kind : FlushKind) (s : State) :
    ∃ es, flush kind s = (s.withDec { s.dec with buf := [], ovf := false }).withEvents (s.events ++ es) := by
  unfold flush
  by_cases hk : kind = .partialBuf ∧ forwardPartial s.cfg = false
  · exact ⟨[], by simp [hk, State.withDec, State.withEvents]⟩
  · rw [if_neg hk]
    by_cases ho : s.dec.ovf = true
    · rw [if_pos ho]
      rcases rxFrame_cases s.dec.buf (emit (.rxSeq s.dec.buf) (warn .decBufOverflow
        (BitVec.ofNat 64 s.dec.buf.length) (s.withDec { s.dec with buf := [], ovf := false }))) with ⟨-, e⟩ | ⟨-, x, e⟩
      · exact ⟨_, by rw [e]; simp [emit, warn_eq, State.withDec, State.withEvents]; rfl⟩
      · exact ⟨_, by rw [e]; simp [emit, warn_eq, State.withDec, State.withEvents]; rfl⟩
    · rw [if_neg ho]
      rcases rxFrame_cases s.dec.buf (emit (.rxSeq s.dec.buf)
        (s.withDec { s.dec with buf := [], ovf := false })) with ⟨-, e⟩ | ⟨-, x, e⟩
      · exact ⟨_, by rw [e]; simp [emit, State.withDec, State.withEvents]; rfl⟩
      · exact ⟨_, by rw [e]; simp [emit, State.withDec, State.withEvents]; rfl⟩

/-- Appending a bit lengthens the buffer by it, or sets the overflow flag when the buffer is full (R117). -/
theorem appendBit_cases (b : Bool) (s : State) :
    (s.dec.buf.length < 64 ∧ appendBit b s = s.withDec { s.dec with buf := s.dec.buf ++ [b] }) ∨
    (64 ≤ s.dec.buf.length ∧ appendBit b s = s.withDec { s.dec with ovf := true }) := by
  unfold appendBit Config.bitbufCap
  by_cases h : s.dec.buf.length < 64
  · exact .inl ⟨h, if_pos h⟩
  · exact .inr ⟨by omega, if_neg h⟩

end Sys2Proof.Machine
end

