-- ==== Sys2Proof/Laws/Synth.lean ====
section
/-! SUPPORT. What the synthesizer's operations can do: 45_synthesizer.md R204 to R209. -/

namespace Sys2Proof.Machine

/-! ## The queue -/

/-- The drop-oldest loop drops from the front until the queue is below capacity (R205). -/
theorem dropFront_eq (cap : Nat) (q : List PulseTrain) (n : Nat) (hc : 0 < cap) :
    dropFront cap q n = (q.drop (q.length + 1 - cap), n + (q.length + 1 - cap)) := by
  induction q generalizing n with
  | nil =>
    have : 0 + 1 - cap = 0 := by omega
    simp [dropFront, this]
  | cons t q ih =>
    unfold dropFront
    by_cases h : cap ≤ (t :: q).length
    · have e : (t :: q).length + 1 - cap = (q.length + 1 - cap) + 1 := by simp at h ⊢; omega
      rw [if_pos h, ih, e, List.drop_succ_cons]
      congr 1
      omega
    · have e : (t :: q).length + 1 - cap = 0 := by omega
      rw [if_neg h, e]
      rfl

/-- What a push can do: the train is queued behind what is kept, or it is rejected with one warning (R204, R205). The
other parts of the state are untouched. -/
theorem synPush_cases (t : PulseTrain) (s : State) :
    ∃ (es : List Event) (q : List PulseTrain),
      synPush t s = (s.withSyn { s.syn with queue := q }).withEvents (s.events ++ es) ∧
      ((es = [] ∧ q = s.syn.queue ++ [t ++ [⟨false, s.cfg.synTrailTime.value⟩]]) ∨
       (es = [.diag .synQueueFull (queueFullArg false (t.length + 1))] ∧ q = s.syn.queue) ∨
       ∃ cap, effectiveCap s = some cap ∧ cap ≤ s.syn.queue.length ∧
        es = [.diag .synQueueFull (queueFullArg true (dropFront cap s.syn.queue 0).2)] ∧
        q = (dropFront cap s.syn.queue 0).1 ++ [t ++ [⟨false, s.cfg.synTrailTime.value⟩]]) := by
  rcases hc : effectiveCap s with _ | cap
  · exact ⟨[], _, by simp [synPush, admitTrain, hc, pushBack, State.withSyn, State.withEvents], .inl ⟨rfl, rfl⟩⟩
  · by_cases hl : s.syn.queue.length < cap
    · exact ⟨[], _, by simp [synPush, admitTrain, hc, hl, pushBack, State.withSyn, State.withEvents], .inl ⟨rfl, rfl⟩⟩
    · by_cases hp : dropOldestPolicy s.cfg = false
      · exact ⟨_, s.syn.queue, by
          simp [synPush, admitTrain, hc, hl, hp, warn_eq, State.withSyn, State.withEvents], .inr (.inl ⟨rfl, rfl⟩)⟩
      · exact ⟨_, _, by
          simp [synPush, admitTrain, hc, hl, hp, pushBack, warn_eq, State.withSyn, State.withEvents],
          .inr (.inr ⟨cap, rfl, by omega, rfl, rfl⟩)⟩

/-! ## The fill loop -/

/-- What one step of the fill loop can be: one of the four cases, each with its condition on the registers (R207,
R208). -/
theorem fillStep_cases (c : FillCtx) :
    (0 < c.st.syn.rem.toNat ∧ fillStep c = fillSegment c) ∨
    (c.st.syn.rem.toNat = 0 ∧ ∃ t q, c.st.syn.queue = t :: q ∧
      (activeFirst c.st.cfg = true → c.st.syn.active = []) ∧ fillStep c = fillPopTrain t q c) ∨
    (c.st.syn.rem.toNat = 0 ∧ ∃ p ps, c.st.syn.active = p :: ps ∧
      (activeFirst c.st.cfg = false → c.st.syn.queue = []) ∧ fillStep c = fillPopPulse p ps c) ∨
    (c.st.syn.rem.toNat = 0 ∧ c.st.syn.queue = [] ∧ c.st.syn.active = [] ∧ fillStep c = fillIdle c) := by
  by_cases hr : 0 < c.st.syn.rem.toNat
  · exact .inl ⟨hr, by unfold fillStep fillStepActiveFirst fillStepQueueFirst; simp [hr]⟩
  · have h0 : c.st.syn.rem.toNat = 0 := by omega
    refine .inr ?_
    by_cases ho : activeFirst c.st.cfg = true
    · rcases ha : c.st.syn.active with _ | ⟨p, ps⟩
      · rcases hq : c.st.syn.queue with _ | ⟨t, q⟩
        · exact .inr (.inr ⟨h0, rfl, rfl, by simp [fillStep, ho, fillStepActiveFirst, hr, ha, hq]⟩)
        · exact .inl ⟨h0, t, q, rfl, fun _ => rfl, by simp [fillStep, ho, fillStepActiveFirst, hr, ha, hq]⟩
      · exact .inr (.inl ⟨h0, p, ps, rfl, by simp [ho], by simp [fillStep, ho, fillStepActiveFirst, hr, ha]⟩)
    · rcases hq : c.st.syn.queue with _ | ⟨t, q⟩
      · rcases ha : c.st.syn.active with _ | ⟨p, ps⟩
        · exact .inr (.inr ⟨h0, rfl, rfl, by simp [fillStep, ho, fillStepQueueFirst, hr, ha, hq]⟩)
        · exact .inr (.inl ⟨h0, p, ps, rfl, fun _ => rfl, by
            simp [fillStep, ho, fillStepQueueFirst, hr, ha, hq]⟩)
      · exact .inl ⟨h0, t, q, rfl, fun h => absurd h ho, by simp [fillStep, ho, fillStepQueueFirst, hr, hq]⟩

/-- A step that leaves space lowers the bound on the steps still to take (R209). -/
theorem fillStep_fuel (c : FillCtx) :
    (fillStep c).space = 0 ∨ fillFuel (fillStep c).st.syn < fillFuel c.st.syn := by
  rcases fillStep_cases c with ⟨hr, e⟩ | ⟨hr, t, q, hq, -, e⟩ | ⟨hr, p, ps, ha, -, e⟩ | ⟨-, -, -, e⟩ <;> rw [e]
  · by_cases hk : c.space ≤ c.st.syn.rem.toNat
    · exact .inl (by simp [fillSegment]; omega)
    · refine .inr ?_
      have hm : min c.space c.st.syn.rem.toNat = c.st.syn.rem.toNat := by omega
      simp only [fillFuel, fillSegment, State.withSyn_syn, hm, BitVec.ofNat_toNat, BitVec.setWidth_eq,
        BitVec.sub_self, if_pos hr]
      simp
  · refine .inr ?_
    simp only [fillFuel, fillPopTrain, State.withSyn_syn, hq, hr]
    by_cases ha : c.st.syn.active = []
    · simp [ha, hr]
    · simp [ha, warn_eq, hr]
      omega
  · refine .inr ?_
    simp only [fillFuel, fillPopPulse, State.withSyn_syn, ha, hr]
    simp
    split <;> omega
  · exact .inl rfl

/-- The fuel of SYN_FILL is enough: the loop ends with no space left (R206, R209). -/
theorem fillLoop_space (fuel : Nat) (c : FillCtx) (h : fillFuel c.st.syn ≤ fuel) : (fillLoop fuel c).space = 0 := by
  induction fuel generalizing c with
  | zero => simp [fillFuel] at h
  | succ fuel ih =>
    unfold fillLoop
    by_cases hs : c.space = 0
    · simp [hs]
    · rw [if_neg hs]
      rcases fillStep_fuel c with h0 | hlt
      · cases fuel with
        | zero => exact h0
        | succ fuel => simp [fillLoop, h0]
      · exact ih _ (by omega)

/-- More fuel than enough changes nothing (R209). -/
theorem fillLoop_stable (fuel more : Nat) (c : FillCtx) (h : (fillLoop fuel c).space = 0) :
    fillLoop (fuel + more) c = fillLoop fuel c := by
  induction fuel generalizing c with
  | zero =>
    have h0 : c.space = 0 := h
    cases more with
    | zero => rfl
    | succ m => simp [fillLoop, h0]
  | succ fuel ih =>
    rw [Nat.add_right_comm]
    unfold fillLoop at h ⊢
    by_cases hs : c.space = 0
    · simp [hs]
    · rw [if_neg hs] at h ⊢
      rw [if_neg hs]
      exact ih _ h

/-- A step keeps the sum of the samples written and the space left (R207). -/
theorem fillStep_out_length (c : FillCtx) : (fillStep c).out.length + (fillStep c).space = c.out.length + c.space := by
  rcases fillStep_cases c with ⟨-, e⟩ | ⟨-, t, q, -, -, e⟩ | ⟨-, p, ps, -, -, e⟩ | ⟨-, -, -, e⟩ <;> rw [e]
  · simp only [fillSegment, List.length_append, List.length_replicate]
    omega
  · rfl
  · rfl
  · simp [fillIdle]

/-- What the fill loop leaves alone: the decoder, the scheduler, the configuration, the request stream and the parameter
(R206). -/
theorem fillLoop_frame (fuel : Nat) (c : FillCtx) :
    (fillLoop fuel c).st.dec = c.st.dec ∧ (fillLoop fuel c).st.sch = c.st.sch ∧ (fillLoop fuel c).st.cfg = c.st.cfg ∧
    (fillLoop fuel c).st.requests = c.st.requests ∧ (fillLoop fuel c).st.queueDepth = c.st.queueDepth := by
  induction fuel generalizing c with
  | zero => exact ⟨rfl, rfl, rfl, rfl, rfl⟩
  | succ fuel ih =>
    unfold fillLoop
    by_cases hs : c.space = 0
    · simp [hs]
    · rw [if_neg hs]
      have hstep : (fillStep c).st.dec = c.st.dec ∧ (fillStep c).st.sch = c.st.sch ∧ (fillStep c).st.cfg = c.st.cfg ∧
          (fillStep c).st.requests = c.st.requests ∧ (fillStep c).st.queueDepth = c.st.queueDepth := by
        rcases fillStep_cases c with ⟨-, e⟩ | ⟨-, t, q, -, -, e⟩ | ⟨-, p, ps, -, -, e⟩ | ⟨-, -, -, e⟩ <;> rw [e]
        · exact ⟨rfl, rfl, rfl, rfl, rfl⟩
        · simp only [fillPopTrain]
          split <;> exact ⟨rfl, rfl, rfl, rfl, rfl⟩
        · exact ⟨rfl, rfl, rfl, rfl, rfl⟩
        · exact ⟨rfl, rfl, rfl, rfl, rfl⟩
      obtain ⟨h1, h2, h3, h4, h5⟩ := ih (fillStep c)
      obtain ⟨g1, g2, g3, g4, g5⟩ := hstep
      exact ⟨h1.trans g1, h2.trans g2, h3.trans g3, h4.trans g4, h5.trans g5⟩

end Sys2Proof.Machine
end

