-- ==== Sys2Proof/Laws/Scheduler.lean ====
section
/-! SUPPORT. What the scheduler's operations can do: 43_scheduler.md R164 to R171. -/

namespace Sys2Proof.Machine

/-- The count of valid slots over the table is the count over the keys (R27). -/
theorem validSlots_eq (c : Scheduler) : validSlots c = validCount c := by
  have h : c.tab.toList = (List.range 256).map fun k => slotAt c (BitVec.ofNat 8 k) := by
    apply List.ext_getElem
    · simp
    · intro i _ h2
      simp only [List.length_map, List.length_range] at h2
      simp [slotAt, Nat.mod_eq_of_lt h2]
  unfold validSlots validCount
  rw [h, List.countP_map]
  rfl

/-- The comparison of times, on natural numbers (R176). -/
theorem elapsed_iff (now since bound : Time) : elapsed now since bound = true ↔ since.toNat + bound.toNat ≤ now.toNat := by
  simp only [elapsed, decide_eq_true_eq]
  omega

/-- A key is in Elig exactly when its entry is eligible (R164, R167). -/
@[simp] theorem mem_eligibleKeys (c : Scheduler) (now tbr : Time) (k : Key) :
    k ∈ eligibleKeys c now tbr ↔ eligible c now tbr k = true := by
  simp [eligibleKeys, mem_allKeys]

/-- The eligible keys rise strictly. -/
theorem eligibleKeys_rising (c : Scheduler) (now tbr : Time) :
    (eligibleKeys c now tbr).Pairwise (fun j k => j.toNat < k.toNat) :=
  allKeys_rising.filter _

/-- No key is selected exactly when there is none to select from (R168). -/
theorem selectKey_eq_none (c : Scheduler) (elig : List Key) : selectKey c elig = none ↔ elig = [] := by
  constructor
  · intro h
    unfold selectKey at h
    split at h
    · rename_i hm
      simpa [List.min?_eq_none_iff] using hm
    · rename_i m hm
      obtain ⟨hmem, -⟩ := List.min?_eq_some_iff.mp hm
      obtain ⟨k, hk, e⟩ := List.mem_map.mp hmem
      exact absurd (List.find?_eq_none.mp h k hk) (by simp [e])
  · rintro rfl
    rfl

/-- The selected key is in the list, none in the list is older, and among those as old none of the rising list is lower
(R169). -/
theorem selectKey_eq_some {c : Scheduler} {elig : List Key} {k : Key}
    (hr : elig.Pairwise (fun j k => j.toNat < k.toNat)) (h : selectKey c elig = some k) :
    k ∈ elig ∧ (∀ j ∈ elig, (slotAt c k).lastSent.toNat ≤ (slotAt c j).lastSent.toNat) ∧
    ∀ j ∈ elig, (slotAt c j).lastSent = (slotAt c k).lastSent → k.toNat ≤ j.toNat := by
  unfold selectKey at h
  split at h
  · cases h
  · rename_i m hm
    obtain ⟨-, hle⟩ := List.min?_eq_some_iff.mp hm
    have hk : (slotAt c k).lastSent.toNat = m := by simpa using List.find?_some h
    refine ⟨List.mem_of_find?_eq_some h, ?_, ?_⟩
    · intro j hj
      rw [hk]
      exact hle _ (List.mem_map_of_mem hj)
    · intro j hj he
      obtain ⟨-, as, bs, rfl, hbefore⟩ := List.find?_eq_some_iff_append.mp h
      rcases List.mem_append.mp hj with hja | hjb
      · have := hbefore j hja
        simp [he, hk] at this
      · rcases List.mem_cons.mp hjb with rfl | hjb
        · exact Nat.le_refl _
        · have := (List.pairwise_append.mp hr).2.1
          exact Nat.le_of_lt ((List.pairwise_cons.mp this).1 j hjb)

/-- What the gain step can do: set the gain and emit it, or nothing (R165, R166). -/
theorem gainStep_cases (target : Gain) (now cutoff : Time) (s : State) :
    ((s.sch.gainCur ≠ some target ∧ elapsed now s.sch.gainLastSend cutoff = true) ∧
      gainStep target now cutoff s =
        (s.withSch { s.sch with gainCur := some target }).withEvents (s.events ++ [.gain (target.setWidth 64)])) ∨
    (¬(s.sch.gainCur ≠ some target ∧ elapsed now s.sch.gainLastSend cutoff = true) ∧
      gainStep target now cutoff s = s) := by
  by_cases h : s.sch.gainCur ≠ some target ∧ elapsed now s.sch.gainLastSend cutoff = true
  · exact .inl ⟨h, if_pos h⟩
  · exact .inr ⟨h, if_neg h⟩

/-- What a send does: the EvTxCmd and the push's events, the queue as the push leaves it, the time of the last send and
the sent entry; nothing else (R170, R171). -/
theorem emitEntry_eq (k : Key) (now : Time) (s : State) :
    ∃ (es : List Event) (q : List PulseTrain),
      emitEntry k now s =
        ((s.withSch { setSlot s.sch k (slotAfterSend (slotAt s.sch k) now) with gainLastSend := now }).withSyn
          { s.syn with queue := q }).withEvents
            (s.events ++ [.txCmd (packed64 (slotAt s.sch k).command)] ++ es) ∧
      synPush (pulsesOf s.cfg (frameSeq (slotAt s.sch k).command))
          (emit (.txCmd (packed64 (slotAt s.sch k).command)) s) =
        (s.withSyn { s.syn with queue := q }).withEvents
          (s.events ++ [.txCmd (packed64 (slotAt s.sch k).command)] ++ es) := by
  obtain ⟨es, q, e, -⟩ := synPush_cases (pulsesOf s.cfg (frameSeq (slotAt s.sch k).command))
    (emit (.txCmd (packed64 (slotAt s.sch k).command)) s)
  refine ⟨es, q, ?_, ?_⟩
  · unfold emitEntry txFrame
    simp only [emit_cfg]
    rw [e]
    rfl
  · rw [e]
    rfl

end Sys2Proof.Machine
end

