-- ==== Sys2Proof/Tests/Slice0.lean ====
section
/-! SUPPORT. Tests: expected values are those of spec/95_test_vectors.md (the id or section stands with each), and for
every statement with hypotheses a theorem `witness_...` that meets them all. -/

namespace Sys2Proof.Tests

open Sys2Proof Sys2Proof.Machine

/-! ## Well-formedness: each check refuses an ill-formed term (30_encoding.md R92, R95, R102) -/

theorem test_seq_of_65_bits_is_ill_formed : (Instr.codecDecode (.seq (List.replicate 65 false))).wellFormed = false := by
  decide

theorem test_encode_seq_of_65_bits_is_ill_formed :
    (Instr.encEncode (.seq (List.replicate 65 true))).wellFormed = false := by decide

theorem test_long_seq_of_64_is_ill_formed : (Instr.codecDecode (.tooLong 64)).wellFormed = false := by decide

theorem test_train_of_130_is_ill_formed :
    (Instr.synEnqueue (.train (List.replicate 130 ⟨true, 1⟩))).wellFormed = false := by decide +kernel

theorem test_long_train_of_129_is_ill_formed : (Instr.synEnqueue (.tooLong 129)).wellFormed = false := by decide

/-! ## Decoding: words of section 3.8, one for each constructor -/

/-- The sequence of a number's bits: position i is bit i (R92). -/
def bits (len n : Nat) : BitSeq := (List.range len).map n.testBit

theorem test_decode_nop : decodeTableWord 128 0x00000000000000000000000000000000 = some .nop := by decide +kernel

theorem test_decode_decPulse :
    decodeTableWord 128 0x00000000000000000000051400000101 = some (.decPulse true 1300) := by decide +kernel

theorem test_decode_decPulse_low :
    decodeTableWord 128 0x00000000000000000000025800000001 = some (.decPulse false 600) := by decide +kernel

theorem test_decode_decEnd : decodeTableWord 128 0x00000000000000000000000000000002 = some .decEnd := by decide +kernel

theorem test_decode_cksum : decodeTableWord 128 0x00000000000000000000645300000003 = some (.cksum 3 5 100) := by
  decide +kernel

theorem test_decode_codecEncode :
    decodeTableWord 128 0x000000000000ba280264050300000004 = some (.codecEncode 3 5 100 2 40 186) := by decide +kernel

/-- Frame A: the 1 bits are positions 3, 6, 10, 11, 14 and 27 (the note under section 3.8). -/
theorem test_decode_codecDecode : decodeTableWord 128 0x0000000008004c480000000000002105 =
    some (.codecDecode (.seq ((List.range 33).map fun i => decide (i ∈ [3, 6, 10, 11, 14, 27])))) := by decide +kernel

/-- P4: a BS request with len = 65 is malformed. -/
theorem test_decode_malformed_codecDecode :
    decodeTableWord 128 0x00000000000000000000000000004105 = some (.codecDecode (.tooLong 65)) := by decide +kernel

theorem test_decode_schSubmit : decodeTableWord 128 0x00000000000f42401232001000000006 =
    some (.schSubmit ⟨1, 2, 50, 0, 0, 16⟩ 1000000) := by decide +kernel

theorem test_decode_schTick : decodeTableWord 128 0x000000000010c8e00000000000000007 = some (.schTick 1100000) := by
  decide +kernel

theorem test_decode_encEncode :
    decodeTableWord 128 0x00000000000000010000000000000208 = some (.encEncode (.seq [true, false])) := by decide +kernel

theorem test_decode_synEnqueue : decodeTableWord 320
    0x00000001000000020000000000000002000000010000000200000000000000000000000000000309 =
    some (.synEnqueue (.train [⟨true, 2⟩, ⟨false, 2⟩, ⟨true, 2⟩])) := by decide +kernel

theorem test_decode_synFill : decodeTableWord 128 0x0000000000000000000007d00000000a = some (.synFill 2000) := by
  decide +kernel

theorem test_decode_cfgWrite : decodeTableWord 128 0x0000000000000007000000000000250b = some (.cfgWrite 0x25 7) := by
  decide +kernel

theorem test_decode_cfgRead : decodeTableWord 128 0x0000000000000000000000000000400c = some (.cfgRead 0x40) := by
  decide +kernel

theorem test_decode_reservedD : decodeTableWord 128 0x0000000000000000000000000000000d = some .reservedD := by
  decide +kernel

/-- T-SYS-ILL: the reserved bits W[7:4] do not matter. -/
theorem test_decode_reservedE : decodeTableWord 128 0x000000000000000000000000000000fe = some .reservedE := by
  decide +kernel

theorem test_decode_reset : decodeTableWord 128 0x0000000000000000000000000000000f = some .reset := by decide +kernel

/-- The encoder writes the words of section 3.8, the low half first. -/
theorem test_encode_schSubmit :
    encode (.schSubmit ⟨3, 5, 100, 2, 40, 186⟩ 1000000) = [0x3564a8ba00000006, 0x00000000000f4240] := by decide +kernel

/-- A stream that ends inside a request is rejected by name. -/
theorem test_decode_rejects_short_streams :
    decode [] = .error .noRequest ∧ decode [0x2] = .error .headerIncomplete ∧
      decode [0x109, 0] = .error (.pulseWordsMissing 1 0) := by decide +kernel

/-! ## States -/

/-- A written register. -/
def reg {w : Nat} (v : BitVec w) : CfgReg w := ⟨v, true⟩

/-- The configuration CFG_A of section 1.1. -/
def cfgA : CfgFile where
  decHelloMin := reg 1000
  decHelloMax := reg 1600
  decLowMin := reg 400
  decLowMax := reg 950
  decHighMax := reg 1600
  decSepMin := reg 500
  decSepMax := reg 950
  decCtrl := reg 0
  encHelloTime := reg 1300
  encBitLowTime := reg 600
  encBitHighTime := reg 1300
  encBitSepTime := reg 700
  synTrailTime := reg 2000
  synRateNum := reg 1
  synRateDen := reg 1
  synAmpHigh := reg 1
  synAmpLow := reg 0
  synAmpIdle := reg 0
  synQueueCap := reg 0
  synCtrl := reg 0
  schRepeatCount := reg 2
  schTbr := reg 100000
  schCutoff := reg 500000
  schGainActive := reg 30
  schGainInactive := reg 0

/-- Reset plus CFG_A. -/
def sA : State := State.reset.withCfg cfgA

/-- CFG_A with the buffer `q` in IN_MESSAGE. -/
def sMsg (q : BitSeq) : State := sA.withDec ⟨.inMessage, q, false⟩

/-- Frame A (section 1.2). -/
def frameA : Command := ⟨1, 2, 50, 0, 0, 16⟩

/-- CFG_A with frame A in its slot 0x21, as left by one send at 1000000 (R162). -/
def sEntry : State := sA.withSch (setSlot sA.sch 0x21 ⟨true, 1000000, 1, frameA⟩)

/-- CFG_A with `cap` for SYN_QUEUE_CAP and `ctrl` for SYN_CTRL. -/
def cfgQ (cap : BitVec 32) (ctrl : BitVec 2) : CfgFile := { cfgA with synQueueCap := reg cap, synCtrl := reg ctrl }

/-- A queue of one train under that configuration. -/
def sQ (cap : BitVec 32) (ctrl : BitVec 2) : State :=
  (sA.withCfg (cfgQ cap ctrl)).withSyn ⟨[[⟨true, 1⟩, ⟨false, 2000⟩]], [], 0, 0⟩

/-- What an operation outputs. -/
def events (o : Host.Outcome State Fault Refusal) : Option (List Event) :=
  match o with
  | .next t => some t.events
  | _ => none

/-- One part of the state an operation leaves. -/
def part {α : Type} (f : State → α) (o : Host.Outcome State Fault Refusal) : Option α :=
  match o with
  | .next t => some (f t)
  | _ => none

/-! ## One step of each instruction -/

theorem test_nop : events (exec .nop sA) = some [] := by decide +kernel

/-- T-DEC-AW: H1600, the upper bound of the hello window. -/
theorem test_decPulse_hello : part (·.dec) (exec (.decPulse true 1600) sA) = some ⟨.inMessage, [], false⟩ := by
  decide +kernel

/-- T-DEC-FWD: H5000 after '101' with DEC_CTRL = 1. -/
theorem test_decPulse_forwards_a_partial :
    events (exec (.decPulse true 5000) ((sMsg [true, false, true]).withCfg { cfgA with decCtrl := reg 1 })) =
      some [.diag .decLongHigh 0x0000030200001388, .rxSeq [true, false, true], .diag .codecLength 3] := by decide +kernel

/-- T-DEC-MISC: '101' at the end of a packet. -/
theorem test_decEnd : events (exec .decEnd (sMsg [true, false, true])) =
    some [.rxSeq [true, false, true], .diag .codecLength 3] := by decide +kernel

/-- P1: frame A is received as its data word. -/
theorem test_decEnd_frame : events (exec .decEnd (sMsg (bits 33 0x08004c48))) =
    some [.rxSeq (bits 33 0x08004c48), .rxCmd 0x12320010] := by decide +kernel

/-- R132's example and P4. -/
theorem test_cksum : events (exec (.cksum 1 2 50) sA) = some [.result (.word 16)] ∧
    events (exec (.cksum 3 5 100) sA) = some [.result (.word 186)] := by decide +kernel

/-- R141's example, frame A; its word is in section 3.8. -/
theorem test_codecEncode : events (exec (.codecEncode 1 2 50 0 0 16) sA) = some [.result (.seq (bits 33 0x08004c48))] := by
  decide +kernel

/-- P4: frame B, and with position 32 set. -/
theorem test_codecDecode : events (exec (.codecDecode (.seq (bits 33 0x5d1526ac))) sA) =
    some [.result (.word 0x3564a8ba)] := by decide +kernel

theorem test_codecDecode_trailing :
    events (exec (.codecDecode (.seq (bits 33 0x15d1526ac))) sA) = some [.diag .codecTrailing 0] := by decide +kernel

/-- R162's example. -/
theorem test_schSubmit : events (exec (.schSubmit frameA 1000000) sA) = some [.gain 30, .txCmd 0x12320010] ∧
    part (fun t => slotAt t.sch 0x21) (exec (.schSubmit frameA 1000000) sA) = some ⟨true, 1000000, 1, frameA⟩ := by
  decide +kernel

/-- R173's example: the last send removes the entry. -/
theorem test_schTick : part (fun t => (slotAt t.sch 0x21).valid) (exec (.schTick 1100000) sEntry) = some false ∧
    part (fun t => t.syn.queue.map List.length) (exec (.schTick 1100000) sEntry) = some [68] := by decide +kernel

/-- T-SCH-UNSET1: nothing written. -/
theorem test_schTick_unset : events (exec (.schTick 0) State.reset) = some [.diag .cfgUnset 0x20] := by decide +kernel

/-- R191's example. -/
theorem test_encEncode : events (exec (.encEncode (.seq [true, false])) State.reset) =
    some [.result (.train [⟨true, 1300⟩, ⟨false, 1300⟩, ⟨true, 700⟩, ⟨false, 600⟩, ⟨true, 700⟩])] := by decide +kernel

/-- R204's example. -/
theorem test_synEnqueue : part (·.syn.queue) (exec (.synEnqueue (.train [⟨true, 1000⟩])) sA) =
    some [[⟨true, 1000⟩, ⟨false, 2000⟩]] := by decide +kernel

/-- T-SYN-DROP: the first drop. -/
theorem test_synEnqueue_drop_oldest : events (exec (.synEnqueue (.train [⟨true, 3⟩])) (sQ 1 1)) =
    some [.diag .synQueueFull 0x8000000000000001] := by decide +kernel

/-- R212's example, step 2. -/
theorem test_synFill : events (exec (.synFill 2) (sA.withSyn ⟨[[⟨true, 3⟩, ⟨false, 2000⟩]], [], 0, 0⟩)) =
    some [.samples [1, 1]] := by decide +kernel

/-- P3: the second train preempts two pulses. -/
theorem test_synFill_preempts :
    events (exec (.synFill 6)
      (sA.withSyn ⟨[[⟨true, 1⟩, ⟨false, 2000⟩]], [⟨true, 2⟩, ⟨false, 2000⟩], 0, 1⟩)) =
      some [.diag .synPreempt 2, .samples [0, 1, 0, 0, 0, 0]] := by decide +kernel

/-- T-SYS-TRUNC. -/
theorem test_cfgWrite_truncates :
    part (fun t => t.cfg.get .synAmpHigh) (exec (.cfgWrite 0x23 0x12345) State.reset) = some 0x2345 := by decide +kernel

/-- T-SYS-INV. -/
theorem test_cfgWrite_invalid : events (exec (.cfgWrite 0x30 0x10000) State.reset) = some [.diag .cfgInvalid 0x30] := by
  decide +kernel

/-- R234's examples. -/
theorem test_cfgRead : events (exec (.cfgRead 0x13) State.reset) = some [.result (.word 700)] ∧
    events (exec (.cfgRead 0x31) State.reset) = some [.diag .cfgUnset 0x31] := by decide +kernel

theorem test_reservedD : events (exec .reservedD sA) = some [.diag .illegalOp 0xD] := by decide +kernel

theorem test_reservedE : events (exec .reservedE sA) = some [.diag .illegalOp 0xE] := by decide +kernel

/-- T-SYS-RST2: a written register has its reset value again. -/
theorem test_reset : part (fun t => t.cfg.get .encBitSepTime)
    (exec .reset (sA.withCfg { cfgA with encBitSepTime := reg 5 })) = some 700 := by decide +kernel

/-- T-SYN-MAL, as the first request after reset; its 130 pulse words are consumed. -/
theorem test_step_malformed_train :
    events (step (State.reset.withFetchWord 128 0x00000000000000000000000000008209)) =
      some [.diag .reqMalformed 0x8209] ∧
    part (·.requests) (step (State.reset.withFetchWord 128 0x00000000000000000000000000008209)) = some [] := by
  decide +kernel

/-! ## Witnesses: concrete states and operands that meet the hypotheses of the statements -/

theorem cfgA_set (r : RegName) : cfgA.isSet r = true := by cases r <;> rfl

theorem cfgA_setBetween (lo hi : Nat) : SetBetween cfgA lo hi := fun r _ _ => cfgA_set r

theorem cfgA_schedulerSet : SchedulerSet cfgA := ⟨cfgA_setBetween _ _, cfgA_setBetween _ _⟩

theorem cfgQ_setBetween (cap : BitVec 32) (ctrl : BitVec 2) (lo hi : Nat) : SetBetween (cfgQ cap ctrl) lo hi := by
  intro r _ _
  cases r <;> rfl

theorem cfgQ_schedulerSet (cap : BitVec 32) (ctrl : BitVec 2) : SchedulerSet (cfgQ cap ctrl) :=
  ⟨cfgQ_setBetween _ _ _ _, cfgQ_setBetween _ _ _ _⟩

/-! ### Requests -/

/-- The longest sequence and train, and the shortest malformed ones. -/
theorem witness_DecodeOfEncodeIsIdentity :
    (Instr.encEncode (.seq (List.replicate 64 true))).wellFormed = true ∧
    (Instr.codecDecode (.tooLong 65)).wellFormed = true ∧
    (Instr.synEnqueue (.train (List.replicate 129 ⟨true, 1⟩))).wellFormed = true ∧
    (Instr.synEnqueue (.tooLong 130)).wellFormed = true := by decide +kernel

theorem witness_DecodedInstructionIsWellFormed :
    decode [0x109, 0, 0x1000003e8, 7] = .ok (.synEnqueue (.train [⟨true, 1000⟩]), [7]) := by decide +kernel

theorem witness_RequestLengthFollowsFromHeader :
    (if (0x209#128).toNat % 16 = 0x9 then (0x209#128).toNat / 2 ^ 8 % 2 ^ 8 else 0) = [0#64, 0#64].length := by decide

theorem witness_ReservedBitsAreIgnored :
    SameNamedBits 0x109#128 0xF00000000000000000000000000001F9#128 ∧
    List.Forall₂ SamePulseBits [0x1000003e8#64] [0x80000001000003e8#64] ∧
    [0x1000003e8#64].length = pulseCount 0x109#128 := by
  refine ⟨?_, .cons ?_ .nil, by decide⟩
  · unfold SameNamedBits
    decide
  · unfold SamePulseBits
    decide

/-- At a boundary of format BS: the ignored positions of a sequence of 63 bits. -/
theorem witness_ReservedBitsAreIgnored_seq :
    SameNamedBits 0x00000000000000050000000000003f05#128 0x80000000000000050000000000003f05#128 := by
  unfold SameNamedBits
  decide +kernel

/-- Both sides of len = 64 and of count = 129. -/
theorem witness_RequestFieldsStandAtTheirBits :
    ((List.range 16).map fun op => (BitVec.ofNat 128 op).toNat % 16) = List.range 16 ∧
    (0x4005#128).toNat / 2 ^ 8 % 2 ^ 7 = 64 ∧ (0x4105#128).toNat / 2 ^ 8 % 2 ^ 7 = 65 ∧
    (0x8109#128).toNat % 16 = 0x9 ∧ (List.replicate 129 0#64).length = (0x8109#128).toNat / 2 ^ 8 % 2 ^ 8 ∧
    (0x8209#128).toNat % 16 = 0x9 ∧ (List.replicate 130 0#64).length = (0x8209#128).toNat / 2 ^ 8 % 2 ^ 8 := by
  decide +kernel

theorem witness_StepRunsTheDecodedInstruction :
    decode (State.reset.withFetchWord 128 0x2).requests = .ok (.decEnd, []) := by decide +kernel

theorem witness_StepWaitsForACompleteRequest :
    (State.reset.withRequests [0x2]).requests.length < 2 ∧
    (State.reset.withRequests [0x209, 0, 0]).requests = headerWords 0x209#128 ++ [0] ∧ (0x209#128).toNat % 16 = 0x9 ∧
    [0#64].length < (0x209#128).toNat / 2 ^ 8 % 2 ^ 8 := by decide

theorem witness_NopChangesNothing : (0xF0#128).toNat % 16 = 0x0 := by decide

theorem witness_ReservedOpcodesRaiseIllegalOp : (0xFD#128).toNat % 16 = 0xD ∧ (0xFE#128).toNat % 16 = 0xE := by decide

theorem witness_ResetOperationRestoresTheResetState : (0xFF#128).toNat % 16 = 0xF := by decide

theorem witness_MalformedRequestIsRaised :
    (0x4105#128).toNat % 16 = 0x5 ∧ 64 < (0x4105#128).toNat / 2 ^ 8 % 2 ^ 7 ∧
    (0x7f08#128).toNat % 16 = 0x8 ∧ 64 < (0x7f08#128).toNat / 2 ^ 8 % 2 ^ 7 ∧
    (0x8209#128).toNat % 16 = 0x9 ∧ 129 < (0x8209#128).toNat / 2 ^ 8 % 2 ^ 8 ∧
    (List.replicate 130 0#64).length = (0x8209#128).toNat / 2 ^ 8 % 2 ^ 8 := by decide +kernel

/-! ### System operations -/

/-- Clause 1 for the lowest register of the list, and for one that is not its first; clause 2 under CFG_A. -/
theorem witness_UnsetRegisterRefusesTheOperation :
    (needsReg (.decPulse true 1300) .decHelloMin ∧ State.reset.cfg.isSet .decHelloMin = false ∧
      ∀ r', needsReg (.decPulse true 1300) r' → State.reset.cfg.isSet r' = false →
        RegName.decHelloMin.addr.toNat ≤ r'.addr.toNat) ∧
    (needsReg (.schTick 0) .synTrailTime ∧ State.reset.cfg.isSet .synTrailTime = false ∧
      ∀ r', needsReg (.schTick 0) r' → State.reset.cfg.isSet r' = false →
        RegName.synTrailTime.addr.toNat ≤ r'.addr.toNat) ∧
    (∀ r, needsReg (.synFill 3) r → sA.cfg.isSet r = true) ∧ ∀ a, Instr.synFill 3 ≠ .cfgRead a := by
  refine ⟨⟨?_, rfl, ?_⟩, ⟨.inl rfl, rfl, ?_⟩, fun r _ => cfgA_set r, fun a h => (nomatch h)⟩
  · unfold needsReg
    decide
  · intro r' _ _
    exact Nat.zero_le _
  · intro r' h _
    rcases h with h | h
    · exact Nat.le_of_eq h.symm
    · exact Nat.le_trans (by decide) h.1

/-- Each clause at the bounds of its addresses; the refused 0 and the least value that is taken. -/
theorem witness_CfgWriteOutcome :
    (0x40 ≤ (0x40#8).toNat ∧ (0x40#8).toNat ≤ 0x45) ∧ (0x40 ≤ (0x45#8).toNat ∧ (0x45#8).toNat ≤ 0x45) ∧
    UnusedAddr (0x08#8).toNat ∧ UnusedAddr (0xFF#8).toNat ∧ ¬UnusedAddr (0x45#8).toNat ∧ UnusedAddr (0x46#8).toNat ∧
    RegName.synRateDen.addr = 0x22 ∧ (0x100000000#64).toNat % 2 ^ 32 = 0 ∧ (1#64).toNat % 2 ^ 32 ≠ 0 ∧
    RegName.schRepeatCount.addr = 0x30 ∧ (0x10000#64).toNat % 2 ^ 16 = 0 ∧ (1#64).toNat % 2 ^ 16 ≠ 0 := by
  unfold UnusedAddr
  decide

/-- The bounds of each unused range, and their used neighbours. -/
theorem witness_UnusedAddressesAreRefused :
    (∀ a ∈ [0x08, 0x0F, 0x14, 0x1F, 0x28, 0x2F, 0x35, 0x3F, 0x46, 0xFF], UnusedAddr a) ∧
    ∀ a ∈ [0x00, 0x07, 0x10, 0x13, 0x20, 0x27, 0x30, 0x34, 0x40, 0x45], ¬UnusedAddr a := by
  unfold UnusedAddr
  decide

/-- The clause on an unused address, at two bounds, and the header of a CFG_READ. -/
theorem witness_CfgReadOutcome :
    UnusedAddr (0x08#8).toNat ∧ UnusedAddr (0xFF#8).toNat ∧ (0x400c#128).toNat % 16 = 0xC := by
  unfold UnusedAddr
  decide

theorem witness_StatusRegistersShowTheLiveState :
    (sMsg (List.replicate 64 true)).dec.buf.length ≤ 64 ∧ (sQ 1 0).syn.queue.length < 2 ^ 32 ∧
    (sQ 1 0).syn.active.length < 2 ^ 32 ∧ 0x40 ≤ (0x40#8).toNat ∧ (0x45#8).toNat ≤ 0x45 := by decide

/-! ### The codec and the decoder -/

theorem witness_CksumIsTheXorOfTheMasks : (0x3#128).toNat % 16 = 0x3 := by decide

theorem witness_CodecEncodePacksTheMaskedFields : (0x4#128).toNat % 16 = 0x4 := by decide

theorem witness_CodecRoundTrip : exec (.codecEncode 1 2 50 0 0 16) sA =
    .next (sA.withEvents (sA.events ++ [.result (.seq (frameSeq frameA))])) := rfl

theorem witness_CodecOverflowIsNeverEmitted : ∃ t, exec (.codecDecode (.seq [])) sA = .next t := ⟨_, rfl⟩

theorem witness_PulseWhileAwaitingHello : SetBetween sA.cfg 0x00 0x06 ∧ sA.dec.state = .awaitingHello :=
  ⟨cfgA_setBetween _ _, rfl⟩

theorem witness_HighPulseInAMessage : SetBetween (sMsg [true]).cfg 0x00 0x06 ∧ (sMsg [true]).dec.state = .inMessage :=
  ⟨cfgA_setBetween _ _, rfl⟩

/-- A full buffer, where a bit is lost. -/
theorem witness_LowPulseInAMessage :
    SetBetween (sMsg (List.replicate 64 true)).cfg 0x00 0x06 ∧ (sMsg (List.replicate 64 true)).dec.state = .inMessage :=
  ⟨cfgA_setBetween _ _, rfl⟩

theorem witness_DecEndFlushesTheBuffer : (0x2#128).toNat % 16 = 0x2 ∧ sA.dec.Ok ∧ sA.dec.state = .awaitingHello :=
  ⟨by decide, ⟨by decide, fun _ => ⟨rfl, rfl⟩, by decide⟩, rfl⟩

/-- CFG_A with another encoder timing, a queued train and an event: what R119 leaves out of a packet's events. -/
def sOther : State :=
  ((sA.withCfg { cfgA with encHelloTime := reg 9 }).withSyn ⟨[[⟨true, 1⟩]], [], 0, 0⟩).withEvents [.gain 1]

theorem witness_PacketEventsDependOnlyOnPulsesAndWindows :
    sA.dec = ⟨.awaitingHello, [], false⟩ ∧ sOther.dec = ⟨.awaitingHello, [], false⟩ ∧
    ∀ r : RegName, r.addr.toNat ≤ 0x07 → sA.cfg.get r = sOther.cfg.get r ∧ sA.cfg.isSet r = sOther.cfg.isSet r := by
  refine ⟨rfl, rfl, fun r h => ?_⟩
  cases r <;> first | exact ⟨rfl, rfl⟩ | exact absurd h (by decide)

/-- CFG_A with the reset timings brackets the encoder (R121); the longest sequence. -/
theorem witness_LoopbackDeliversTheSequence :
    (List.replicate 64 true).length ≤ 64 ∧ sA.dec.state = .awaitingHello ∧ SetBetween sA.cfg 0x00 0x06 ∧
    sA.cfg.decHelloMin.value.toNat ≤ sA.cfg.encHelloTime.value.toNat ∧
    sA.cfg.encHelloTime.value.toNat ≤ sA.cfg.decHelloMax.value.toNat ∧
    sA.cfg.decLowMin.value.toNat ≤ sA.cfg.encBitLowTime.value.toNat ∧
    sA.cfg.encBitLowTime.value.toNat < sA.cfg.decLowMax.value.toNat ∧
    sA.cfg.decLowMax.value.toNat ≤ sA.cfg.encBitHighTime.value.toNat ∧
    sA.cfg.encBitHighTime.value.toNat ≤ sA.cfg.decHighMax.value.toNat ∧
    sA.cfg.decSepMin.value.toNat ≤ sA.cfg.encBitSepTime.value.toNat ∧
    sA.cfg.encBitSepTime.value.toNat ≤ sA.cfg.decSepMax.value.toNat ∧
    sA.cfg.decHighMax.value.toNat < sA.cfg.synTrailTime.value.toNat := by
  refine ⟨by decide, rfl, cfgA_setBetween _ _, ?_⟩
  decide

theorem witness_FrameTrainDuration :
    (frameSeq frameA).length = 33 ∧ sA.cfg.encHelloTime.value = 1300 ∧ sA.cfg.encBitLowTime.value = 600 ∧
    sA.cfg.encBitHighTime.value = 1300 ∧ sA.cfg.encBitSepTime.value = 700 := by decide

/-! ### The synthesizer -/

theorem witness_RoundingIsNearestTiesToEven : 1 ≤ 2 ∧ rhe 1 2 = 0 ∧ rhe 3 2 = 2 := by decide

/-- No bound; a bound of 2 with one train queued; and a depth of 2 with one train queued. -/
theorem witness_SynEnqueueOutcome_room :
    SetBetween sA.cfg 0x20 0x20 ∧ HasRoom sA ∧ HasRoom (sQ 2 0) ∧ HasRoom { sQ 0 0 with queueDepth := some 2 } := by
  refine ⟨cfgA_setBetween _ _, ⟨by decide, fun d h => (nomatch h)⟩, ⟨by decide, fun d h => (nomatch h)⟩, by decide, ?_⟩
  intro d h
  cases h
  decide

/-- A queue at its bound, under both policies; the bound from SYN_QUEUE_CAP and from QUEUE_DEPTH. -/
theorem witness_SynEnqueueOutcome_full :
    SetBetween (sQ 1 0).cfg 0x20 0x20 ∧ SetBetween (sQ 1 1).cfg 0x20 0x20 ∧ CapIs (sQ 1 0) 1 ∧ CapIs (sQ 1 1) 1 ∧
    CapIs { sQ 5 0 with queueDepth := some 1 } 1 ∧ 1 ≤ (sQ 1 0).syn.queue.length ∧
    (sQ 1 0).syn.queue.length < 2 ^ 32 ∧ ([] : PulseTrain).length < 2 ^ 32 - 1 ∧
    (sQ 1 0).cfg.synCtrl.value.toNat % 2 = 0 ∧ (sQ 1 1).cfg.synCtrl.value.toNat % 2 ≠ 0 := by
  refine ⟨cfgQ_setBetween _ _ _ _, cfgQ_setBetween _ _ _ _, ⟨by decide, fun d h => (nomatch h), by decide⟩,
    ⟨by decide, fun d h => (nomatch h), by decide⟩, ⟨by decide, ?_, by decide⟩, by decide, by decide, by decide,
    by decide, by decide⟩
  intro d h
  cases h
  decide

/-- Each case of R207: a segment in progress, a queued train, an active message, nothing; ORDER = 0. -/
theorem witness_SynFillQueueFirstCases :
    SetBetween sA.cfg 0x21 0x25 ∧ (1 : BitVec 32) ≠ 0 ∧ sA.cfg.synCtrl.value.toNat / 2 % 2 = 0 ∧
    (sA.withSyn ⟨[], [], 1, 1⟩).syn.rem ≠ 0 ∧ ((sQ 0 0).syn.rem = 0 ∧ (sQ 0 0).syn.queue ≠ []) ∧
    ((sA.withSyn ⟨[], [⟨true, 0⟩], 0, 0⟩).syn.rem = 0 ∧ (sA.withSyn ⟨[], [⟨true, 0⟩], 0, 0⟩).syn.queue = [] ∧
      (sA.withSyn ⟨[], [⟨true, 0⟩], 0, 0⟩).syn.active ≠ []) ∧
    sA.syn.rem = 0 ∧ sA.syn.queue = [] ∧ sA.syn.active = [] := by
  refine ⟨cfgA_setBetween _ _, ?_⟩
  decide

/-- The same with ORDER = 1; in the second case a train is queued too. -/
theorem witness_SynFillActiveFirstCases :
    SetBetween (sQ 0 2).cfg 0x21 0x25 ∧ (1 : BitVec 32) ≠ 0 ∧ (sQ 0 2).cfg.synCtrl.value.toNat / 2 % 2 = 1 ∧
    ((sQ 0 2).withSyn ⟨[], [], 1, 1⟩).syn.rem ≠ 0 ∧
    (((sQ 0 2).withSyn ⟨[[⟨true, 1⟩]], [⟨true, 0⟩], 0, 0⟩).syn.rem = 0 ∧
      ((sQ 0 2).withSyn ⟨[[⟨true, 1⟩]], [⟨true, 0⟩], 0, 0⟩).syn.active ≠ []) ∧
    ((sQ 0 2).syn.rem = 0 ∧ (sQ 0 2).syn.active = [] ∧ (sQ 0 2).syn.queue ≠ []) ∧
    ((sQ 0 2).withSyn ⟨[], [], 0, 0⟩).syn.queue = [] := by
  refine ⟨cfgQ_setBetween _ _ _ _, ?_⟩
  decide

theorem witness_SynFillEmitsExactlyNSamples : SetBetween (sQ 0 0).cfg 0x21 0x25 := cfgQ_setBetween _ _ _ _

/-- ORDER = 1 with a train queued. -/
theorem witness_ActiveFirstPlaysEveryTrainInFull :
    SetBetween (sQ 0 2).cfg 0x21 0x25 ∧ (sQ 0 2).cfg.synCtrl.value.toNat / 2 % 2 = 1 :=
  ⟨cfgQ_setBetween _ _ _ _, by decide⟩

/-- The two lengths at the bound of their sum. -/
theorem witness_SynFillSplitsAcrossCalls :
    SetBetween (sQ 0 0).cfg 0x21 0x25 ∧ (0xFFFFFFFE#32).toNat + (1#32).toNat < 2 ^ 32 :=
  ⟨cfgQ_setBetween _ _ _ _, by decide⟩

theorem witness_IdleFillChangesNothing :
    SetBetween sA.cfg 0x21 0x25 ∧ sA.syn.queue = [] ∧ sA.syn.active = [] ∧ sA.syn.rem = 0 :=
  ⟨cfgA_setBetween _ _, rfl, rfl, rfl⟩

/-! ### The scheduler -/

theorem sEntry_other {j : Key} (h : j ≠ 0x21) : (slotAt sEntry.sch j).valid = false := by
  have e : slotAt sEntry.sch j = slotAt sA.sch j := by
    simp only [sEntry, State.withSch, slotAt, setSlot]
    rw [Vector.getElem_set_ne]
    exact fun e => h (BitVec.eq_of_toNat_eq e.symm)
  rw [e]
  simp [sA, State.withCfg, State.reset, Scheduler.reset, slotAt, Slot.reset]

/-- One time unit before the entry is old enough. -/
theorem witness_TickWithNothingEligible : SchedulerSet sEntry.cfg ∧ ∀ k, ¬Eligible sEntry 1099999 k := by
  refine ⟨cfgA_schedulerSet, fun k h => ?_⟩
  by_cases hk : k = 0x21
  · subst hk
    exact absurd h.2 (by decide +kernel)
  · exact absurd h.1 (by simp [sEntry_other hk])

theorem sEntry_selected (s : State) (hs : s.sch = sEntry.sch) (hc : s.cfg.schTbr = sEntry.cfg.schTbr) :
    Selected s 1100000 0x21 := by
  refine ⟨⟨?_, ?_⟩, fun j h => ?_⟩
  · rw [hs]
    decide +kernel
  · rw [hs, hc]
    decide +kernel
  · by_cases hj : j = 0x21
    · subst hj
      exact .inr ⟨rfl, Nat.le_refl _⟩
    · exact absurd h.1 (by rw [hs]; simp [sEntry_other hj])

/-- With room, at the first time at which the entry is old enough. -/
theorem witness_TickSendsTheOldestEntry_room :
    SchedulerSet sEntry.cfg ∧ Selected sEntry 1100000 0x21 ∧ (slotAt sEntry.sch 0x21).repeats ≠ 0 ∧ HasRoom sEntry :=
  ⟨cfgA_schedulerSet, sEntry_selected _ rfl rfl, by decide +kernel, by decide +kernel, fun d h => (nomatch h)⟩

theorem witness_TickSendsTheOldestEntry_full :
    SchedulerSet ((sQ 1 0).withSch sEntry.sch).cfg ∧ Selected ((sQ 1 0).withSch sEntry.sch) 1100000 0x21 ∧
    (slotAt ((sQ 1 0).withSch sEntry.sch).sch 0x21).repeats ≠ 0 ∧ CapIs ((sQ 1 0).withSch sEntry.sch) 1 ∧
    1 ≤ ((sQ 1 0).withSch sEntry.sch).syn.queue.length ∧
    ((sQ 1 0).withSch sEntry.sch).cfg.synCtrl.value.toNat % 2 = 0 :=
  ⟨cfgQ_schedulerSet _ _, sEntry_selected _ rfl rfl, by decide +kernel,
    ⟨by decide +kernel, fun d h => (nomatch h), .inl (by decide +kernel)⟩, by decide +kernel, by decide +kernel⟩

theorem witness_SubmitReplacesTheEntryThenPasses : SchedulerSet sEntry.cfg := cfgA_schedulerSet

theorem witness_AtMostOneSendPerOperation : ∃ c now, Instr.schSubmit frameA 7 = .schSubmit c now := ⟨_, _, rfl⟩

/-- One repeat left, and one tick at the first time at which the entry is old enough. -/
theorem witness_EntryIsSentRepeatCountTimes :
    SchedulerSet sEntry.cfg ∧ (slotAt sEntry.sch 0x21).valid = true ∧
    (∀ j, j ≠ 0x21 → (slotAt sEntry.sch j).valid = false) ∧ [(1100000 : Time)] ≠ [] ∧
    [(1100000 : Time)].length = (slotAt sEntry.sch 0x21).repeats.toNat ∧
    Spaced sEntry.cfg.schTbr.value.toNat (slotAt sEntry.sch 0x21).lastSent.toNat [1100000] := by
  refine ⟨cfgA_schedulerSet, by decide +kernel, fun j h => sEntry_other h, by decide, by decide +kernel, ?_, trivial⟩
  decide +kernel

/-! ### The whole machine -/

theorem witness_EachPartHasItsWriters :
    exec .nop sA = .next sA ∧ writesDec .nop = false ∧ writesSch .nop = false ∧ writesSyn .nop = false ∧
    writesCfg .nop = false := ⟨rfl, rfl, rfl, rfl, rfl⟩

/-- A CKSUM that emits its EvResult. -/
theorem witness_EachEventHasItsEmitters :
    exec (.cksum 1 2 50) sA = .next (sA.withEvents [.result (.word 16)]) ∧
    opcodeOf (.cksum 1 2 50) ∈ emitters (.result (.word 16)) := ⟨rfl, by decide⟩

theorem witness_RaiseIsTheOnlyEffect :
    exec .reservedD sA = .next (raise .illegalOp 0xD sA) ∧
    (raise .illegalOp 0xD sA).events = sA.events ++ [.diag .illegalOp 0xD] ∧
    Event.diag .illegalOp 0xD ∈ [Event.diag .illegalOp 0xD] ∧ isRaiseCode .illegalOp = true := by
  refine ⟨rfl, rfl, ?_, rfl⟩
  simp

theorem witness_EventStreamOnlyGrows : step State.reset = .next State.reset := rfl

/-- The invariant's premise holds in a state with a valid entry and a queued train. -/
theorem witness_EveryStepKeepsTheInvariant : ((sQ 1 0).withSch sEntry.sch).Inv ∧
    step ((sQ 1 0).withSch sEntry.sch) = .next ((sQ 1 0).withSch sEntry.sch) := by
  refine ⟨⟨⟨by decide, fun _ => ⟨rfl, rfl⟩, by decide⟩, fun k h => ?_, ⟨fun t h => ?_, by decide⟩, ⟨?_, ?_, ?_⟩,
    fun d h => (nomatch h)⟩, rfl⟩
  · by_cases hk : k = 0x21
    · subst hk
      exact ⟨by decide +kernel, by decide +kernel⟩
    · exact absurd h (by rw [show ((sQ 1 0).withSch sEntry.sch).sch = sEntry.sch from rfl, sEntry_other hk]; simp)
  · rcases List.mem_singleton.mp h with rfl
    exact ⟨by decide, [⟨true, 1⟩], 2000, rfl⟩
  · decide
  · decide
  · decide

/-- Frame B (chan 5, group 3), submitted beside the entry of frame A; a tick and a SCH_SUBMIT of frame A follow. -/
theorem witness_EntryAmongOthersIsSentRepeatCountTimes :
    ((sQ 1 0).withSch sEntry.sch).Inv ∧ SchedulerSet ((sQ 1 0).withSch sEntry.sch).cfg ∧
    ∀ i ∈ [Instr.schTick 1100000, .schSubmit frameA 1200000], i ≠ .reset ∧
      ∀ c' now', i = .schSubmit c' now' → ¬(c'.chan = 5 ∧ c'.group = 3) := by
  refine ⟨witness_EveryStepKeepsTheInvariant.1, cfgQ_schedulerSet _ _, fun i hi => ?_⟩
  rcases List.mem_pair.mp hi with rfl | rfl
  · exact ⟨fun h => (nomatch h), fun _ _ h => (nomatch h)⟩
  · refine ⟨fun h => (nomatch h), fun c' now' h => ?_⟩
    cases h
    decide

end Sys2Proof.Tests
end

/-! SUPPORT. The configuration address map and the status registers (10_state.md R42, R43): what CFG_WRITE and CFG_READ
do at an unused address and at a status register, and the number each status register shows. -/

namespace Sys2Proof.Machine

/-! ## The address map -/

/-- An address names a status register only if it is that register's own. -/
theorem addr_of_cfgTarget_status {a : BitVec 8} {st : StatusName} (h : cfgTarget a = .status st) : a = st.addr := by
  unfold cfgTarget at h
  split at h
  · cases h
  · split at h
    · next st' hf =>
      cases h
      have hst := List.find?_some hf
      exact (beq_iff_eq.mp hst).symm
    · cases h

/-- An address names nothing exactly when it is no register's (R43). -/
theorem cfgTarget_eq_unused_iff (a : BitVec 8) :
    cfgTarget a = .unused ↔ (∀ r : RegName, r.addr ≠ a) ∧ ∀ st : StatusName, st.addr ≠ a := by
  constructor
  · intro h
    constructor
    · rintro r rfl
      simp at h
    · rintro st rfl
      simp at h
  · rintro ⟨hreg, hstatus⟩
    rcases ht : cfgTarget a with r | st | _
    · exact absurd (addr_of_cfgTarget ht).symm (hreg r)
    · exact absurd (addr_of_cfgTarget_status ht).symm (hstatus st)
    · rfl

/-- No writable register's address lies in an unused range (R31 to R41, R43). -/
theorem not_unusedAddr_regAddr (r : RegName) : ¬UnusedAddr r.addr.toNat := by
  cases r <;> simp [UnusedAddr, RegName.addr]

/-- The status registers' addresses are 0x40 to 0x45 (R42). -/
theorem statusAddr_bounds (st : StatusName) : 0x40 ≤ st.addr.toNat ∧ st.addr.toNat ≤ 0x45 := by
  cases st <;> decide

/-- Every address from 0x40 to 0x45 is a status register's (R42). -/
theorem exists_statusAddr {a : BitVec 8} (hlo : 0x40 ≤ a.toNat) (hhi : a.toNat ≤ 0x45) :
    ∃ st : StatusName, st.addr = a := by
  by_contra hne
  have hall : ∀ st : StatusName, st.addr.toNat ≠ a.toNat := fun st h => hne ⟨st, BitVec.eq_of_toNat_eq h⟩
  have h0 := hall .statDec
  have h1 := hall .statSyn
  have h2 := hall .statSynRem
  have h3 := hall .statSch
  have h4 := hall .statGainVal
  have h5 := hall .statGainLast
  simp only [StatusName.addr, BitVec.reduceToNat] at h0 h1 h2 h3 h4 h5
  omega

/-- The unused ranges of R43 are exactly the addresses of no register. -/
theorem unusedAddr_iff (a : BitVec 8) :
    UnusedAddr a.toNat ↔ (∀ r : RegName, r.addr ≠ a) ∧ ∀ st : StatusName, st.addr ≠ a := by
  constructor
  · intro h
    constructor
    · rintro r rfl
      exact not_unusedAddr_regAddr r h
    · rintro st rfl
      have := statusAddr_bounds st
      unfold UnusedAddr at h
      omega
  · rintro ⟨hreg, hstatus⟩
    have hregs : ∀ r ∈ allRegs, a.toNat ≠ r.addr.toNat := fun r _ h => hreg r (BitVec.eq_of_toNat_eq h.symm)
    have hnostatus : ¬(0x40 ≤ a.toNat ∧ a.toNat ≤ 0x45) := fun ⟨hlo, hhi⟩ =>
      (exists_statusAddr hlo hhi).elim hstatus
    simp only [allRegs, List.forall_mem_cons, RegName.addr, BitVec.reduceToNat] at hregs
    have := a.isLt
    unfold UnusedAddr
    omega

/-- An address in an unused range names nothing (R43). -/
theorem cfgTarget_of_unusedAddr {a : BitVec 8} (h : UnusedAddr a.toNat) : cfgTarget a = .unused :=
  (cfgTarget_eq_unused_iff a).mpr ((unusedAddr_iff a).mp h)

/-! ## CFG_WRITE and CFG_READ off the writable registers -/

/-- CFG_WRITE of an unused address is refused with CFG_BAD_ADDR and changes nothing else (R43, R232). -/
theorem exec_cfgWrite_unused (s : State) {a : BitVec 8} (v : BitVec 64) (h : UnusedAddr a.toNat) :
    exec (.cfgWrite a v) s = .next (s.withEvents (s.events ++ [.diag .cfgBadAddr (BitVec.ofNat 64 a.toNat)])) := by
  simp only [exec, execCfgWrite, cfgWriteReg, cfgTarget_of_unusedAddr h, raise_eq, BitVec.ofNat_toNat]

/-- CFG_READ of an unused address is refused with CFG_BAD_ADDR and changes nothing else (R43, R234). -/
theorem exec_cfgRead_unused (s : State) {a : BitVec 8} (h : UnusedAddr a.toNat) :
    exec (.cfgRead a) s = .next (s.withEvents (s.events ++ [.diag .cfgBadAddr (BitVec.ofNat 64 a.toNat)])) := by
  simp only [exec, execCfgRead, cfgReadReg, cfgTarget_of_unusedAddr h, raise_eq, BitVec.ofNat_toNat]

/-- CFG_WRITE of a status register is refused with CFG_READONLY and changes nothing else (R42, R232). -/
theorem exec_cfgWrite_status (s : State) (st : StatusName) (v : BitVec 64) :
    exec (.cfgWrite st.addr v) s =
      .next (s.withEvents (s.events ++ [.diag .cfgReadonly (BitVec.ofNat 64 st.addr.toNat)])) := by
  simp only [exec, execCfgWrite, cfgWriteReg, cfgTarget_status, raise_eq, BitVec.ofNat_toNat]

/-- CFG_READ of a status register emits its live value and changes nothing else (R234). -/
theorem exec_cfgRead_status (s : State) (st : StatusName) :
    exec (.cfgRead st.addr) s = .next (s.withEvents (s.events ++ [.result (.word (statusValue s st))])) := by
  simp only [exec, execCfgRead, cfgReadReg, cfgTarget_status, emit]

/-- CFG_READ of a status register emits any number that stands for its live value (R234). -/
theorem exec_cfgRead_status_of_eq {s : State} {st : StatusName} {n : Nat} (h : statusValue s st = BitVec.ofNat 64 n) :
    exec (.cfgRead st.addr) s = .next (s.withEvents (s.events ++ [.result (.word (BitVec.ofNat 64 n))])) := by
  rw [exec_cfgRead_status, h]

/-! ## The numbers in the status registers -/

/-- Two fields put together, as a number. -/
theorem append_toNat_eq_add {n k : Nat} (x : BitVec n) (y : BitVec k) :
    (x ++ y).toNat = x.toNat * 2 ^ k + y.toNat := by
  rw [BitVec.toNat_append, ← Nat.shiftLeft_add_eq_or_of_lt y.isLt, Nat.shiftLeft_eq]

/-- At most every slot is valid (R27). -/
theorem validCount_le (c : Scheduler) : validCount c ≤ 256 := by
  unfold validCount
  exact List.countP_le_length.trans_eq List.length_range

/-- `S.dec_state` as a number: 1 is IN_MESSAGE (R24). -/
theorem DecState.bit_toNat (d : DecState) : d.bit.toNat = if d = .inMessage then 1 else 0 := by
  cases d <;> rfl

/-- gain_valid as a number: 0 is NONE (R28). -/
theorem gainValid_toNat (c : Scheduler) : (gainValid c).toNat = if c.gainCur = none then 0 else 1 := by
  unfold gainValid
  cases c.gainCur <;> rfl

/-- The fields of STAT_DEC, for a buffer within BITBUF_CAP (R25, R42). -/
theorem statDec_eq (d : Decoder) (h : d.buf.length ≤ 64) :
    statDec d =
      BitVec.ofNat 64 ((if d.state = .inMessage then 1 else 0) + d.buf.length * 2 ^ 8 + d.ovf.toNat * 2 ^ 16) := by
  rw [← DecState.bit_toNat]
  apply BitVec.eq_of_toNat_eq
  have := d.state.bit.isLt
  have := d.ovf.toNat_lt
  simp only [statDec, append_toNat_eq_add, BitVec.toNat_ofNat, BitVec.toNat_ofBool]
  omega

/-- The fields of STAT_SYN, for counts that fit them (R42). -/
theorem statSyn_eq (y : Synth) (hq : y.queue.length < 2 ^ 32) (ha : y.active.length < 2 ^ 32) :
    statSyn y = BitVec.ofNat 64 (y.queue.length + y.active.length * 2 ^ 32) := by
  apply BitVec.eq_of_toNat_eq
  simp only [statSyn, append_toNat_eq_add, count32_toNat hq, count32_toNat ha, BitVec.toNat_ofNat]
  omega

/-- The fields of STAT_SCH (R42). -/
theorem statSch_eq (c : Scheduler) :
    statSch c = BitVec.ofNat 64 (validCount c + if c.gainCur = none then 0 else 2 ^ 16) := by
  apply BitVec.eq_of_toNat_eq
  have := validCount_le c
  simp only [statSch, append_toNat_eq_add, validSlots_eq, BitVec.toNat_ofNat, BitVec.toNat_ofBool, gainValid_toNat]
  split <;> omega

/-- STAT_GAIN_VAL is the gain, and 0 for NONE (R42). -/
theorem statGainVal_eq (c : Scheduler) : statGainVal c = BitVec.ofNat 64 (c.gainCur.getD 0).toNat := by
  apply BitVec.eq_of_toNat_eq
  have := (c.gainCur.getD 0).isLt
  simp only [statGainVal, append_toNat_eq_add, BitVec.toNat_ofNat]
  omega

/-! ## The obligations -/

/-- Settles O15: an unused address names nothing, so both operations end in the same raise. -/
theorem unusedAddressesAreRefused : Obligations.UnusedAddressesAreRefused :=
  ⟨unusedAddr_iff, fun s _ v h => ⟨exec_cfgWrite_unused s v h, exec_cfgRead_unused s h⟩⟩

/-- Settles O17: each read is the register's live value, whose fields are those of its `stat..._eq` lemma. -/
theorem statusRegistersShowTheLiveState : Obligations.StatusRegistersShowTheLiveState := by
  unfold Obligations.StatusRegistersShowTheLiveState
  refine ⟨fun s => ⟨fun hbuf => ?dec, ⟨(statSyn s.syn).toNat, ?syn⟩, fun hq ha => ?synFields, ?synRem, ?sch,
    ?gainVal, ?gainLast⟩, fun s a v hlo hhi => ?write⟩
  case dec => exact exec_cfgRead_status_of_eq (st := .statDec) (statDec_eq s.dec hbuf)
  case syn => exact exec_cfgRead_status_of_eq (st := .statSyn) (by simp [statusValue])
  case synFields => exact exec_cfgRead_status_of_eq (st := .statSyn) (statSyn_eq s.syn hq ha)
  case synRem => exact exec_cfgRead_status_of_eq (st := .statSynRem) (by simp [statusValue])
  case sch => exact exec_cfgRead_status_of_eq (st := .statSch) (statSch_eq s.sch)
  case gainVal =>
    refine exec_cfgRead_status_of_eq (st := .statGainVal) ((statGainVal_eq s.sch).trans ?_)
    cases s.sch.gainCur <;> rfl
  case gainLast => exact exec_cfgRead_status_of_eq (st := .statGainLast) (by simp [statusValue])
  case write =>
    obtain ⟨st, rfl⟩ := exists_statusAddr hlo hhi
    exact exec_cfgWrite_status s st v

end Sys2Proof.Machine

/-! SUPPORT. A step on the request at the front of the stream, the operands as numbers of their header's bits, and what
the bits that a format does not name can do: 30_encoding.md R86 to R102. -/

namespace Sys2Proof.Machine

/-! ## The request at the front of the stream -/

/-- A complete request decodes to the instruction of its header and its pulse words, and the rest of the stream is left
(R86). -/
theorem decode_request {w : Header} {pws : List Word} (rest : List Word) (h : pws.length = pulseCount w) :
    decode (headerWords w ++ pws ++ rest) = .ok (instrOf w pws, rest) := by
  have hlen : ¬(pws ++ rest).length < pulseCount w := by
    rw [List.length_append]
    omega
  rw [List.append_assoc, decode_headerWords, if_neg hlen, ← h, List.take_left, List.drop_left]

/-- No op code but 0x9 has pulse words (R86). -/
theorem pulseCount_of_op_ne {w : Header} (h : w.toNat % 16 ≠ 0x9) : pulseCount w = 0 := by
  rw [pulseCount_eq, if_neg h]

/-- SYN_ENQUEUE has as many pulse words as its count W[15:8] says (R86, R95). -/
theorem pulseCount_synEnqueue {w : Header} (h : w.toNat % 16 = 0x9) : pulseCount w = w.toNat / 2 ^ 8 % 2 ^ 8 := by
  rw [pulseCount_eq, if_pos h]

/-- A request of any op code but 0x9 is its header alone (R86). -/
theorem decode_header {w : Header} (rest : List Word) (h : w.toNat % 16 ≠ 0x9) :
    decode (headerWords w ++ rest) = .ok (instrOf w [], rest) := by
  simpa using decode_request (pws := []) rest (pulseCount_of_op_ne h).symm

/-- A step performs the decoded instruction on the state with its request taken (R68, R86). -/
theorem step_of_decode {s : State} {ws : List Word} {i : Instr} {rest : List Word} (h : decode ws = .ok (i, rest)) :
    step (s.withRequests ws) = exec i (s.withRequests rest) := by
  simp [step, fetch, h]

/-- A step on a request of any op code but 0x9. -/
theorem step_header (s : State) {w : Header} (rest : List Word) (h : w.toNat % 16 ≠ 0x9) :
    step (s.withRequests (headerWords w ++ rest)) = exec (instrOf w []) (s.withRequests rest) :=
  step_of_decode (decode_header rest h)

/-! ## Fields as numbers -/

/-- The field of a given width at a given lowest bit, as a number. -/
theorem extractLsb'_eq_ofNat_div {n : Nat} (x : BitVec n) (lo width : Nat) :
    x.extractLsb' lo width = BitVec.ofNat width (x.toNat / 2 ^ lo) := by
  rw [BitVec.extractLsb', Nat.shiftRight_eq_div_pow]

/-- A pulse's fields in its pulse word (R95). -/
theorem pulseOfWord_eq_mk (p : Word) : pulseOfWord p = ⟨p.getLsbD 32, BitVec.ofNat 32 p.toNat⟩ := by
  simp [pulseOfWord, extractLsb'_eq_ofNat_div]

/-- A field of a field is a field of the whole, for one that lies inside it. -/
theorem extractLsb'_extractLsb'_add {n : Nat} (x : BitVec n) {lo width lo' width' : Nat} (h : lo' + width' ≤ width) :
    (x.extractLsb' lo width).extractLsb' lo' width' = x.extractLsb' (lo + lo') width' := by
  apply BitVec.eq_of_getLsbD_eq
  intro i hi
  have hin : lo' + i < width := by omega
  simp [hi, hin, Nat.add_assoc]

/-- The fields of the Command in a header's data word D = W[63:32] (R93, R99). -/
theorem commandOfData_field (w : Header) :
    commandOfData (w.extractLsb' 32 32) =
      { group := w.extractLsb' 60 4, chan := w.extractLsb' 56 4, brightness := w.extractLsb' 48 8,
        cmd := w.extractLsb' 46 2, color := w.extractLsb' 40 6, cksum := w.extractLsb' 32 8 } := by
  simp [commandOfData, extractLsb'_extractLsb'_add]

/-- The len of a BS header, as a number (R92). -/
theorem seqLen_toNat (w : Header) : (w.extractLsb' 8 7).toNat = w.toNat / 2 ^ 8 % 2 ^ 7 := by
  rw [extractLsb'_eq_ofNat_div, BitVec.toNat_ofNat]

/-- The count of a TR header, as a number (R95). -/
theorem trainCount_toNat (w : Header) : (w.extractLsb' 8 8).toNat = w.toNat / 2 ^ 8 % 2 ^ 8 := by
  rw [extractLsb'_eq_ofNat_div, BitVec.toNat_ofNat]

/-- A len of at most 64 gives a sequence whose position i is W[64 + i] (R92). -/
theorem seqOperand_of_le {w : Header} (h : w.toNat / 2 ^ 8 % 2 ^ 7 ≤ 64) :
    seqOperand w = .seq ((List.range (w.toNat / 2 ^ 8 % 2 ^ 7)).map fun i => w.getLsbD (64 + i)) := by
  have hpos : seqOfBits (w.toNat / 2 ^ 8 % 2 ^ 7) (w.extractLsb' 64 64) =
      (List.range (w.toNat / 2 ^ 8 % 2 ^ 7)).map fun i => w.getLsbD (64 + i) := by
    apply List.map_congr_left
    intro i hi
    have hi64 : i < 64 := (List.mem_range.mp hi).trans_le h
    simp [hi64]
  simp only [seqOperand, Config.seqCap, seqLen_toNat, if_neg h.not_gt, hpos]

/-- A len above 64 is malformed (R92, R102). -/
theorem seqOperand_of_gt {w : Header} (h : 64 < w.toNat / 2 ^ 8 % 2 ^ 7) :
    seqOperand w = .tooLong (w.extractLsb' 8 7) := by
  simp only [seqOperand, Config.seqCap, seqLen_toNat, if_pos h]

/-- A count of at most 129 gives the train of the pulse words (R95). -/
theorem trainOperand_of_le {w : Header} (pws : List Word) (h : w.toNat / 2 ^ 8 % 2 ^ 8 ≤ 129) :
    trainOperand w pws = .train (pws.map pulseOfWord) := by
  simp only [trainOperand, Config.trainCap, trainCount_toNat, if_neg h.not_gt]

/-- A count above 129 is malformed (R95, R102). -/
theorem trainOperand_of_gt {w : Header} (pws : List Word) (h : 129 < w.toNat / 2 ^ 8 % 2 ^ 8) :
    trainOperand w pws = .tooLong (w.extractLsb' 8 8) := by
  simp only [trainOperand, Config.trainCap, trainCount_toNat, if_pos h]

/-! ## Requests that are refused -/

/-- The op code and the value in the argument of REQ_MALFORMED (R102, R261). -/
theorem malformedArg_eq (op : BitVec 4) (value : BitVec 8) :
    malformedArg op value = BitVec.ofNat 64 (value.toNat * 2 ^ 8 + op.toNat) := by
  apply BitVec.eq_of_toNat_eq
  have := value.isLt
  have := op.isLt
  simp only [malformedArg, append_toNat_eq_add, BitVec.toNat_ofNat]
  omega

/-- CODEC_DECODE of a malformed operand raises REQ_MALFORMED and changes nothing else (R102). -/
theorem exec_codecDecode_tooLong (len : BitVec 7) (s : State) :
    exec (.codecDecode (.tooLong len)) s =
      .next (s.withEvents (s.events ++ [.diag .reqMalformed (BitVec.ofNat 64 (len.toNat * 2 ^ 8 + 0x5))])) := by
  simp only [exec, execCodecDecode, withSeq, raise_eq, malformedArg_eq, BitVec.toNat_setWidth_of_le, Nat.reduceLeDiff,
    BitVec.reduceToNat]

/-- ENC_ENCODE of a malformed operand raises REQ_MALFORMED and changes nothing else (R102). -/
theorem exec_encEncode_tooLong (len : BitVec 7) (s : State) :
    exec (.encEncode (.tooLong len)) s =
      .next (s.withEvents (s.events ++ [.diag .reqMalformed (BitVec.ofNat 64 (len.toNat * 2 ^ 8 + 0x8))])) := by
  simp only [exec, execEncEncode, withSeq, raise_eq, malformedArg_eq, BitVec.toNat_setWidth_of_le, Nat.reduceLeDiff,
    BitVec.reduceToNat]

/-- SYN_ENQUEUE of a malformed operand raises REQ_MALFORMED and changes nothing else (R102). -/
theorem exec_synEnqueue_tooLong (count : BitVec 8) (s : State) :
    exec (.synEnqueue (.tooLong count)) s =
      .next (s.withEvents (s.events ++ [.diag .reqMalformed (BitVec.ofNat 64 (count.toNat * 2 ^ 8 + 0x9))])) := by
  simp only [exec, execSynEnqueue, withTrain, raise_eq, malformedArg_eq, BitVec.reduceToNat]

/-- Op code 0xD raises ILLEGAL_OP and changes nothing else (R100). -/
theorem exec_reservedD (s : State) :
    exec .reservedD s = .next (s.withEvents (s.events ++ [.diag .illegalOp 0xD])) := rfl

/-- Op code 0xE raises ILLEGAL_OP and changes nothing else (R100). -/
theorem exec_reservedE (s : State) :
    exec .reservedE s = .next (s.withEvents (s.events ++ [.diag .illegalOp 0xE])) := rfl

/-! ## Reserved bits -/

/-- Two words that agree on the bits of a field have the same field. -/
theorem extractLsb'_congr {n lo width : Nat} {x y : BitVec n}
    (h : ∀ i < width, x.getLsbD (lo + i) = y.getLsbD (lo + i)) : x.extractLsb' lo width = y.extractLsb' lo width := by
  apply BitVec.eq_of_getLsbD_eq
  intro i hi
  simp only [BitVec.getLsbD_extractLsb', h i hi]

/-- The op code is a named field of every format. -/
theorem SameNamedBits.op_eq {w w' : Header} (h : SameNamedBits w w') : w'.toNat % 16 = w.toNat % 16 := by
  have hop : w.extractLsb' 0 4 = w'.extractLsb' 0 4 := extractLsb'_congr (h (0, 4) List.mem_cons_self)
  rw [← opcode_toNat, ← opcode_toNat, opcode, opcode, hop]

/-- Headers that agree on the named bits have the same named fields. -/
theorem SameNamedBits.fields {w w' : Header} (h : SameNamedBits w w') {op : Nat} (hop : w.toNat % 16 = op) :
    ∀ f ∈ namedFields op (w.toNat / 2 ^ 8 % 2 ^ 7), w.extractLsb' f.1 f.2 = w'.extractLsb' f.1 f.2 := by
  subst hop
  exact fun f hf => extractLsb'_congr (h f hf)

/-- A BS operand is determined by len and, for a len of at most 64, by the positions below len (R92). -/
theorem seqOperand_congr {w w' : Header} (hlen : w.extractLsb' 8 7 = w'.extractLsb' 8 7)
    (hbits : w.toNat / 2 ^ 8 % 2 ^ 7 ≤ 64 → ∀ i < w.toNat / 2 ^ 8 % 2 ^ 7, w.getLsbD (64 + i) = w'.getLsbD (64 + i)) :
    seqOperand w = seqOperand w' := by
  have hlen' : w'.toNat / 2 ^ 8 % 2 ^ 7 = w.toNat / 2 ^ 8 % 2 ^ 7 := by rw [← seqLen_toNat, ← seqLen_toNat, hlen]
  by_cases h64 : w.toNat / 2 ^ 8 % 2 ^ 7 ≤ 64
  · rw [seqOperand_of_le h64, seqOperand_of_le (hlen'.trans_le h64), hlen']
    exact congrArg _ (List.map_congr_left fun i hi => hbits h64 i (List.mem_range.mp hi))
  · have hgt := Nat.lt_of_not_ge h64
    rw [seqOperand_of_gt hgt, seqOperand_of_gt (hgt.trans_eq hlen'.symm), hlen]

/-- Headers that agree on the named bits of format BS have the same operand (R92). -/
theorem SameNamedBits.seqOperand_eq {w w' : Header} (h : SameNamedBits w w')
    (hop : w.toNat % 16 = 0x5 ∨ w.toNat % 16 = 0x8) : seqOperand w = seqOperand w' := by
  have hnamed : ∀ f ∈ namedFields 0x5 (w.toNat / 2 ^ 8 % 2 ^ 7), ∀ i < f.2,
      w.getLsbD (f.1 + i) = w'.getLsbD (f.1 + i) := by
    unfold SameNamedBits at h
    rcases hop with hop | hop
    · rwa [hop] at h
    · rwa [hop] at h
  refine seqOperand_congr (extractLsb'_congr (hnamed (8, 7) (by simp [namedFields]))) fun h64 => ?_
  exact hnamed (64, _) (by rw [namedFields, if_pos h64]; simp)

/-- Pulse words that agree on the bits of a pulse hold the same pulse (R95). -/
theorem SamePulseBits.pulseOfWord_eq {p p' : Word} (h : SamePulseBits p p') : pulseOfWord p = pulseOfWord p' := by
  have hdur : p.extractLsb' 0 32 = p'.extractLsb' 0 32 :=
    extractLsb'_congr fun i hi => by simpa using h i (hi.trans (by omega))
  rw [pulseOfWord, pulseOfWord, hdur, h 32 (by omega)]

/-- The trains of pulse words that agree on the bits of a pulse. -/
theorem map_pulseOfWord_congr {pws pws' : List Word} (h : List.Forall₂ SamePulseBits pws pws') :
    pws.map pulseOfWord = pws'.map pulseOfWord := by
  induction h with
  | nil => rfl
  | cons hp _ ih => rw [List.map_cons, List.map_cons, hp.pulseOfWord_eq, ih]

/-- The number of pulse words follows from the named bits (R86, R101). -/
theorem SameNamedBits.pulseCount_eq {w w' : Header} (h : SameNamedBits w w') : pulseCount w = pulseCount w' := by
  by_cases hop : w.toNat % 16 = 0x9
  · have hcount : w.extractLsb' 8 8 = w'.extractLsb' 8 8 := h.fields hop (8, 8) (by simp [namedFields])
    rw [pulseCount_synEnqueue hop, pulseCount_synEnqueue (h.op_eq.trans hop), ← trainCount_toNat, hcount,
      trainCount_toNat]
  · rw [pulseCount_of_op_ne hop, pulseCount_of_op_ne (h.op_eq.trans_ne hop)]

/-- The instruction of a request follows from its named bits (R87 to R98, R101). -/
theorem SameNamedBits.instrOf_eq {w w' : Header} {pws pws' : List Word} (h : SameNamedBits w w')
    (hp : List.Forall₂ SamePulseBits pws pws') : instrOf w pws = instrOf w' pws' := by
  obtain ⟨op, hlt, hop⟩ : ∃ op < 16, w.toNat % 16 = op := ⟨_, Nat.mod_lt _ (by omega), rfl⟩
  have hop' : w'.toNat % 16 = op := h.op_eq.trans hop
  have hf := h.fields hop
  interval_cases op <;> simp only [namedFields, List.forall_mem_cons] at hf
  · rw [instrOf_nop _ hop, instrOf_nop _ hop']
  · obtain ⟨-, -, hdur, -⟩ := hf
    have hlevel : w.getLsbD 8 = w'.getLsbD 8 := h (8, 1) (by simp [hop, namedFields]) 0 (by omega)
    rw [instrOf_decPulse _ hop, instrOf_decPulse _ hop', hlevel, hdur]
  · rw [instrOf_decEnd _ hop, instrOf_decEnd _ hop']
  · obtain ⟨-, hgroup, hchan, hbrightness, -⟩ := hf
    rw [instrOf_cksum _ hop, instrOf_cksum _ hop', hgroup, hchan, hbrightness]
  · obtain ⟨-, hgroup, hchan, hbrightness, hcmd, hcolor, hcksum, -⟩ := hf
    rw [instrOf_codecEncode _ hop, instrOf_codecEncode _ hop', hgroup, hchan, hbrightness, hcmd, hcolor, hcksum]
  · rw [instrOf_codecDecode _ hop, instrOf_codecDecode _ hop', h.seqOperand_eq (.inl hop)]
  · obtain ⟨-, hdata, hnow, -⟩ := hf
    rw [instrOf_schSubmit _ hop, instrOf_schSubmit _ hop', hdata, hnow]
  · obtain ⟨-, hnow, -⟩ := hf
    rw [instrOf_schTick _ hop, instrOf_schTick _ hop', hnow]
  · rw [instrOf_encEncode _ hop, instrOf_encEncode _ hop', h.seqOperand_eq (.inr hop)]
  · obtain ⟨-, hcount, -⟩ := hf
    rw [instrOf_synEnqueue _ hop, instrOf_synEnqueue _ hop', trainOperand, trainOperand, hcount,
      map_pulseOfWord_congr hp]
  · obtain ⟨-, hn, -⟩ := hf
    rw [instrOf_synFill _ hop, instrOf_synFill _ hop', hn]
  · obtain ⟨-, haddr, hdata, -⟩ := hf
    rw [instrOf_cfgWrite _ hop, instrOf_cfgWrite _ hop', haddr, hdata]
  · obtain ⟨-, haddr, -⟩ := hf
    rw [instrOf_cfgRead _ hop, instrOf_cfgRead _ hop', haddr]
  · rw [instrOf_reservedD _ hop, instrOf_reservedD _ hop']
  · rw [instrOf_reservedE _ hop, instrOf_reservedE _ hop']
  · rw [instrOf_reset _ hop, instrOf_reset _ hop']

/-! ## The obligations -/

/-- Settles O4: the named bits fix the number of pulse words and the instruction, and a step sees nothing else of the
request. -/
theorem reservedBitsAreIgnored : Obligations.ReservedBitsAreIgnored := by
  intro s w w' pws pws' rest hw hp hlen
  have hlen' : pws'.length = pulseCount w' := by rw [← hp.length_eq, hlen, hw.pulseCount_eq]
  rw [step_of_decode (decode_request rest hlen), step_of_decode (decode_request rest hlen'), hw.instrOf_eq hp]

/-- Settles O6: `decode_request` gives the instruction of the header, and `instrOf_...` its operands' bits. -/
theorem requestFieldsStandAtTheirBits : Obligations.RequestFieldsStandAtTheirBits := by
  unfold Obligations.RequestFieldsStandAtTheirBits
  intro w rest op field reads len count readsSeq
  have hfield (width lo : Nat) : field width lo = w.extractLsb' lo width := (extractLsb'_eq_ofNat_div w lo width).symm
  have hreads {k : Nat} {i : Instr} (hk : op = k) (hne : k ≠ 0x9) (hi : instrOf w [] = i) : reads i :=
    hi ▸ decode_header rest (hk.trans_ne hne)
  have hreadsSeq {k : Nat} {of : SeqOperand → Instr} (hk : op = k) (hne : k ≠ 0x9)
      (hi : instrOf w [] = of (seqOperand w)) : readsSeq of := by
    unfold readsSeq
    split
    · next hle => exact hreads hk hne (by rw [hi, seqOperand_of_le hle])
    · next hgt => exact hreads hk hne (by rw [hi, seqOperand_of_gt (Nat.lt_of_not_ge hgt), hfield])
  simp only [hfield]
  refine ⟨?nop, ?decPulse, ?decEnd, ?cksum, ?codecEncode, ?codecDecode, ?schSubmit, ?schTick, ?encEncode, ?synEnqueue,
    ?synFill, ?cfgWrite, ?cfgRead, ?reservedD, ?reservedE, ?reset⟩
  case nop => exact fun h => hreads h (by decide) (instrOf_nop _ h)
  case decPulse => exact fun h => hreads h (by decide) (instrOf_decPulse _ h)
  case decEnd => exact fun h => hreads h (by decide) (instrOf_decEnd _ h)
  case cksum => exact fun h => hreads h (by decide) (instrOf_cksum _ h)
  case codecEncode => exact fun h => hreads h (by decide) (instrOf_codecEncode _ h)
  case codecDecode => exact fun h => hreadsSeq h (by decide) (instrOf_codecDecode _ h)
  case schSubmit => exact fun h => hreads h (by decide) (by rw [instrOf_schSubmit _ h, commandOfData_field])
  case schTick => exact fun h => hreads h (by decide) (instrOf_schTick _ h)
  case encEncode => exact fun h => hreadsSeq h (by decide) (instrOf_encEncode _ h)
  case synEnqueue =>
    intro pws h hlen
    rw [decode_request rest (hlen.trans (pulseCount_synEnqueue h).symm), instrOf_synEnqueue _ h]
    split
    · next hle => rw [trainOperand_of_le pws hle, funext pulseOfWord_eq_mk]
    · next hgt => rw [trainOperand_of_gt pws (Nat.lt_of_not_ge hgt)]
  case synFill => exact fun h => hreads h (by decide) (instrOf_synFill _ h)
  case cfgWrite => exact fun h => hreads h (by decide) (instrOf_cfgWrite _ h)
  case cfgRead => exact fun h => hreads h (by decide) (instrOf_cfgRead _ h)
  case reservedD => exact fun h => hreads h (by decide) (instrOf_reservedD _ h)
  case reservedE => exact fun h => hreads h (by decide) (instrOf_reservedE _ h)
  case reset => exact fun h => hreads h (by decide) (instrOf_reset _ h)

/-- Settles O11: the operand decodes to `tooLong`, on which each of the three operations raises at once. -/
theorem malformedRequestIsRaised : Obligations.MalformedRequestIsRaised := by
  refine ⟨fun s w rest hop hlen => ?seq, fun s w pws rest hop hcount hlen => ?train⟩
  case seq =>
    rw [← seqLen_toNat]
    rcases hop with hop | hop
    · rw [step_header s rest (by omega), instrOf_codecDecode _ hop, seqOperand_of_gt hlen, exec_codecDecode_tooLong, hop,
        State.withRequests_events]
    · rw [step_header s rest (by omega), instrOf_encEncode _ hop, seqOperand_of_gt hlen, exec_encEncode_tooLong, hop,
        State.withRequests_events]
  case train =>
    rw [step_of_decode (decode_request rest (hlen.trans (pulseCount_synEnqueue hop).symm)), instrOf_synEnqueue _ hop,
      trainOperand_of_gt pws hcount, exec_synEnqueue_tooLong, trainCount_toNat, State.withRequests_events]

/-- Settles O10: the request is its header alone, and its operation is the raise. -/
theorem reservedOpcodesRaiseIllegalOp : Obligations.ReservedOpcodesRaiseIllegalOp := by
  refine ⟨exec_reservedD, exec_reservedE, fun s w rest hop => ?_⟩
  rcases hop with hop | hop
  · rw [step_header s rest (by omega), instrOf_reservedD _ hop, hop]
    exact exec_reservedD _
  · rw [step_header s rest (by omega), instrOf_reservedE _ hop, hop]
    exact exec_reservedE _

end Sys2Proof.Machine

/-! SUPPORT. The pulse decoder as the statements put it: the number a frame's data bits stand for, the events of the
receive path and of a flush, and DEC_PULSE and DEC_END (40_decoder.md R112 to R118, 46_system.md R236). -/

namespace Sys2Proof.Machine

/-! ## The number of a frame's data bits -/

/-- Reading bits after a number shifts the number past them (R142). -/
theorem foldl_msbFirst_eq (s : BitSeq) (v : Nat) :
    s.foldl (fun v b => 2 * v + b.toNat) v = v * 2 ^ s.length + valueMsbFirst s := by
  unfold valueMsbFirst
  induction s generalizing v with
  | nil => simp
  | cons b s ih =>
    simp only [List.foldl_cons, List.length_cons]
    rw [ih, ih (2 * 0 + b.toNat)]
    ring

/-- The first bit has the highest weight (R142). -/
theorem valueMsbFirst_cons (b : Bool) (s : BitSeq) :
    valueMsbFirst (b :: s) = b.toNat * 2 ^ s.length + valueMsbFirst s := by
  rw [valueMsbFirst, List.foldl_cons, foldl_msbFirst_eq, Nat.mul_zero, Nat.zero_add]

/-- n bits stand for a number below 2^n. -/
theorem valueMsbFirst_lt (s : BitSeq) : valueMsbFirst s < 2 ^ s.length := by
  induction s with
  | nil => simp [valueMsbFirst]
  | cons b s ih =>
    have hbit := Nat.mul_le_mul_right (2 ^ s.length) (Nat.le_of_lt_succ b.toNat_lt)
    rw [valueMsbFirst_cons, List.length_cons, pow_succ]
    omega

/-- The sum of the first bits of a sequence, each at its weight (R142). -/
theorem valueMsbFirst_take {n : Nat} {q : BitSeq} (h : n ≤ q.length) :
    valueMsbFirst (q.take n) = ((List.range n).map fun i => (q.getD i false).toNat * 2 ^ (n - 1 - i)).sum := by
  induction n generalizing q with
  | zero => simp [valueMsbFirst]
  | succ n ih =>
    cases q with
    | nil => simp at h
    | cons b q =>
      have hn : n ≤ q.length := by simpa using h
      rw [List.take_succ_cons, valueMsbFirst_cons, List.length_take_of_le hn, ih hn, List.range_succ_eq_map,
        List.map_cons, List.map_map, List.sum_cons]
      simp [Function.comp_def, Nat.sub_sub, Nat.add_comm]

/-- The Command of a data word has that word's number (R81, R99). -/
theorem dataNumber_commandOfData (d : BitVec 32) : dataNumber (commandOfData d) = d.toNat := by
  have := d.isLt
  simp only [dataNumber, commandOfData, extractLsb'_eq_ofNat_div, BitVec.toNat_ofNat]
  omega

/-- The word in which the Command of a frame travels: its 32 data bits, the first the most significant (R142, R236). -/
theorem packed64_commandOfFrame {q : BitSeq} (h : q.length = 33) :
    packed64 (commandOfData (BitVec.ofNat 32 (valueMsbFirst (q.take 32)))) = BitVec.ofNat 64 (frameValue q) := by
  have hvalue : valueMsbFirst (q.take 32) = frameValue q := valueMsbFirst_take (by omega)
  have hlt : valueMsbFirst (q.take 32) < 2 ^ 32 := by
    simpa [h] using valueMsbFirst_lt (q.take 32)
  rw [packed64_eq, dataNumber_commandOfData, BitVec.toNat_ofNat, Nat.mod_eq_of_lt hlt, hvalue]

/-! ## The receive path and the flush -/

/-- The receive path appends its events and changes nothing else (R236). -/
theorem rxFrame_eq (q : BitSeq) (s : State) : rxFrame q s = s.withEvents (s.events ++ rxEvents q) := by
  by_cases hq : q = []
  · simp [hq, rxFrame, rxEvents]
  · have hlen : q.length ≠ 0 := mt List.length_eq_zero_iff.mp hq
    rw [rxFrame, if_neg hq, rxEvents, if_neg hlen]
    rcases decodeFrame_cases q with ⟨h33, he⟩ | ⟨h33, ht, he⟩ | ⟨h33, ht, he⟩
    · simp only [he, if_pos h33, warn_eq]
    · simp only [he, h33, ht, ne_eq, not_true_eq_false, if_false, if_true, warn_eq]
    · simp only [he, h33, ht, packed64_commandOfFrame h33, ne_eq, not_true_eq_false, Bool.false_eq_true, if_false,
        emit]

/-- The decoder and the event stream are written independently. -/
@[simp] theorem State.withEvents_withDec (s : State) (es : List Event) (d : Decoder) :
    (s.withEvents es).withDec d = (s.withDec d).withEvents es := rfl

/-- A flush empties the buffer and delivers it, unless it is partial and FORWARD_PARTIAL is 0 (R112). -/
theorem flush_eq (kind : FlushKind) (s : State) :
    flush kind s = (s.withDec ⟨s.dec.state, [], false⟩).withEvents
      (s.events ++ if kind = .partialBuf ∧ forwardPartial s.cfg = false then [] else flushEvents s.dec) := by
  unfold flush
  by_cases hdrop : kind = .partialBuf ∧ forwardPartial s.cfg = false
  · simp [hdrop]
  · cases hovf : s.dec.ovf <;> simp [hdrop, hovf, rxFrame_eq, emit, warn_eq, flushEvents]

/-- A valid flush delivers the buffer; the decoder then goes to a state of its own (R112). -/
theorem setDecState_flush_valid (v : DecState) (s : State) :
    setDecState v (flush .validBuf s) = (s.withDec ⟨v, [], false⟩).withEvents (s.events ++ flushEvents s.dec) := by
  simp [flush_eq, setDecState]

/-- A partial flush delivers the buffer if FORWARD_PARTIAL is 1; the decoder then goes to a state of its own (R112). -/
theorem setDecState_flush_partial (v : DecState) (s : State) :
    setDecState v (flush .partialBuf s) = (s.withDec ⟨v, [], false⟩).withEvents
      (s.events ++ if forwardPartial s.cfg = true then flushEvents s.dec else []) := by
  cases hf : forwardPartial s.cfg <;> simp [flush_eq, setDecState, hf]

/-- A valid flush after a warning: the warning's event comes first (R115, R116). -/
theorem setDecState_flush_valid_warn (v : DecState) (code : DiagCode) (arg : BitVec 64) (s : State) :
    setDecState v (flush .validBuf (warn code arg s)) =
      (s.withDec ⟨v, [], false⟩).withEvents (s.events ++ [.diag code arg] ++ flushEvents s.dec) :=
  setDecState_flush_valid v (warn code arg s)

/-- A partial flush after a warning: the warning is emitted whether the buffer is delivered or dropped (R115). -/
theorem setDecState_flush_partial_warn (v : DecState) (code : DiagCode) (arg : BitVec 64) (s : State) :
    setDecState v (flush .partialBuf (warn code arg s)) =
      (s.withDec ⟨v, [], false⟩).withEvents
        (s.events ++ [.diag code arg] ++ if forwardPartial s.cfg = true then flushEvents s.dec else []) :=
  setDecState_flush_partial v (warn code arg s)

/-! ## One pulse -/

/-- An appended bit is the decoder's `withBit` (R117). -/
theorem appendBit_eq (b : Bool) (s : State) : appendBit b s = s.withDec (withBit b s.dec) := by
  rcases appendBit_cases b s with ⟨hlt, he⟩ | ⟨hge, he⟩
  · rw [he, withBit, if_pos hlt]
  · rw [he, withBit, if_neg hge.not_gt]

/-- The hello window includes both bounds (R110). -/
theorem inHello_iff (c : CfgFile) (d : Dur) :
    inHello c d = true ↔ c.decHelloMin.value.toNat ≤ d.toNat ∧ d.toNat ≤ c.decHelloMax.value.toNat := by
  simp [inHello, BitVec.le_def]

/-- The resync flag of DEC_LONG_HIGH as a number (R110, R115). -/
theorem inHello_toNat (c : CfgFile) (d : Dur) :
    (inHello c d).toNat =
      if c.decHelloMin.value.toNat ≤ d.toNat ∧ d.toNat ≤ c.decHelloMax.value.toNat then 1 else 0 := by
  simp only [← inHello_iff]
  cases inHello c d <;> rfl

/-- FORWARD_PARTIAL is the whole of DEC_CTRL (R32). -/
theorem forwardPartial_toNat (c : CfgFile) : (forwardPartial c).toNat = c.decCtrl.value.toNat := by
  have := c.decCtrl.value.isLt
  rw [forwardPartial, BitVec.getLsbD, Nat.toNat_testBit]
  omega

/-- The count and the duration in the argument of DEC_SHORT_SEP and DEC_SHORT_LOW (R261). -/
theorem shortArg_eq (n : Nat) (d : Dur) : shortArg n d = BitVec.ofNat 64 (n % 2 ^ 8 * 2 ^ 40 + d.toNat) := by
  apply BitVec.eq_of_toNat_eq
  have := d.isLt
  simp only [shortArg, append_toNat_eq_add, BitVec.toNat_ofNat]
  omega

/-- The count, the two flags and the duration in the argument of DEC_LONG_HIGH (R261). -/
theorem longHighArg_eq (n : Nat) (forward resync : Bool) (d : Dur) :
    longHighArg n forward resync d =
      BitVec.ofNat 64 (n % 2 ^ 8 * 2 ^ 40 + forward.toNat * 2 ^ 33 + resync.toNat * 2 ^ 32 + d.toNat) := by
  apply BitVec.eq_of_toNat_eq
  have := d.isLt
  have := forward.toNat_lt
  have := resync.toNat_lt
  simp only [longHighArg, append_toNat_eq_add, BitVec.toNat_ofNat, BitVec.toNat_ofBool]
  omega

/-- With the registers 0x00 to 0x06 written, DEC_PULSE classifies its pulse (R113). -/
theorem exec_decPulse_of_set {s : State} (level : Bool) (d : Dur) (h : SetBetween s.cfg 0x00 0x06) :
    exec (.decPulse level d) s = .next (classifyPulse level d s) := by
  have haddr : ∀ r ∈ decRegs, r.addr.toNat ≤ 0x06 := by decide
  exact congrArg _ (requireCfg_of_set _ fun r hr => h r (Nat.zero_le _) (haddr r hr))

/-- DEC_PULSE while awaiting a hello (R114). -/
theorem classifyPulse_awaiting {s : State} (level : Bool) (d : Dur) (h : s.dec.state = .awaitingHello) :
    classifyPulse level d s = pulseAwaiting level d s := by
  simp only [classifyPulse, h]

/-- DEC_PULSE of a high pulse in a message (R115). -/
theorem classifyPulse_high {s : State} (d : Dur) (h : s.dec.state = .inMessage) :
    classifyPulse true d s = pulseHigh d s := by
  simp only [classifyPulse, h]

/-- DEC_PULSE of a low pulse in a message (R116). -/
theorem classifyPulse_low {s : State} (d : Dur) (h : s.dec.state = .inMessage) :
    classifyPulse false d s = pulseLow d s := by
  simp only [classifyPulse, h]

/-- DEC_END delivers the buffer and awaits a hello (R118). -/
theorem exec_decEnd (s : State) :
    exec .decEnd s = .next ((s.withDec ⟨.awaitingHello, [], false⟩).withEvents (s.events ++ flushEvents s.dec)) :=
  congrArg _ (setDecState_flush_valid _ s)

/-! ## The obligations -/

/-- Settles O28: a high pulse in a message is `pulseHigh`, whose three branches are those of the statement. -/
theorem highPulseInAMessage : Obligations.HighPulseInAMessage := by
  intro s d hset hstate n forward resync
  have hforward : (forwardPartial s.cfg).toNat = forward := forwardPartial_toNat s.cfg
  have hresync : (inHello s.cfg d).toNat = resync := inHello_toNat s.cfg d
  have hforward_iff : forwardPartial s.cfg = true ↔ forward = 1 := by rw [← hforward, Bool.toNat_eq_one]
  have hresync_iff : inHello s.cfg d = true ↔ resync = 1 := by rw [← hresync, Bool.toNat_eq_one]
  rw [exec_decPulse_of_set true d hset, classifyPulse_high d hstate, pulseHigh]
  simp only [BitVec.lt_def]
  split
  · next hshort => rw [setDecState_flush_valid_warn, shortArg_eq]
  · next hnotShort =>
    split
    · next hlong =>
      rw [setDecState_flush_partial_warn, longHighArg_eq, hforward, hresync]
      simp only [hforward_iff, hresync_iff, n]
    · next hgap => rfl

/-- Settles O29: a low pulse in a message is `pulseLow`, whose four branches are those of the statement. -/
theorem lowPulseInAMessage : Obligations.LowPulseInAMessage := by
  intro s d hset hstate n
  rw [exec_decPulse_of_set false d hset, classifyPulse_low d hstate, pulseLow]
  simp only [BitVec.lt_def]
  split
  · next hshort => rw [setDecState_flush_valid_warn, shortArg_eq]
  · next hnotShort =>
    split
    · next hzero => rw [appendBit_eq]
    · next hnotZero =>
      split
      · next hlong => rw [setDecState_flush_valid]
      · next hone => rw [appendBit_eq]

/-- Settles O27: awaiting a hello, DEC_PULSE tests its level and the hello window alone. -/
theorem pulseWhileAwaitingHello : Obligations.PulseWhileAwaitingHello := by
  intro s level d hset hstate
  rw [exec_decPulse_of_set level d hset, classifyPulse_awaiting level d hstate, pulseAwaiting]
  simp only [inHello_iff]

/-- Settles O30: the third clause is the first one on an empty buffer with the overflow flag clear. -/
theorem decEndFlushesTheBuffer : Obligations.DecEndFlushesTheBuffer := by
  refine ⟨exec_decEnd, fun s w rest hop => ?request, fun s hok hstate => ?awaiting⟩
  case request => rw [step_header s rest (by omega), instrOf_decEnd _ hop]
  case awaiting =>
    obtain ⟨hbuf, hovf⟩ := hok.awaiting hstate
    have hdec : s.dec = ⟨.awaitingHello, [], false⟩ := by rw [← hstate, ← hbuf, ← hovf]
    rw [exec_decEnd, ← hdec, State.withDec_self, hdec]
    rfl

end Sys2Proof.Machine

/-! SUPPORT. The diffusion checksum as an XOR of numbers, and which bits of a field it reads (41_checksum.md R130 to
R133). -/

namespace Sys2Proof.Machine

/-! ## One field's fold -/

/-- A mask as it enters the XOR: 0 unless its bit is set (R131). -/
def maskIf (x : Bool) (m : Nat) : Nat := if x then m else 0

/-- One step of the fold, as numbers: a clear bit XORs 0 (R131). -/
theorem xorIf_toNat {w : Nat} (x : Bool) (acc m : BitVec w) :
    (if x then acc ^^^ m else acc).toNat = acc.toNat ^^^ maskIf x m.toNat := by
  cases x
  · simp [maskIf]
  · simp [maskIf]

/-- The fold from bit i up reads only as many bits of its field as there are masks (R131). -/
theorem foldMasks_congr {w w' : Nat} {f : BitVec w} {f' : BitVec w'} {ms : List (BitVec 8)} {i : Nat}
    (h : ∀ j, i ≤ j → j < i + ms.length → f.getLsbD j = f'.getLsbD j) (acc : BitVec 8) :
    foldMasks f ms i acc = foldMasks f' ms i acc := by
  induction ms generalizing i acc with
  | nil => rfl
  | cons m ms ih =>
    rw [List.length_cons] at h
    have hbit : f.getLsbD i = f'.getLsbD i := h i (by omega) (by omega)
    have hrest : ∀ j, i + 1 ≤ j → j < i + 1 + ms.length → f.getLsbD j = f'.getLsbD j := fun j hlo hhi =>
      h j (by omega) (by omega)
    rw [foldMasks, foldMasks, hbit, ih hrest]

/-! ## The three fields -/

/-- The checksum as the XOR of the fifteen masks of R130, each under its bit (R131). -/
theorem cksumOf_toNat (g c : BitVec 4) (b : BitVec 8) :
    (cksumOf g c b).toNat =
      0 ^^^ maskIf (g.getLsbD 0) 110 ^^^ maskIf (g.getLsbD 1) 220 ^^^ maskIf (g.getLsbD 2) 137 ^^^
        maskIf (g.getLsbD 3) 35 ^^^
        maskIf (c.getLsbD 0) 244 ^^^ maskIf (c.getLsbD 1) 217 ^^^ maskIf (c.getLsbD 2) 131 ^^^
        maskIf (c.getLsbD 3) 55 ^^^
        maskIf (b.getLsbD 0) 49 ^^^ maskIf (b.getLsbD 1) 98 ^^^ maskIf (b.getLsbD 2) 196 ^^^
        maskIf (b.getLsbD 3) 185 ^^^ maskIf (b.getLsbD 4) 67 ^^^ maskIf (b.getLsbD 5) 134 ^^^
        maskIf (b.getLsbD 6) 61 := by
  simp only [cksumOf, groupMasks, chanMasks, brightnessMasks, foldMasks, xorIf_toNat, BitVec.reduceToNat]

/-- The checksum reads brightness bits 0 to 6 only (R133). -/
theorem cksumOf_brightness_congr (g c : BitVec 4) {b b' : BitVec 8}
    (h : ∀ i < 7, b.getLsbD i = b'.getLsbD i) : cksumOf g c b = cksumOf g c b' :=
  foldMasks_congr (fun i _ hi => h i (by simpa [brightnessMasks] using hi)) _

/-- CKSUM emits its checksum and changes nothing else (R132). -/
theorem exec_cksum (s : State) (g c : BitVec 4) (b : BitVec 8) :
    exec (.cksum g c b) s =
      .next (s.withEvents (s.events ++ [.result (.word (BitVec.ofNat 64 (cksumOf g c b).toNat))])) := by
  rw [BitVec.ofNat_toNat]
  rfl

/-! ## The obligations -/

/-- Settles O20: the operands are the header's fields, and the emitted word is the checksum's number. -/
theorem cksumIsTheXorOfTheMasks : Obligations.CksumIsTheXorOfTheMasks := by
  refine ⟨fun s w rest hop => ?request, fun s g c b => ?effect⟩
  case request =>
    rw [step_header s rest (by omega), instrOf_cksum _ hop]
    simp only [extractLsb'_eq_ofNat_div]
  case effect =>
    rw [exec_cksum, cksumOf_toNat]
    rfl

/-- Settles O22: a brightness and its low seven bits agree on bits 0 to 6, all that the checksum reads. -/
theorem brightnessTopBitHasNoMask : Obligations.BrightnessTopBitHasNoMask := by
  intro s g c b
  have hlow : ∀ i < 7, b.getLsbD i = (BitVec.ofNat 8 (b.toNat % 2 ^ 7)).getLsbD i := by
    intro i hi
    have hi8 : i < 8 := by omega
    rw [BitVec.getLsbD_ofNat, Nat.testBit_mod_two_pow]
    simp [hi, hi8, BitVec.getLsbD]
  rw [exec_cksum, exec_cksum, cksumOf_brightness_congr g c hlow]

end Sys2Proof.Machine

/-! SUPPORT. The two frame codec operations: what CODEC_ENCODE packs and what CODEC_DECODE answers (42_frame_codec.md R140
to R147). -/

namespace Sys2Proof.Machine

/-! ## Encode -/

/-- The data word of the masked fields, each field reduced to its frame width (R81, R140). -/
theorem pack_truncateFields_toNat (rg rc rb rcmd rcol rck : BitVec 8) :
    (truncateFields rg rc rb rcmd rcol rck).pack.toNat =
      rg.toNat % 16 * 2 ^ 28 + rc.toNat % 16 * 2 ^ 24 + rb.toNat * 2 ^ 16 + rcmd.toNat % 4 * 2 ^ 14 +
        rcol.toNat % 64 * 2 ^ 8 + rck.toNat := by
  simp only [pack_toNat, dataNumber, truncateFields, BitVec.toNat_setWidth, Nat.reducePow]

/-- Position i of a frame is bit 32 - i of F = {D, 0}, which is twice the data word D (R81, R83). -/
theorem frameSeq_getD (c : Command) {i : Nat} (h : i < 33) :
    (frameSeq c).getD i false = (2 * c.pack.toNat).testBit (32 - i) := by
  have hframe : (c.pack ++ 0#1 : BitVec 33).toNat = 2 * c.pack.toNat := by
    rw [append_toNat_eq_add, BitVec.toNat_ofNat]
    omega
  have hpos : (frameSeq c).getD i false = (c.pack ++ 0#1 : BitVec 33).getLsbD (32 - i) := by
    simp [frameSeq, Config.frameLen, List.getD, h]
  rw [hpos, BitVec.getLsbD, hframe]

/-- CODEC_ENCODE emits the frame of the masked fields and changes nothing else (R141). -/
theorem exec_codecEncode (s : State) (rg rc rb rcmd rcol rck : BitVec 8) :
    exec (.codecEncode rg rc rb rcmd rcol rck) s =
      .next (s.withEvents (s.events ++ [.result (.seq (frameSeq (truncateFields rg rc rb rcmd rcol rck)))])) := rfl

/-! ## Decode -/

/-- CODEC_DECODE of a sequence performs the decode on the whole state (R147). -/
theorem exec_codecDecode_seq (q : BitSeq) (s : State) :
    exec (.codecDecode (.seq q)) s = .next (codecDecodeSeq q s) := rfl

/-! ## The obligations -/

/-- Settles O23: the operands are the header's bytes, and the frame's positions are the bits of twice its data word. -/
theorem codecEncodePacksTheMaskedFields : Obligations.CodecEncodePacksTheMaskedFields := by
  refine ⟨fun s w rest hop => ?request, fun s rg rc rb rcmd rcol rck =>
    ⟨frameSeq (truncateFields rg rc rb rcmd rcol rck), ?effect, frameSeq_length _, fun i hi => ?position⟩⟩
  case request =>
    rw [step_header s rest (by omega), instrOf_codecEncode _ hop]
    simp only [extractLsb'_eq_ofNat_div]
  case effect => exact exec_codecEncode s rg rc rb rcmd rcol rck
  case position => rw [frameSeq_getD _ hi, pack_truncateFields_toNat]

/-- Settles O24: the three answers `decode` can give, in the order of R142, are the three branches of the statement. -/
theorem codecDecodeOutcome : Obligations.CodecDecodeOutcome := by
  intro s q
  rw [exec_codecDecode_seq, codecDecodeSeq]
  rcases decodeFrame_cases q with ⟨hlen, hout⟩ | ⟨hlen, htrail, hout⟩ | ⟨hlen, htrail, hout⟩
  · simp only [hout, if_pos hlen, raise_eq]
  · simp only [hout, hlen, htrail, ne_eq, not_true_eq_false, if_false, if_true, raise_eq]
  · simp only [hout, hlen, htrail, packed64_commandOfFrame hlen, ne_eq, not_true_eq_false, Bool.false_eq_true, if_false,
      emit]

end Sys2Proof.Machine

/-! SUPPORT. What a push on the queue does with room, and at capacity under each policy, as the statements put it
(45_synthesizer.md R204, R205). -/

namespace Sys2Proof.Machine

/-! ## The capacity and the policy -/

/-- The model's effective capacity is the statements' one (R205). -/
theorem effectiveCap_eq_some_iff (s : State) (cap : Nat) : effectiveCap s = some cap ↔ CapIs s cap := by
  unfold effectiveCap CapIs
  by_cases hcap : s.cfg.synQueueCap.value.toNat = 0
  · simp +contextual [hcap]
  · cases s.queueDepth with
    | none => simp [hcap]; omega
    | some depth => simp [hcap]; omega

/-- A queue has room exactly when it is below the effective capacity, if there is one (R205). -/
theorem hasRoom_iff (s : State) : HasRoom s ↔ ∀ cap, effectiveCap s = some cap → s.syn.queue.length < cap := by
  unfold effectiveCap HasRoom
  by_cases hcap : s.cfg.synQueueCap.value.toNat = 0
  · simp [hcap]
  · cases s.queueDepth with
    | none => simp [hcap]
    | some depth => simp [hcap]

/-- FULL_POLICY is bit 0 of SYN_CTRL, and 0 is reject-new (R38). -/
theorem dropOldestPolicy_eq_false_iff (c : CfgFile) : dropOldestPolicy c = false ↔ c.synCtrl.value.toNat % 2 = 0 := by
  simp [dropOldestPolicy, BitVec.getLsbD, Nat.testBit_zero]

/-- The policy and the count in the argument of SYN_QUEUE_FULL, for a count that fits it (R205, R261). -/
theorem queueFullArg_eq (policy : Bool) {n : Nat} (h : n < 2 ^ 32) :
    queueFullArg policy n = BitVec.ofNat 64 (policy.toNat * 2 ^ 63 + n) := by
  apply BitVec.eq_of_toNat_eq
  have := policy.toNat_lt
  simp only [queueFullArg, append_toNat_eq_add, count32_toNat h, BitVec.toNat_ofNat, BitVec.toNat_ofBool]
  omega

/-! ## The push -/

/-- With room, a push queues the train with its trailing pulse and does nothing else (R204). -/
theorem synPush_of_hasRoom (t : PulseTrain) {s : State} (h : HasRoom s) :
    synPush t s =
      s.withSyn { s.syn with queue := s.syn.queue ++ [t ++ [⟨false, s.cfg.synTrailTime.value⟩]] } := by
  rw [hasRoom_iff] at h
  rcases hcap : effectiveCap s with _ | cap
  · simp [synPush, admitTrain, hcap, pushBack]
  · simp [synPush, admitTrain, hcap, h cap hcap, pushBack]

/-- At capacity, reject-new drops the new train with a warning (R205). -/
theorem synPush_of_full_rejectNew (t : PulseTrain) {s : State} {cap : Nat} (hcap : CapIs s cap)
    (hfull : cap ≤ s.syn.queue.length) (hpolicy : s.cfg.synCtrl.value.toNat % 2 = 0) :
    synPush t s = s.withEvents (s.events ++ [.diag .synQueueFull (queueFullArg false (t.length + 1))]) := by
  rw [← effectiveCap_eq_some_iff] at hcap
  rw [← dropOldestPolicy_eq_false_iff] at hpolicy
  simp [synPush, admitTrain, hcap, hfull.not_gt, hpolicy, warn_eq]

/-- At capacity, drop-oldest drops from the front with a warning until there is room, and queues the new train
(R205). -/
theorem synPush_of_full_dropOldest (t : PulseTrain) {s : State} {cap : Nat} (hcap : CapIs s cap) (hpos : 1 ≤ cap)
    (hfull : cap ≤ s.syn.queue.length) (hpolicy : s.cfg.synCtrl.value.toNat % 2 ≠ 0) :
    synPush t s =
      (s.withSyn { s.syn with queue := s.syn.queue.drop (s.syn.queue.length + 1 - cap) ++
        [t ++ [⟨false, s.cfg.synTrailTime.value⟩]] }).withEvents
          (s.events ++ [.diag .synQueueFull (queueFullArg true (s.syn.queue.length + 1 - cap))]) := by
  rw [← effectiveCap_eq_some_iff] at hcap
  rw [Ne, ← dropOldestPolicy_eq_false_iff] at hpolicy
  simp [synPush, admitTrain, hcap, hfull.not_gt, hpolicy, dropFront_eq _ _ _ hpos, pushBack, warn_eq, State.withSyn,
    State.withEvents]

/-- The queue a push leaves and the events it appends, read off its result (R205). -/
theorem queue_and_events_of_synPush {t : PulseTrain} {s : State} {q : List PulseTrain} {full : List Event}
    (h : synPush t s = (s.withSyn { s.syn with queue := q }).withEvents (s.events ++ full)) :
    (HasRoom s → full = [] ∧ q = s.syn.queue ++ [t ++ [⟨false, s.cfg.synTrailTime.value⟩]]) ∧
    ∀ cap : Nat, CapIs s cap → 1 ≤ cap → cap ≤ s.syn.queue.length →
      (s.cfg.synCtrl.value.toNat % 2 = 0 →
        full = [.diag .synQueueFull (queueFullArg false (t.length + 1))] ∧ q = s.syn.queue) ∧
      (s.cfg.synCtrl.value.toNat % 2 ≠ 0 →
        full = [.diag .synQueueFull (queueFullArg true (s.syn.queue.length + 1 - cap))] ∧
        q = s.syn.queue.drop (s.syn.queue.length + 1 - cap) ++ [t ++ [⟨false, s.cfg.synTrailTime.value⟩]]) := by
  have hq : (synPush t s).syn.queue = q := by rw [h]; rfl
  have he : (synPush t s).events = s.events ++ full := by rw [h]; rfl
  refine ⟨fun hroom => ?room, fun cap hcap hpos hlen => ⟨fun hreject => ?reject, fun hdrop => ?drop⟩⟩
  case room =>
    rw [synPush_of_hasRoom t hroom] at hq he
    exact ⟨List.self_eq_append_right.mp he, hq.symm⟩
  case reject =>
    rw [synPush_of_full_rejectNew t hcap hlen hreject] at hq he
    exact ⟨(List.append_cancel_left he).symm, hq.symm⟩
  case drop =>
    rw [synPush_of_full_dropOldest t hcap hpos hlen hdrop] at hq he
    exact ⟨(List.append_cancel_left he).symm, hq.symm⟩

end Sys2Proof.Machine

/-! SUPPORT. A pass of the scheduler as the statements put it: its gain step, the entry it selects and what sending that
entry does (43_scheduler.md R160 to R173). -/

namespace Sys2Proof.Machine

/-! ## The gain step -/

/-- The comparison of times, on the mathematical integers (R176). -/
theorem elapsed_iff_sub_ge (now since bound : Time) :
    elapsed now since bound = true ↔ (now.toNat : Int) - (since.toNat : Int) ≥ (bound.toNat : Int) := by
  simp [elapsed]

/-- The state after the gain step of a pass at `now`. -/
def gained (now : Time) (s : State) : State :=
  (s.withSch { s.sch with gainCur := gainAfter s now }).withEvents (s.events ++ gainEvents s now)

/-- The gain step of a pass drives the gain to the pass's target (R164 to R166). -/
theorem gainStep_passTarget (now : Time) (s : State) :
    gainStep (passTarget s) now s.cfg.schCutoff.value s = gained now s := by
  rcases gainStep_cases (passTarget s) now s.cfg.schCutoff.value s with ⟨hchange, he⟩ | ⟨hkeep, he⟩
  · rw [elapsed_iff_sub_ge] at hchange
    rw [he, gained, gainAfter, gainEvents, if_pos hchange, if_pos hchange, BitVec.ofNat_toNat]
  · rw [elapsed_iff_sub_ge] at hkeep
    rw [he, gained, gainAfter, gainEvents, if_neg hkeep, if_neg hkeep, List.append_nil]
    rfl

/-! ## The selection -/

/-- The model's eligible entries are the statements' ones (R167). -/
theorem eligible_iff (s : State) (now : Time) (k : Key) :
    eligible s.sch now s.cfg.schTbr.value k = true ↔ Eligible s now k := by
  rw [eligible, Bool.and_eq_true, elapsed_iff_sub_ge, Eligible]

/-- The entry a pass at `now` picks (R164). -/
def pickKey (now : Time) (s : State) : Option Key :=
  selectKey s.sch (eligibleKeys s.sch now s.cfg.schTbr.value)

/-- A pass picks no entry exactly when none is eligible (R168). -/
theorem pickKey_eq_none_iff (now : Time) (s : State) : pickKey now s = none ↔ ∀ k, ¬Eligible s now k := by
  simp only [pickKey, selectKey_eq_none, List.eq_nil_iff_forall_not_mem, mem_eligibleKeys, eligible_iff]

/-- The entry a pass picks is the oldest eligible one, the lowest key among equals (R169). -/
theorem selected_of_pickKey {now : Time} {s : State} {k : Key} (h : pickKey now s = some k) : Selected s now k := by
  obtain ⟨hmem, holdest, hlowest⟩ := selectKey_eq_some (eligibleKeys_rising _ _ _) h
  simp only [mem_eligibleKeys, eligible_iff] at hmem holdest hlowest
  refine ⟨hmem, fun j hj => ?_⟩
  rcases (holdest j hj).lt_or_eq with hlt | heq
  · exact .inl hlt
  · have hage := BitVec.eq_of_toNat_eq heq
    exact .inr ⟨hage, hlowest j hj hage.symm⟩

/-- No two entries are both the oldest eligible one with the lowest key. -/
theorem Selected.unique {s : State} {now : Time} {j k : Key} (hj : Selected s now j) (hk : Selected s now k) :
    j = k := by
  apply BitVec.eq_of_toNat_eq
  have hjk := hj.2 k hk.1
  have hkj := hk.2 j hj.1
  simp only [← BitVec.toNat_inj] at hjk hkj
  omega

/-- A pass picks the selected entry, and only that one (R169). -/
theorem pickKey_eq_some_iff (now : Time) (s : State) (k : Key) : pickKey now s = some k ↔ Selected s now k := by
  refine ⟨selected_of_pickKey, fun hk => ?_⟩
  rcases hpick : pickKey now s with _ | j
  · exact absurd hk.1 ((pickKey_eq_none_iff now s).mp hpick k)
  · rw [(selected_of_pickKey hpick).unique hk]

/-! ## The pass -/

/-- A pass is the gain step and then, on what the table picks, the warning or the send: the gain step changes neither
the table nor the configuration (R164). -/
theorem schPass_eq (now : Time) (s : State) :
    schPass now s =
      (pickKey now s).elim (warn .schNothingEligible (BitVec.ofNat 64 (validCount s.sch)) (gained now s))
        fun k => emitEntry k now (gained now s) := by
  have htarget : (if validSlots s.sch = 0 then s.cfg.schGainInactive.value else s.cfg.schGainActive.value) =
      passTarget s := by
    rw [validSlots_eq, passTarget]
  have hpick : selectKey (gained now s).sch (eligibleKeys (gained now s).sch now s.cfg.schTbr.value) =
      pickKey now s := rfl
  have hvalid : validSlots (gained now s).sch = validCount s.sch := validSlots_eq s.sch
  simp only [schPass, htarget, gainStep_passTarget, hpick, hvalid]
  cases pickKey now s <;> rfl

/-- A pass with no eligible entry (R168). -/
theorem schPass_of_not_eligible {now : Time} {s : State} (h : ∀ k, ¬Eligible s now k) :
    schPass now s = warn .schNothingEligible (BitVec.ofNat 64 (validCount s.sch)) (gained now s) := by
  rw [schPass_eq, (pickKey_eq_none_iff now s).mpr h, Option.elim_none]

/-- A pass that selects an entry sends it (R169, R170). -/
theorem schPass_of_selected {now : Time} {s : State} {k : Key} (h : Selected s now k) :
    schPass now s = emitEntry k now (gained now s) := by
  rw [schPass_eq, (pickKey_eq_some_iff now s k).mpr h, Option.elim_some]

/-! ## The sent entry -/

/-- The last repeat removes the entry, any other leaves it with one fewer (R171). -/
theorem slotAfterSend_cases (slot : Slot) (now : Time) :
    (slot.repeats = 1 ∧ slotAfterSend slot now = { slot with valid := false }) ∨
    (slot.repeats ≠ 1 ∧ slotAfterSend slot now = { slot with repeats := slot.repeats - 1, lastSent := now }) := by
  have hlast : slot.repeats - 1 = 0 ↔ slot.repeats = 1 := by bv_omega
  by_cases h : slot.repeats = 1
  · exact .inl ⟨h, if_pos (hlast.mpr h)⟩
  · exact .inr ⟨h, if_neg (mt hlast.mp h)⟩

/-- The slots are held apart from the GainState (R27, R28). -/
@[simp] theorem slotAt_gainState (c : Scheduler) (gain : Option Gain) (last : Time) (k : Key) :
    slotAt { c with gainCur := gain, gainLastSend := last } k = slotAt c k := rfl

/-- Writing back the entry of a valid key after its send updates the table as R171 says, whatever the GainState. -/
theorem sentAt_setSlot {c : Scheduler} {k : Key} (now : Time) (gain : Option Gain) (last : Time)
    (hvalid : (slotAt c k).valid = true) (hrepeats : (slotAt c k).repeats ≠ 0) :
    SentAt c { setSlot c k (slotAfterSend (slotAt c k) now) with gainCur := gain, gainLastSend := last } k now := by
  simp only [SentAt, slotAt_gainState, slotAt_setSlot_self]
  refine ⟨fun j hj => slotAt_setSlot_of_ne c _ hj, ?_⟩
  rcases slotAfterSend_cases (slotAt c k) now with ⟨hone, he⟩ | ⟨hmore, he⟩
  · simp [hone, he]
  · have hmore' : (slotAt c k).repeats.toNat ≠ 1 := fun h => hmore (BitVec.eq_of_toNat_eq h)
    rw [if_neg hmore', he]
    exact ⟨hvalid, rfl, by bv_omega, rfl⟩

/-- A frame's train has 67 pulses, the hello and two for each of 33 bits, and a trailing one (R190, R204). -/
theorem pulsesOf_frameSeq_length (c : CfgFile) (cmd : Command) : (pulsesOf c (frameSeq cmd)).length = 67 := by
  simp [pulsesOf, bitPulses, List.length_flatMap]

/-! ## The two operations -/

/-- The registers the scheduler's check names are those of `SchedulerSet` (R160). -/
theorem isSet_of_schedulerSet {c : CfgFile} (h : SchedulerSet c) : ∀ r ∈ schRegs, c.isSet r = true := by
  have haddr : ∀ r ∈ schRegs,
      (0x30 ≤ r.addr.toNat ∧ r.addr.toNat ≤ 0x34) ∨ (0x20 ≤ r.addr.toNat ∧ r.addr.toNat ≤ 0x20) := by
    decide
  intro r hr
  rcases haddr r hr with ⟨hlo, hhi⟩ | ⟨hlo, hhi⟩
  · exact h.1 r hlo hhi
  · exact h.2 r hlo hhi

/-- With its registers written, SCH_TICK makes a pass (R173). -/
theorem exec_schTick_of_set {s : State} (now : Time) (h : SchedulerSet s.cfg) :
    exec (.schTick now) s = .next (schPass now s) :=
  congrArg _ (requireCfg_of_set _ (isSet_of_schedulerSet h))

/-- With its registers written, SCH_SUBMIT upserts its entry and makes a pass (R162). -/
theorem exec_schSubmit_of_set {s : State} (c : Command) (now : Time) (h : SchedulerSet s.cfg) :
    exec (.schSubmit c now) s = .next (schPass now (upsert c s)) :=
  congrArg _ (requireCfg_of_set _ (isSet_of_schedulerSet h))

/-- The key of a Command, from its numbers (R161). -/
theorem commandKey_eq (c : Command) : commandKey c = BitVec.ofNat 8 (c.chan.toNat * 16 + c.group.toNat) := by
  apply BitVec.eq_of_toNat_eq
  have := c.chan.isLt
  have := c.group.isLt
  simp only [commandKey, append_toNat_eq_add, BitVec.toNat_ofNat]
  omega

/-- The table of the state on which SCH_SUBMIT makes its pass: the fresh entry, and all else as it was (R162, R163). -/
theorem upserted_upsert (s : State) (c : Command) : Upserted s c (upsert c s).sch := by
  rw [Upserted, ← commandKey_eq]
  exact ⟨slotAt_setSlot_self _ _ _, fun _ hj => slotAt_setSlot_of_ne _ _ hj, rfl, rfl⟩

/-! ## The obligations -/

/-- Settles O43: with nothing eligible the pass is its gain step and the warning. -/
theorem tickWithNothingEligible : Obligations.TickWithNothingEligible := by
  intro s now hset hnone
  rw [exec_schTick_of_set now hset, schPass_of_not_eligible hnone, warn_eq]
  rfl

/-- Settles O44: the pass sends the selected entry after its gain step, and the push of its train is the synthesizer's
(`queue_and_events_of_synPush`). -/
theorem tickSendsTheOldestEntry : Obligations.TickSendsTheOldestEntry := by
  intro s now k hset hsel hrepeats train
  obtain ⟨full, q, hsend, hpush⟩ := emitEntry_eq k now (gained now s)
  obtain ⟨hroom, hfull⟩ := queue_and_events_of_synPush (s := emit _ (gained now s)) hpush
  refine ⟨_, q, full, ?exec, rfl, rfl, sentAt_setSlot now (gainAfter s now) now hsel.1.1 hrepeats, hroom,
    fun cap hcap hpos hlen => ?full⟩
  case exec =>
    rw [exec_schTick_of_set now hset, schPass_of_selected hsel, hsend, packed64_eq]
    rfl
  case full =>
    obtain ⟨hreject, hdrop⟩ := hfull cap hcap hpos hlen
    split
    · next hpolicy =>
      obtain ⟨hevents, hqueue⟩ := hreject hpolicy
      rw [pulsesOf_frameSeq_length, queueFullArg_eq _ (by omega)] at hevents
      exact ⟨hevents, hqueue⟩
    · next hpolicy =>
      obtain ⟨hevents, hqueue⟩ := hdrop hpolicy
      refine ⟨hqueue, _, hevents, fun hlt => ?_⟩
      have hdropped : s.syn.queue.length + 1 - cap < 2 ^ 32 := by omega
      exact (queueFullArg_eq true hdropped).trans (by rw [Bool.toNat_true, Nat.one_mul])

/-- Settles O45: SCH_SUBMIT makes its pass on the upserted state, on which SCH_TICK makes the same one. -/
theorem submitReplacesTheEntryThenPasses : Obligations.SubmitReplacesTheEntryThenPasses := by
  intro s c now hset
  obtain ⟨hentry, hothers, hgain, hlast⟩ := upserted_upsert s c
  have htick : exec (.schTick now) (s.withSch (upsert c s).sch) = .next (schPass now (upsert c s)) :=
    exec_schTick_of_set now hset
  exact ⟨(upsert c s).sch, schPass now (upsert c s), hentry, hothers, hgain, hlast, exec_schSubmit_of_set c now hset,
    htick⟩

end Sys2Proof.Machine

/-! SUPPORT. The train that ENC_ENCODE emits: its length, and the pulse at each of its positions (44_pulse_encoder.md
R190, R191). -/

namespace Sys2Proof.Machine

/-! ## The train of a sequence -/

/-- A bit sequence of length n maps to 1 + 2n pulses (R190). -/
theorem pulsesOf_length (c : CfgFile) (q : BitSeq) : (pulsesOf c q).length = 1 + 2 * q.length := by
  simp only [pulsesOf, bitPulses, List.length_cons, List.length_nil, List.length_flatMap, List.map_const',
    List.sum_replicate_nat]
  omega

/-- The two pulses of bit i stand behind those of the i bits before it (R190). -/
theorem flatMap_bitPulses_getElem? (c : CfgFile) {q : BitSeq} {i k : Nat} (hi : i < q.length) (hk : k < 2) :
    (q.flatMap (bitPulses c))[2 * i + k]? = (bitPulses c (q.getD i false))[k]? := by
  induction q generalizing i with
  | nil => exact absurd hi (Nat.not_lt_zero i)
  | cons b q ih =>
    rw [List.flatMap_cons]
    cases i with
    | zero =>
      have hfirst : k < (bitPulses c b).length := hk
      rw [Nat.mul_zero, Nat.zero_add, List.getElem?_append_left hfirst, List.getD_cons_zero]
    | succ i =>
      have hpast : 2 * (i + 1) + k = (bitPulses c b).length + (2 * i + k) := by
        simp only [bitPulses, List.length_cons, List.length_nil]
        omega
      rw [hpast, List.getElem?_append_right (Nat.le_add_right _ _), Nat.add_sub_cancel_left, List.getD_cons_succ,
        ih (Nat.lt_of_succ_lt_succ hi)]

/-- Behind the hello, the two pulses of bit i stand at the positions 2i + 1 and 2i + 2 (R190). -/
theorem pulsesOf_getElem?_bit (c : CfgFile) {q : BitSeq} {i k : Nat} (hi : i < q.length) (hk : k < 2) :
    (pulsesOf c q)[2 * i + k + 1]? = (bitPulses c (q.getD i false))[k]? := by
  rw [pulsesOf, List.getElem?_cons_succ, flatMap_bitPulses_getElem? c hi hk]

/-- ENC_ENCODE of a sequence emits its train and changes nothing else (R191). -/
theorem exec_encEncode_seq (q : BitSeq) (s : State) :
    exec (.encEncode (.seq q)) s = .next (s.withEvents (s.events ++ [.result (.train (pulsesOf s.cfg q))])) := rfl

/-! ## The obligation -/

/-- Settles O33: the train is `pulsesOf`, and the pulses of bit i are its positions 2i + 1 and 2i + 2. -/
theorem encEncodeTrainShape : Obligations.EncEncodeTrainShape := fun s q =>
  ⟨pulsesOf s.cfg q, exec_encEncode_seq q s, pulsesOf_length s.cfg q, rfl, fun _ hi =>
    ⟨pulsesOf_getElem?_bit s.cfg hi Nat.zero_lt_two, pulsesOf_getElem?_bit s.cfg hi Nat.one_lt_two⟩⟩

end Sys2Proof.Machine

/-! SUPPORT. The rounding of sample counts and the effect of SYN_ENQUEUE (45_synthesizer.md R201, R204, R205). -/

namespace Sys2Proof.Machine

/-! ## The rounding -/

/-- The rounding takes the quotient up to half a divisor of remainder and the next integer from half a divisor on; in a
tie it takes the even one (R201). -/
theorem rhe_cases (n d : Nat) :
    (rhe n d = n / d ∧ 2 * (n % d) ≤ d ∧ (2 * (n % d) = d → rhe n d % 2 = 0)) ∨
    (rhe n d = n / d + 1 ∧ d ≤ 2 * (n % d) ∧ (2 * (n % d) = d → rhe n d % 2 = 0)) := by
  have hrhe : rhe n d =
      if 2 * (n % d) > d then n / d + 1 else if 2 * (n % d) < d then n / d else n / d + n / d % 2 := by
    rw [Nat.mod_eq_sub_div_mul]
    rfl
  split at hrhe
  · omega
  · split at hrhe <;> omega

/-! ## The enqueue -/

/-- With SYN_TRAIL_TIME written, SYN_ENQUEUE of a train pushes it on the queue (R204). -/
theorem exec_synEnqueue_train_of_set {s : State} (t : PulseTrain) (h : SetBetween s.cfg 0x20 0x20) :
    exec (.synEnqueue (.train t)) s = .next (synPush t s) := by
  have haddr : ∀ r ∈ [RegName.synTrailTime], 0x20 ≤ r.addr.toNat ∧ r.addr.toNat ≤ 0x20 := by decide
  exact congrArg _ (requireCfg_of_set _ fun r hr => h r (haddr r hr).1 (haddr r hr).2)

/-! ## The obligations -/

/-- Settles O35: the error is the remainder where the quotient is taken, and the remainder less one divisor where its
successor is. -/
theorem roundingIsNearestTiesToEven : Obligations.RoundingIsNearestTiesToEven := by
  intro n d hd
  have hsplit : n = n / d * d + n % d := (Nat.div_add_mod' n d).symm
  have hmod : n % d < d := Nat.mod_lt n hd
  rcases rhe_cases n d with ⟨hdown, hhalf, htie⟩ | ⟨hup, hhalf, htie⟩
  · have herror : (n : Int) - (rhe n d : Int) * (d : Int) = ((n % d : Nat) : Int) := by
      rw [hdown]
      omega
    omega
  · have herror : (n : Int) - (rhe n d : Int) * (d : Int) = ((n % d : Nat) : Int) - (d : Int) := by
      rw [hup, Int.natCast_succ, Int.add_mul]
      omega
    omega

/-- Settles O36: SYN_ENQUEUE is a push, which does one thing with room and one under each policy at capacity. -/
theorem synEnqueueOutcome : Obligations.SynEnqueueOutcome := by
  intro s t hset t2
  rw [exec_synEnqueue_train_of_set t hset]
  refine ⟨fun hroom => congrArg _ (synPush_of_hasRoom t hroom), ?_⟩
  intro cap hcap hpos hfull dropped
  have hlength : t2.length = t.length + 1 := List.length_append
  by_cases hpolicy : s.cfg.synCtrl.value.toNat % 2 = 0
  · refine ⟨queueFullArg false (t.length + 1), ?_⟩
    rw [if_pos hpolicy, hlength]
    refine ⟨congrArg _ (synPush_of_full_rejectNew t hcap hfull hpolicy), fun hlt => ?_⟩
    rw [queueFullArg_eq false hlt, Bool.toNat_false, Nat.zero_mul, Nat.zero_add]
  · refine ⟨queueFullArg true dropped, ?_⟩
    rw [if_neg hpolicy]
    refine ⟨congrArg _ (synPush_of_full_dropOldest t hcap hpos hfull hpolicy), fun hlt => ?_⟩
    rw [queueFullArg_eq true hlt, Bool.toNat_true, Nat.one_mul]

end Sys2Proof.Machine

/-! SUPPORT. The system operations that act on the configuration registers or on the whole state: CFG_WRITE and CFG_READ
of a writable register, NOP and RESET (46_system.md R230 to R235). -/

namespace Sys2Proof.Machine

/-! ## The writable registers -/

/-- No two registers share an address (R67). -/
theorem RegName.addr_inj {r r' : RegName} : r.addr = r'.addr ↔ r = r' := by
  refine ⟨fun h => ?_, congrArg _⟩
  have htarget : CfgTarget.writable r = .writable r' := by rw [← cfgTarget_addr, ← cfgTarget_addr, h]
  injection htarget

/-- No register is wider than a read's answer (R30). -/
theorem RegName.width_le (r : RegName) : r.width ≤ 64 := by
  cases r <;> decide

/-- A stored register holds the low bits of its width (R30, R232). -/
theorem CfgFile.get_set_self_toNat (c : CfgFile) (v : BitVec 64) (r : RegName) :
    ((c.set v r).get r).toNat = v.toNat % 2 ^ r.width := by
  rw [CfgFile.get_set_self, BitVec.toNat_setWidth_of_le r.width_le, BitVec.toNat_setWidth]

/-- The stores that CFG_WRITE refuses, by address: a truncated 0 for SYN_RATE_DEN or SCH_REPEAT_COUNT (R232). -/
theorem refusedStore_iff (r : RegName) (v : BitVec 64) :
    ((r = .synRateDen ∨ r = .schRepeatCount) ∧ v.setWidth r.width = 0) ↔
      (r.addr.toNat = 0x22 ∧ v.toNat % 2 ^ 32 = 0) ∨ (r.addr.toNat = 0x30 ∧ v.toNat % 2 ^ 16 = 0) := by
  have hden : r.addr.toNat = 0x22 ↔ r = .synRateDen := by
    rw [← RegName.addr_inj, ← BitVec.toNat_inj]
    rfl
  have hcount : r.addr.toNat = 0x30 ↔ r = .schRepeatCount := by
    rw [← RegName.addr_inj, ← BitVec.toNat_inj]
    rfl
  have hzero : v.setWidth r.width = 0 ↔ v.toNat % 2 ^ r.width = 0 := by
    rw [← BitVec.toNat_inj, BitVec.toNat_setWidth, BitVec.ofNat_eq_ofNat, BitVec.toNat_ofNat, Nat.zero_mod]
  rw [hden, hcount, hzero, or_and_right]
  refine or_congr (and_congr_right ?_) (and_congr_right ?_)
  · rintro rfl
    rfl
  · rintro rfl
    rfl

/-- CFG_WRITE of a writable register: CFG_INVALID and nothing else, or the store and nothing else (R232). -/
theorem exec_cfgWrite_reg (s : State) (r : RegName) (v : BitVec 64) :
    exec (.cfgWrite r.addr v) s =
      if (r.addr.toNat = 0x22 ∧ v.toNat % 2 ^ 32 = 0) ∨ (r.addr.toNat = 0x30 ∧ v.toNat % 2 ^ 16 = 0) then
        .next (s.withEvents (s.events ++ [.diag .cfgInvalid (BitVec.ofNat 64 r.addr.toNat)]))
      else .next (s.withCfg (s.cfg.set v r)) := by
  simp only [exec, execCfgWrite, cfgWriteReg, cfgTarget_addr, raise_eq, refusedStore_iff, BitVec.ofNat_toNat]
  split <;> rfl

/-- CFG_READ of a writable register: its value, or CFG_UNSET before it is written, and nothing else (R234). -/
theorem exec_cfgRead_reg (s : State) (r : RegName) :
    exec (.cfgRead r.addr) s = .next (s.withEvents (s.events ++
      [if s.cfg.isSet r = true then .result (.word (s.cfg.get r))
       else .diag .cfgUnset (BitVec.ofNat 64 r.addr.toNat)])) := by
  simp only [exec, execCfgRead, cfgReadReg, cfgTarget_addr, raise_eq, emit, BitVec.ofNat_toNat]
  cases s.cfg.isSet r <;> rfl

/-! ## Reset -/

/-- The written flags after reset: DEC_CTRL, the encoder's times, SYN_QUEUE_CAP and SYN_CTRL (R291). -/
theorem CfgFile.isSet_reset_iff (r : RegName) :
    CfgFile.reset.isSet r = true ↔
      r.addr.toNat = 0x07 ∨ (0x10 ≤ r.addr.toNat ∧ r.addr.toNat ≤ 0x13) ∨ r.addr.toNat = 0x26 ∨
        r.addr.toNat = 0x27 := by
  cases r <;> decide

/-- A state whose four parts are the reset ones is at reset, whatever its streams (R291). -/
theorem atReset_of_parts {t : State} (hdec : t.dec = .reset) (hsch : t.sch = .reset) (hsyn : t.syn = .reset)
    (hcfg : t.cfg = .reset) : AtReset t where
  dec := by simp [hdec, Decoder.reset]
  slots k := by simp [hsch, Scheduler.reset, Slot.reset, slotAt]
  gain := by simp [hsch, Scheduler.reset]
  syn := by simp [hsyn, Synth.reset]
  flags r := by rw [hcfg, CfgFile.isSet_reset_iff]
  values := by simp [hcfg, CfgFile.reset, CfgReg.resetTo]

/-- RESET resets the four parts of the block and nothing else (R235). -/
theorem exec_reset (s : State) : exec .reset s = .next (blockReset s) := rfl

/-! ## The obligations -/

/-- Settles O13: an address from 0x40 to 0x45 is a status register's, and a writable one is refused or stored. -/
theorem cfgWriteOutcome : Obligations.CfgWriteOutcome := by
  intro s a v
  refine ⟨fun ⟨hlo, hhi⟩ => ?status, exec_cfgWrite_unused s v, ?writable⟩
  case status =>
    obtain ⟨st, rfl⟩ := exists_statusAddr hlo hhi
    exact exec_cfgWrite_status s st v
  case writable =>
    rintro r rfl
    rw [exec_cfgWrite_reg]
    split
    · rfl
    · exact ⟨s.cfg.set v r, rfl, s.cfg.get_set_self_toNat v r, s.cfg.isSet_set_self v r, fun r' hne =>
        ⟨s.cfg.get_set_of_ne v hne, s.cfg.isSet_set_of_ne v hne⟩⟩

/-- Settles O16: one lemma for each kind of address, and the address is the header's field. -/
theorem cfgReadOutcome : Obligations.CfgReadOutcome := by
  refine ⟨fun s _ h => exec_cfgRead_unused s h, exec_cfgRead_reg, exec_cfgRead_status, fun s w rest hop => ?_⟩
  rw [step_header s rest (by omega), instrOf_cfgRead _ hop, extractLsb'_eq_ofNat_div]

/-- Settles O9: the operation is the identity, and a step on its header takes the header alone. -/
theorem nopChangesNothing : Obligations.NopChangesNothing := by
  refine ⟨fun _ => rfl, fun s w rest hop => ?_⟩
  rw [step_header s rest (by omega), instrOf_nop _ hop]
  rfl

/-- Settles O18: the four parts are the reset ones, and the event stream is none of them. -/
theorem resetOperationRestoresTheResetState : Obligations.ResetOperationRestoresTheResetState := by
  refine ⟨fun s => ⟨blockReset s, exec_reset s, atReset_of_parts rfl rfl rfl rfl, rfl⟩, fun s w rest hop => ?_⟩
  rw [step_header s rest (by omega), instrOf_reset _ hop]

end Sys2Proof.Machine

/-! SUPPORT. What an operation can do, said once: its configuration check refuses it, or it appends events of its own, or
it ends in the raise of another refusal (10_state.md R22, 46_system.md R231, 60_exceptions.md R261). -/

namespace Sys2Proof.Machine

/-! ## Appended events -/

/-- `t` holds the events of `s` and after them only events with `P`. -/
def Appends (P : Event → Prop) (s t : State) : Prop := ∃ es, t.events = s.events ++ es ∧ ∀ e ∈ es, P e

theorem Appends.of_events_eq {P : Event → Prop} {s t : State} (h : t.events = s.events) : Appends P s t :=
  ⟨[], by rw [h, List.append_nil], List.forall_mem_nil _⟩

theorem Appends.trans {P : Event → Prop} {s t u : State} (hst : Appends P s t) (htu : Appends P t u) :
    Appends P s u := by
  obtain ⟨es, he, hes⟩ := hst
  obtain ⟨fs, hf, hfs⟩ := htu
  exact ⟨es ++ fs, by rw [hf, he, List.append_assoc], List.forall_mem_append.mpr ⟨hes, hfs⟩⟩

theorem appends_emit {P : Event → Prop} {e : Event} (s : State) (h : P e) : Appends P s (emit e s) :=
  ⟨[e], rfl, List.forall_mem_singleton.mpr h⟩

/-- A diagnostic of one of the request and configuration codes (R261). -/
def isRefusal : Event → Bool
  | .diag code _ => isRaiseCode code
  | .result _ | .rxSeq _ | .rxCmd _ | .txCmd _ | .gain _ | .samples _ => false

/-- An event that operation `op` may emit (R22, R261) and that is no refusal. -/
def Ordinary (op : BitVec 4) (e : Event) : Prop := op ∈ emitters e ∧ isRefusal e = false

/-! ## The pulse decoder -/

/-- The receive path emits a Command or a frame error (R236). -/
theorem rxEvents_ordinary {op : BitVec 4} (hop : op ∈ [0x1#4, 0x2#4]) (q : BitSeq) :
    ∀ e ∈ rxEvents q, Ordinary op e := by
  have hframe : op ∈ [0x1#4, 0x2#4, 0x5#4] := List.mem_append_left [0x5#4] hop
  unfold rxEvents
  split
  · exact List.forall_mem_nil _
  · split
    · exact List.forall_mem_singleton.mpr ⟨hframe, rfl⟩
    · split
      · exact List.forall_mem_singleton.mpr ⟨hframe, rfl⟩
      · exact List.forall_mem_singleton.mpr ⟨hop, rfl⟩

/-- A delivered flush emits the lost bits' warning, the sequence and the receive path's event (R112). -/
theorem flushEvents_ordinary {op : BitVec 4} (hop : op ∈ [0x1#4, 0x2#4]) (d : Decoder) :
    ∀ e ∈ flushEvents d, Ordinary op e := by
  have hoverflow : ∀ e ∈ (if d.ovf = true then [Event.diag .decBufOverflow (BitVec.ofNat 64 d.buf.length)] else []),
      Ordinary op e := by
    split
    · exact List.forall_mem_singleton.mpr ⟨hop, rfl⟩
    · exact List.forall_mem_nil _
  exact List.forall_mem_append.mpr
    ⟨List.forall_mem_append.mpr ⟨hoverflow, List.forall_mem_singleton.mpr ⟨hop, rfl⟩⟩, rxEvents_ordinary hop d.buf⟩

/-- A flush of either kind, and the decoder's next state, which is no event (R112). -/
theorem setDecState_flush_appends {op : BitVec 4} (hop : op ∈ [0x1#4, 0x2#4]) (v : DecState) (kind : FlushKind)
    (s : State) : Appends (Ordinary op) s (setDecState v (flush kind s)) := by
  rw [flush_eq]
  refine ⟨_, rfl, ?_⟩
  split
  · exact List.forall_mem_nil _
  · exact flushEvents_ordinary hop s.dec

/-- A warning, a flush and the decoder's next state (R115, R116). -/
theorem setDecState_flush_warn_appends {code : DiagCode} {arg : BitVec 64} (h : Ordinary 0x1 (.diag code arg))
    (v : DecState) (kind : FlushKind) (s : State) :
    Appends (Ordinary 0x1) s (setDecState v (flush kind (warn code arg s))) :=
  (appends_emit s h).trans (setDecState_flush_appends (List.mem_cons_self ..) v kind (warn code arg s))

/-- An appended bit is no event (R117). -/
theorem appendBit_appends (P : Event → Prop) (b : Bool) (s : State) : Appends P s (appendBit b s) :=
  .of_events_eq (by rw [appendBit_eq, State.withDec_events])

/-- A high pulse in a message (R115). -/
theorem pulseHigh_appends (d : Dur) (s : State) : Appends (Ordinary 0x1) s (pulseHigh d s) := by
  unfold pulseHigh
  split
  · exact setDecState_flush_warn_appends ⟨List.mem_cons_self .., rfl⟩ _ _ s
  · split
    · exact setDecState_flush_warn_appends ⟨List.mem_cons_self .., rfl⟩ _ _ s
    · exact .of_events_eq rfl

/-- A low pulse in a message (R116). -/
theorem pulseLow_appends (d : Dur) (s : State) : Appends (Ordinary 0x1) s (pulseLow d s) := by
  unfold pulseLow
  split
  · exact setDecState_flush_warn_appends ⟨List.mem_cons_self .., rfl⟩ _ _ s
  · split
    · exact appendBit_appends _ _ s
    · split
      · exact setDecState_flush_appends (List.mem_cons_self ..) _ _ s
      · exact appendBit_appends _ _ s

/-- DEC_PULSE behind its configuration check (R113). -/
theorem classifyPulse_appends (level : Bool) (d : Dur) (s : State) :
    Appends (Ordinary 0x1) s (classifyPulse level d s) := by
  cases hstate : s.dec.state with
  | awaitingHello =>
    rw [classifyPulse_awaiting level d hstate, pulseAwaiting]
    split <;> exact .of_events_eq rfl
  | inMessage =>
    cases level with
    | true => rw [classifyPulse_high d hstate]; exact pulseHigh_appends d s
    | false => rw [classifyPulse_low d hstate]; exact pulseLow_appends d s

/-! ## The codec -/

/-- CODEC_DECODE of a sequence emits its result or a frame error (R142, R147). -/
theorem codecDecodeSeq_appends (q : BitSeq) (s : State) : Appends (Ordinary 0x5) s (codecDecodeSeq q s) := by
  unfold codecDecodeSeq
  rcases decodeFrame_cases q with ⟨-, he⟩ | ⟨-, -, he⟩ | ⟨-, -, he⟩ <;> rw [he] <;>
    exact appends_emit s ⟨by simp [emitters], rfl⟩

/-! ## The synthesizer -/

/-- A push emits at most SYN_QUEUE_FULL (R205). -/
theorem synPush_appends {op : BitVec 4} (hop : op ∈ [0x6#4, 0x7#4, 0x9#4]) (t : PulseTrain) (s : State) :
    Appends (Ordinary op) s (synPush t s) := by
  obtain ⟨es, q, he, hcases⟩ := synPush_cases t s
  rw [he]
  refine ⟨es, rfl, ?_⟩
  rcases hcases with ⟨rfl, -⟩ | ⟨rfl, -⟩ | ⟨cap, -, -, rfl, -⟩
  · exact List.forall_mem_nil _
  · exact List.forall_mem_singleton.mpr ⟨hop, rfl⟩
  · exact List.forall_mem_singleton.mpr ⟨hop, rfl⟩

/-- A step of the fill loop emits at most SYN_PREEMPT (R207). -/
theorem fillStep_appends (c : FillCtx) : Appends (Ordinary 0xA) c.st (fillStep c).st := by
  rcases fillStep_cases c with ⟨-, he⟩ | ⟨-, t, q, -, -, he⟩ | ⟨-, p, ps, -, -, he⟩ | ⟨-, -, -, he⟩ <;> rw [he]
  · exact .of_events_eq rfl
  · simp only [fillPopTrain]
    split
    · exact appends_emit c.st ⟨List.mem_cons_self .., rfl⟩
    · exact .of_events_eq rfl
  · exact .of_events_eq rfl
  · exact .of_events_eq rfl

/-- The fill loop emits what its steps emit (R206). -/
theorem fillLoop_appends (fuel : Nat) (c : FillCtx) : Appends (Ordinary 0xA) c.st (fillLoop fuel c).st := by
  induction fuel generalizing c with
  | zero => exact .of_events_eq rfl
  | succ fuel ih =>
    unfold fillLoop
    split
    · exact .of_events_eq rfl
    · exact (fillStep_appends c).trans (ih (fillStep c))

/-- SYN_FILL behind its configuration check (R206). -/
theorem fillSamples_appends (n : Nat) (s : State) : Appends (Ordinary 0xA) s (fillSamples n s) :=
  (fillLoop_appends (fillFuel s.syn) ⟨s, [], n⟩).trans (appends_emit _ ⟨List.mem_cons_self .., rfl⟩)

/-! ## The scheduler -/

/-- The gain step emits at most EvGain (R165). -/
theorem gained_appends {op : BitVec 4} (hop : op ∈ [0x6#4, 0x7#4]) (now : Time) (s : State) :
    Appends (Ordinary op) s (gained now s) := by
  refine ⟨gainEvents s now, rfl, ?_⟩
  unfold gainEvents
  split
  · exact List.forall_mem_singleton.mpr ⟨hop, rfl⟩
  · exact List.forall_mem_nil _

/-- A send emits EvTxCmd and what the push emits (R170, R237). -/
theorem emitEntry_appends {op : BitVec 4} (hop : op ∈ [0x6#4, 0x7#4]) (k : Key) (now : Time) (s : State) :
    Appends (Ordinary op) s (emitEntry k now s) :=
  (appends_emit (e := .txCmd _) s ⟨hop, rfl⟩).trans (synPush_appends (List.mem_append_left [0x9#4] hop) _ _)

/-- A pass emits what its gain step emits, and then a warning or a send (R164). -/
theorem schPass_appends {op : BitVec 4} (hop : op ∈ [0x6#4, 0x7#4]) (now : Time) (s : State) :
    Appends (Ordinary op) s (schPass now s) := by
  rw [schPass_eq]
  refine (gained_appends hop now s).trans ?_
  cases pickKey now s with
  | none => exact appends_emit _ ⟨hop, rfl⟩
  | some k => exact emitEntry_appends hop k now _

/-! ## Every operation -/

/-- `t` is what operation `i` makes of `s` behind its configuration check: it appends events of its own, or it ends in the
raise of a refusal, which is CFG_UNSET for CFG_READ alone (R231, R234, R261). -/
def Performs (i : Instr) (s t : State) : Prop :=
  Appends (Ordinary (opcodeOf i)) s t ∨
    ∃ code arg, t = raise code arg s ∧ isRaiseCode code = true ∧ opcodeOf i ∈ emitters (.diag code arg) ∧
      (code = .cfgUnset → ∃ a, i = .cfgRead a)

/-- Operation `i` is refused at `s` with the lowest UNSET register of its list, or its list is written and it is
performed (R231). -/
def CheckedOutcome (i : Instr) (s : State) : Prop :=
  (∃ r, needsReg i r ∧ s.cfg.isSet r = false ∧
      (∀ r', needsReg i r' → s.cfg.isSet r' = false → r.addr.toNat ≤ r'.addr.toNat) ∧
      exec i s = .next (raise .cfgUnset (r.addr.setWidth 64) s)) ∨
    (∀ r, needsReg i r → s.cfg.isSet r = true) ∧ ∃ t, exec i s = .next t ∧ Performs i s t

/-- An operation performed by emitting one event of its own. -/
theorem performs_emit {i : Instr} {e : Event} (s : State) (h : isRefusal e = false)
    (hop : opcodeOf i ∈ emitters e := by simp [opcodeOf, emitters]) : Performs i s (emit e s) :=
  .inl (appends_emit s ⟨hop, h⟩)

/-- An operation that ends in the raise of a refusal other than CFG_UNSET. -/
theorem performs_raise {i : Instr} {code : DiagCode} {arg : BitVec 64} (s : State)
    (hcode : isRaiseCode code = true) (hne : code ≠ .cfgUnset)
    (hop : opcodeOf i ∈ emitters (.diag code arg) := by simp [opcodeOf, emitters]) : Performs i s (raise code arg s) :=
  .inr ⟨code, arg, rfl, hcode, hop, fun h => absurd h hne⟩

/-- An operation with a configuration check over a list of registers. -/
theorem checkedOutcome_of_requireCfg {i : Instr} {s : State} {regs : List RegName} {body : State → State}
    (hregs : ∀ r, needsReg i r ↔ r ∈ regs) (hexec : exec i s = .next (requireCfg regs body s))
    (hbody : Appends (Ordinary (opcodeOf i)) s (body s)) : CheckedOutcome i s := by
  simp only [CheckedOutcome, hregs, hexec]
  rcases requireCfg_cases regs body s with ⟨hset, he⟩ | ⟨r, hr, hunset, hlowest, he⟩
  · exact .inr ⟨hset, body s, by rw [he], .inl hbody⟩
  · exact .inl ⟨r, hr, hunset, hlowest, by rw [he]⟩

/-- An operation with no configuration check. -/
theorem checkedOutcome_of_performs {i : Instr} {s t : State} (hnone : ∀ r, ¬needsReg i r) (hexec : exec i s = .next t)
    (h : Performs i s t) : CheckedOutcome i s :=
  .inr ⟨fun r hr => absurd hr (hnone r), t, hexec, h⟩

/-- The registers 0x00 to 0x06 are DEC_PULSE's list (R113). -/
theorem addr_le_iff_mem_decRegs (r : RegName) : r.addr.toNat ≤ 0x06 ↔ r ∈ decRegs := by
  cases r <;> decide

/-- The registers 0x20 and 0x30 to 0x34 are the scheduler's list (R160). -/
theorem addr_eq_or_le_iff_mem_schRegs (r : RegName) :
    r.addr.toNat = 0x20 ∨ (0x30 ≤ r.addr.toNat ∧ r.addr.toNat ≤ 0x34) ↔ r ∈ schRegs := by
  cases r <;> decide

/-- The registers 0x21 to 0x25 are SYN_FILL's list (R200). -/
theorem addr_le_iff_mem_fillRegs (r : RegName) : 0x21 ≤ r.addr.toNat ∧ r.addr.toNat ≤ 0x25 ↔ r ∈ fillRegs := by
  cases r <;> decide

/-- The register 0x20 is SYN_ENQUEUE's list (R204). -/
theorem addr_eq_iff_mem_synTrailTime (r : RegName) : r.addr.toNat = 0x20 ↔ r ∈ [RegName.synTrailTime] := by
  cases r <;> decide

/-- CFG_WRITE stores without an event or raises a refusal other than CFG_UNSET (R232). -/
theorem cfgWriteReg_performs (a : BitVec 8) (v : BitVec 64) (s : State) :
    Performs (.cfgWrite a v) s (cfgWriteReg a v s) := by
  rcases cfgWriteReg_cases a v s with ⟨st, -, he⟩ | ⟨-, he⟩ | ⟨r, -, -, -, he⟩ | ⟨r, -, -, he⟩ <;> rw [he]
  · exact performs_raise s rfl nofun
  · exact performs_raise s rfl nofun
  · exact performs_raise s rfl nofun
  · exact .inl (.of_events_eq rfl)

/-- CFG_READ emits its result or raises CFG_BAD_ADDR or CFG_UNSET (R234). -/
theorem cfgReadReg_performs (a : BitVec 8) (s : State) : Performs (.cfgRead a) s (cfgReadReg a s) := by
  unfold cfgReadReg
  split
  · exact performs_raise s rfl nofun
  · exact performs_emit s rfl
  · split
    · exact .inr ⟨_, _, rfl, rfl, by simp [opcodeOf, emitters], fun _ => ⟨a, rfl⟩⟩
    · exact performs_emit s rfl

/-- Every operation is refused by its configuration check or performed (R231). -/
theorem exec_checkedOutcome (i : Instr) (s : State) : CheckedOutcome i s := by
  cases i with
  | decPulse level d =>
    exact checkedOutcome_of_requireCfg addr_le_iff_mem_decRegs rfl (classifyPulse_appends level d s)
  | schSubmit c now =>
    exact checkedOutcome_of_requireCfg (body := fun s => schPass now (upsert c s)) addr_eq_or_le_iff_mem_schRegs rfl
      (schPass_appends (by simp [opcodeOf]) now (upsert c s))
  | schTick now =>
    exact checkedOutcome_of_requireCfg addr_eq_or_le_iff_mem_schRegs rfl (schPass_appends (by simp [opcodeOf]) now s)
  | synFill n => exact checkedOutcome_of_requireCfg addr_le_iff_mem_fillRegs rfl (fillSamples_appends n.toNat s)
  | synEnqueue o =>
    cases o with
    | train t =>
      exact checkedOutcome_of_requireCfg addr_eq_iff_mem_synTrailTime rfl (synPush_appends (by simp [opcodeOf]) t s)
    | tooLong count => exact checkedOutcome_of_performs nofun rfl (performs_raise s rfl nofun)
  | codecDecode o =>
    cases o with
    | seq q => exact checkedOutcome_of_performs nofun rfl (.inl (codecDecodeSeq_appends q s))
    | tooLong len => exact checkedOutcome_of_performs nofun rfl (performs_raise s rfl nofun)
  | encEncode o =>
    cases o with
    | seq q => exact checkedOutcome_of_performs nofun rfl (performs_emit s rfl)
    | tooLong len => exact checkedOutcome_of_performs nofun rfl (performs_raise s rfl nofun)
  | decEnd =>
    exact checkedOutcome_of_performs nofun rfl (.inl (setDecState_flush_appends (by simp [opcodeOf]) _ _ s))
  | cksum g c b => exact checkedOutcome_of_performs nofun rfl (performs_emit s rfl)
  | codecEncode rg rc rb rcmd rcol rck => exact checkedOutcome_of_performs nofun rfl (performs_emit s rfl)
  | cfgWrite a v => exact checkedOutcome_of_performs nofun rfl (cfgWriteReg_performs a v s)
  | cfgRead a => exact checkedOutcome_of_performs nofun rfl (cfgReadReg_performs a s)
  | reservedD | reservedE => exact checkedOutcome_of_performs nofun rfl (performs_raise s rfl nofun)
  | nop | reset => exact checkedOutcome_of_performs nofun rfl (.inl (.of_events_eq rfl))

/-- An ordinary event is no CFG_UNSET. -/
theorem Ordinary.not_cfgUnset {op : BitVec 4} {e : Event} (h : Ordinary op e) : isDiag .cfgUnset e = false := by
  obtain ⟨-, hrefusal⟩ := h
  cases e with
  | diag code arg =>
    rw [isDiag, decide_eq_false_iff_not]
    rintro rfl
    cases hrefusal
  | result | rxSeq | rxCmd | txCmd | gain | samples => rfl

/-- A performed operation other than CFG_READ emits no CFG_UNSET (R231, R234). -/
theorem Performs.filter_cfgUnset {i : Instr} {s t : State} (h : Performs i s t) (hread : ∀ a, i ≠ .cfgRead a) :
    t.events.filter (isDiag .cfgUnset) = s.events.filter (isDiag .cfgUnset) := by
  rcases h with ⟨es, he, hes⟩ | ⟨code, arg, rfl, -, -, hunset⟩
  · have hnone : es.filter (isDiag .cfgUnset) = [] :=
      List.filter_eq_nil_iff.mpr fun e hm => Bool.not_eq_true _ ▸ (hes e hm).not_cfgUnset
    rw [he, List.filter_append, hnone, List.append_nil]
  · have hcode : code ≠ .cfgUnset := fun hc => (hunset hc).elim hread
    simp [raise_eq, isDiag, hcode]

/-! ## The obligation -/

/-- Settles O12: of the two outcomes of `exec_checkedOutcome`, an UNSET register leaves the refusal and a written list
the performed operation. -/
theorem unsetRegisterRefusesTheOperation : Obligations.UnsetRegisterRefusesTheOperation := by
  refine ⟨fun i s r hneeds hunset hlowest => ?unset, fun i s hset hread => ?written⟩
  case unset =>
    rcases exec_checkedOutcome i s with ⟨r', hneeds', hunset', hlowest', he⟩ | ⟨hset, -⟩
    · have haddr : r'.addr.toNat = r.addr.toNat :=
        Nat.le_antisymm (hlowest' r hneeds hunset) (hlowest r' hneeds' hunset')
      rw [he, raise_eq, ← haddr, BitVec.ofNat_toNat]
    · exact absurd (hset r hneeds) (by simp [hunset])
  case written =>
    rcases exec_checkedOutcome i s with ⟨r, hneeds, hunset, -⟩ | ⟨-, t, he, hperforms⟩
    · exact absurd (hset r hneeds) (by simp [hunset])
    · exact ⟨t, he, hperforms.filter_cfgUnset hread⟩

end Sys2Proof.Machine

/-! THEOREM. The state after power-on (70_reset_and_hazards.md R290, R291). -/

namespace Sys2Proof.Machine

/-- Settles O19: power-on builds the four parts that RESET also gives, so `atReset_of_parts` applies to it as it does to
the outcome of RESET (R290). -/
theorem powerOnStateIsTheResetState : Obligations.PowerOnStateIsTheResetState := by
  unfold Obligations.PowerOnStateIsTheResetState
  exact atReset_of_parts (t := State.reset) rfl rfl rfl rfl

end Sys2Proof.Machine

/-! SUPPORT. The encoder and the decoder put together: what a request's header is as one number, that its fields read
back, and that whatever decodes is well-formed (30_encoding.md R86 to R102). -/

namespace Sys2Proof.Machine

/-! ## The request an instruction encodes -/

/-- The layout of every request header, lowest part last: op code, reserved bits, W[15:8], reserved bits, W[63:32] and
W[127:64] (R86, R88 to R98). -/
def headerLayout (hi : BitVec 64) (mid : BitVec 32) (b : BitVec 8) (op : BitVec 4) : Header :=
  hi ++ mid ++ 0#16 ++ b ++ 0#4 ++ op

/-- A header as the number its parts add up to. -/
theorem headerLayout_toNat (hi : BitVec 64) (mid : BitVec 32) (b : BitVec 8) (op : BitVec 4) :
    (headerLayout hi mid b op).toNat =
      hi.toNat * 2 ^ 64 + mid.toNat * 2 ^ 32 + b.toNat * 2 ^ 8 + op.toNat := by
  simp only [headerLayout, append_toNat_eq_add, BitVec.toNat_ofNat]
  omega

/-- The op code of a header (R86). -/
theorem headerLayout_op (hi : BitVec 64) (mid : BitVec 32) (b : BitVec 8) (op : BitVec 4) :
    (headerLayout hi mid b op).toNat % 16 = op.toNat := by
  rw [headerLayout_toNat]
  omega

/-- A field is the value whose number stands at its bits. -/
theorem extractLsb'_eq_of_toNat {w : Header} {lo width : Nat} {x : BitVec width}
    (h : w.toNat / 2 ^ lo % 2 ^ width = x.toNat) : w.extractLsb' lo width = x := by
  apply BitVec.eq_of_toNat_eq
  rw [extractLsb'_eq_ofNat_div, BitVec.toNat_ofNat, h]

/-- W[127:64] of a header. -/
theorem headerLayout_hi (hi : BitVec 64) (mid : BitVec 32) (b : BitVec 8) (op : BitVec 4) :
    (headerLayout hi mid b op).extractLsb' 64 64 = hi :=
  extractLsb'_eq_of_toNat (by rw [headerLayout_toNat]; omega)

/-- W[63:32] of a header. -/
theorem headerLayout_mid (hi : BitVec 64) (mid : BitVec 32) (b : BitVec 8) (op : BitVec 4) :
    (headerLayout hi mid b op).extractLsb' 32 32 = mid :=
  extractLsb'_eq_of_toNat (by rw [headerLayout_toNat]; omega)

/-- The byte W[15:8]. -/
theorem headerLayout_byte (hi : BitVec 64) (mid : BitVec 32) (b : BitVec 8) (op : BitVec 4) :
    (headerLayout hi mid b op).toNat / 2 ^ 8 % 2 ^ 8 = b.toNat := by
  rw [headerLayout_toNat]
  omega

/-- The byte W[15:8] as a field. -/
theorem headerLayout_byteField (hi : BitVec 64) (mid : BitVec 32) (b : BitVec 8) (op : BitVec 4) :
    (headerLayout hi mid b op).extractLsb' 8 8 = b :=
  extractLsb'_eq_of_toNat (headerLayout_byte ..)

/-- The pulse words behind an instruction's header (R95). -/
def pulseWordsOf : Instr → List Word
  | .synEnqueue o => (trainFields o).2
  | _ => []

/-- A request is its header and its pulse words. -/
theorem encode_eq (i : Instr) : encode i = headerWords (encodeHeader i) ++ pulseWordsOf i := by
  cases i <;> rfl

/-- The header of an instruction carries its op code (R86, R87). -/
theorem encodeHeader_op (i : Instr) : (encodeHeader i).toNat % 16 = (opcodeOf i).toNat := by
  cases i <;> exact headerLayout_op ..

/-! ## Operands read back -/

/-- The W[127:64] and the W[15:8] of a well-formed sequence operand give the operand back (R92, R102). -/
theorem seqOperand_headerLayout {o : SeqOperand} (mid : BitVec 32) (op : BitVec 4) (h : o.wellFormed = true) :
    seqOperand (headerLayout (seqFields o).1 mid (seqFields o).2 op) = o := by
  have hbits : (headerLayout (seqFields o).1 mid (seqFields o).2 op).extractLsb' 64 64 = (seqFields o).1 := by
    exact headerLayout_hi ..
  have hlen : (headerLayout (seqFields o).1 mid (seqFields o).2 op).toNat / 2 ^ 8 % 2 ^ 7 =
      (seqFields o).2.toNat % 2 ^ 7 := by
    rw [← headerLayout_byte (seqFields o).1 mid (seqFields o).2 op]
    omega
  cases o with
  | seq s =>
    have hs : s.length ≤ 64 := of_decide_eq_true h
    have hlength : (headerLayout (seqFields (.seq s)).1 mid (seqFields (.seq s)).2 op).toNat / 2 ^ 8 % 2 ^ 7 =
        s.length := by
      rw [hlen]
      simp only [seqFields, BitVec.toNat_ofNat]
      omega
    rw [seqOperand, seqLen_toNat, hlength, hbits, if_neg (by simpa [Config.seqCap] using hs)]
    exact congrArg _ (seqOfBits_bitsOfSeq s hs)
  | tooLong len =>
    have hgt : 64 < len.toNat := of_decide_eq_true h
    have hlength :
        (headerLayout (seqFields (.tooLong len)).1 mid (seqFields (.tooLong len)).2 op).toNat / 2 ^ 8 % 2 ^ 7 =
          len.toNat := by
      have := len.isLt
      rw [hlen]
      simp only [seqFields, append_toNat_eq_add, BitVec.toNat_ofNat]
      omega
    rw [seqOperand_of_gt (hgt.trans_eq hlength.symm)]
    exact congrArg _ (BitVec.eq_of_toNat_eq ((seqLen_toNat _).trans hlength))

/-- A header with the count of a well-formed train operand, and its pulse words, give the operand back (R95, R102). -/
theorem trainOperand_headerLayout {o : TrainOperand} (hi : BitVec 64) (mid : BitVec 32) (op : BitVec 4)
    (h : o.wellFormed = true) :
    trainOperand (headerLayout hi mid (trainFields o).1 op) (trainFields o).2 = o := by
  have hcount := headerLayout_byte hi mid (trainFields o).1 op
  cases o with
  | train t =>
    have ht : t.length ≤ 129 := of_decide_eq_true h
    have hle : (headerLayout hi mid (trainFields (.train t)).1 op).toNat / 2 ^ 8 % 2 ^ 8 ≤ 129 := by
      rw [hcount]
      simp only [trainFields, BitVec.toNat_ofNat]
      omega
    have hpulses : (t.map wordOfPulse).map pulseOfWord = t := by
      rw [List.map_map]
      exact List.map_id'' pulseOfWord_wordOfPulse t
    rw [trainOperand_of_le _ hle]
    exact congrArg _ hpulses
  | tooLong count =>
    have hgt : 129 < count.toNat := of_decide_eq_true h
    rw [trainOperand_of_gt _ (hgt.trans_eq hcount.symm)]
    exact congrArg _ (BitVec.eq_of_toNat_eq ((trainCount_toNat _).trans hcount))

/-- A request has as many pulse words as its header counts (R86, R95). -/
theorem pulseWordsOf_length {i : Instr} (h : i.wellFormed = true) :
    (pulseWordsOf i).length = pulseCount (encodeHeader i) := by
  cases i with
  | synEnqueue o =>
    rw [pulseCount_synEnqueue (encodeHeader_op (.synEnqueue o))]
    refine Eq.trans ?_ (headerLayout_byte 0 0 (trainFields o).1 0x9).symm
    cases o with
    | train t =>
      have ht : t.length ≤ 129 := of_decide_eq_true h
      simp only [pulseWordsOf, trainFields, List.length_map, BitVec.toNat_ofNat]
      omega
    | tooLong count => simp only [pulseWordsOf, trainFields, List.length_replicate]
  | _ => exact (pulseCount_of_op_ne ((encodeHeader_op _).trans_ne (by simp [opcodeOf]))).symm

/-- The Command of its own data word (R81, R99). -/
theorem commandOfData_pack (c : Command) : commandOfData c.pack = c := by
  simp only [commandOfData, extractLsb'_eq_ofNat_div, pack_toNat, dataNumber]
  congr 1 <;> apply BitVec.eq_of_toNat_eq <;> rw [BitVec.toNat_ofNat] <;> omega

/-- The six raw fields of CODEC_ENCODE stand where the decoder reads them (R90, R91). -/
theorem extractLsb'_rawFields (rg rc rb rcmd rcol rck : BitVec 8) (b : BitVec 8) (op : BitVec 4) :
    let w := headerLayout (0#48 ++ rck ++ rcol) (rcmd ++ rb ++ rc ++ rg) b op
    w.extractLsb' 32 8 = rg ∧ w.extractLsb' 40 8 = rc ∧ w.extractLsb' 48 8 = rb ∧ w.extractLsb' 56 8 = rcmd ∧
      w.extractLsb' 64 8 = rcol ∧ w.extractLsb' 72 8 = rck := by
  intro w
  have hw : w.toNat = _ := headerLayout_toNat ..
  simp only [append_toNat_eq_add, BitVec.toNat_ofNat] at hw
  refine ⟨?_, ?_, ?_, ?_, ?_, ?_⟩ <;> exact extractLsb'_eq_of_toNat (by omega)

/-- The three fields of CKSUM stand where the decoder reads them (R90). -/
theorem extractLsb'_cksumFields (group chan : BitVec 4) (brightness : BitVec 8) (b : BitVec 8) (op : BitVec 4) :
    let w := headerLayout 0 (0#16 ++ brightness ++ chan ++ group) b op
    w.extractLsb' 32 4 = group ∧ w.extractLsb' 36 4 = chan ∧ w.extractLsb' 40 8 = brightness := by
  intro w
  have hw : w.toNat = _ := headerLayout_toNat ..
  simp only [append_toNat_eq_add, BitVec.toNat_ofNat] at hw
  refine ⟨?_, ?_, ?_⟩ <;> exact extractLsb'_eq_of_toNat (by omega)

/-- The level of DEC_PULSE stands at W[8] (R89). -/
theorem getLsbD_levelByte (hi : BitVec 64) (mid : BitVec 32) (level : Bool) (op : BitVec 4) :
    (headerLayout hi mid (0#7 ++ BitVec.ofBool level) op).getLsbD 8 = level := by
  have hbyte := headerLayout_byteField hi mid (0#7 ++ BitVec.ofBool level) op
  have hbit : ((headerLayout hi mid (0#7 ++ BitVec.ofBool level) op).extractLsb' 8 8).getLsbD 0 = level := by
    rw [hbyte]
    cases level <;> rfl
  simpa using hbit

/-- The instruction of a header that was encoded from it (R87 to R98). -/
theorem instrOf_encodeHeader {i : Instr} (h : i.wellFormed = true) : instrOf (encodeHeader i) (pulseWordsOf i) = i := by
  have hop := encodeHeader_op i
  cases i with
  | nop => exact instrOf_nop _ hop
  | decPulse level dur =>
    rw [instrOf_decPulse _ hop]
    exact congrArg₂ _ (getLsbD_levelByte ..) (headerLayout_mid ..)
  | decEnd => exact instrOf_decEnd _ hop
  | cksum group chan brightness =>
    obtain ⟨hgroup, hchan, hbrightness⟩ := extractLsb'_cksumFields group chan brightness 0 0x3
    rw [instrOf_cksum _ hop]
    exact congr (congrArg₂ _ hgroup hchan) hbrightness
  | codecEncode rg rc rb rcmd rcol rck =>
    obtain ⟨hrg, hrc, hrb, hrcmd, hrcol, hrck⟩ := extractLsb'_rawFields rg rc rb rcmd rcol rck 0 0x4
    rw [instrOf_codecEncode _ hop]
    exact congr (congr (congr (congr (congrArg₂ _ hrg hrc) hrb) hrcmd) hrcol) hrck
  | codecDecode o =>
    rw [instrOf_codecDecode _ hop]
    exact congrArg _ (seqOperand_headerLayout 0 _ h)
  | schSubmit c now =>
    rw [instrOf_schSubmit _ hop]
    exact congrArg₂ _ ((congrArg _ (headerLayout_mid ..)).trans (commandOfData_pack c)) (headerLayout_hi ..)
  | schTick now =>
    rw [instrOf_schTick _ hop]
    exact congrArg _ (headerLayout_hi ..)
  | encEncode o =>
    rw [instrOf_encEncode _ hop]
    exact congrArg _ (seqOperand_headerLayout 0 _ h)
  | synEnqueue o =>
    rw [instrOf_synEnqueue _ hop]
    exact congrArg _ (trainOperand_headerLayout 0 0 _ h)
  | synFill n =>
    rw [instrOf_synFill _ hop]
    exact congrArg _ (headerLayout_mid ..)
  | cfgWrite a v =>
    rw [instrOf_cfgWrite _ hop]
    exact congrArg₂ _ (headerLayout_byteField ..) (headerLayout_hi ..)
  | cfgRead a =>
    rw [instrOf_cfgRead _ hop]
    exact congrArg _ (headerLayout_byteField ..)
  | reservedD => exact instrOf_reservedD _ hop
  | reservedE => exact instrOf_reservedE _ hop
  | reset => exact instrOf_reset _ hop

/-! ## What decodes -/

/-- A header's two words are the halves it was put together from. -/
theorem headerWords_headerOf (lo hi : Word) : headerWords (headerOf lo hi) = [lo, hi] := by
  have hlo : (headerOf lo hi).extractLsb' 0 64 = lo := extractLsb'_append_low hi lo
  have hhi : (headerOf lo hi).extractLsb' 64 64 = hi :=
    extractLsb'_eq_of_toNat (by rw [headerOf, append_toNat_eq_add]; omega)
  rw [headerWords, hlo, hhi]

/-- Whatever decodes is a header, the pulse words it counts and the rest of the stream (R86). -/
theorem eq_request_of_decode {ws : List Word} {i : Instr} {rest : List Word} (h : decode ws = .ok (i, rest)) :
    ∃ w pws, ws = headerWords w ++ pws ++ rest ∧ pws.length = pulseCount w ∧ i = instrOf w pws := by
  match ws with
  | [] | [_] => cases h
  | lo :: hi :: rest' =>
    have hws : lo :: hi :: rest' = headerWords (headerOf lo hi) ++ rest' := by
      rw [headerWords_headerOf]
      rfl
    rw [hws, decode_headerWords] at h
    split at h
    · cases h
    · next hlen =>
      cases h
      refine ⟨headerOf lo hi, rest'.take (pulseCount (headerOf lo hi)), ?_, ?_, rfl⟩
      · rw [hws, List.append_assoc, List.take_append_drop]
      · rw [List.length_take]
        omega

/-- A sequence operand of a header is in its range (R92, R102). -/
theorem seqOperand_wellFormed (w : Header) : (seqOperand w).wellFormed = true := by
  by_cases h : w.toNat / 2 ^ 8 % 2 ^ 7 ≤ 64
  · rw [seqOperand_of_le h]
    simpa [SeqOperand.wellFormed, Config.seqCap] using h
  · have hgt := Nat.lt_of_not_ge h
    rw [seqOperand_of_gt hgt]
    exact decide_eq_true (hgt.trans_eq (seqLen_toNat w).symm)

/-- A train operand of a header with the pulse words it counts is in its range (R95, R102). -/
theorem trainOperand_wellFormed {w : Header} {pws : List Word} (h : pws.length = w.toNat / 2 ^ 8 % 2 ^ 8) :
    (trainOperand w pws).wellFormed = true := by
  by_cases hle : w.toNat / 2 ^ 8 % 2 ^ 8 ≤ 129
  · rw [trainOperand_of_le pws hle]
    exact decide_eq_true (by rwa [List.length_map, h])
  · have hgt := Nat.lt_of_not_ge hle
    rw [trainOperand_of_gt pws hgt]
    exact decide_eq_true (hgt.trans_eq (trainCount_toNat w).symm)

/-- The instruction of a header with the pulse words it counts is well-formed: the only bounded operands are those of
formats BS and TR. -/
theorem instrOf_wellFormed {w : Header} {pws : List Word} (h : pws.length = pulseCount w) :
    (instrOf w pws).wellFormed = true := by
  obtain ⟨op, hlt, hop⟩ : ∃ op < 16, w.toNat % 16 = op := ⟨_, Nat.mod_lt _ (by omega), rfl⟩
  interval_cases op
  · rw [instrOf_nop _ hop]; rfl
  · rw [instrOf_decPulse _ hop]; rfl
  · rw [instrOf_decEnd _ hop]; rfl
  · rw [instrOf_cksum _ hop]; rfl
  · rw [instrOf_codecEncode _ hop]; rfl
  · rw [instrOf_codecDecode _ hop]; exact seqOperand_wellFormed w
  · rw [instrOf_schSubmit _ hop]; rfl
  · rw [instrOf_schTick _ hop]; rfl
  · rw [instrOf_encEncode _ hop]; exact seqOperand_wellFormed w
  · rw [instrOf_synEnqueue _ hop]; exact trainOperand_wellFormed (h.trans (pulseCount_synEnqueue hop))
  · rw [instrOf_synFill _ hop]; rfl
  · rw [instrOf_cfgWrite _ hop]; rfl
  · rw [instrOf_cfgRead _ hop]; rfl
  · rw [instrOf_reservedD _ hop]; rfl
  · rw [instrOf_reservedE _ hop]; rfl
  · rw [instrOf_reset _ hop]; rfl

/-! ## A step -/

/-- A step performs the decoded instruction, or waits (R68, R292). -/
theorem step_cases (s : State) :
    (∃ i rest, decode s.requests = .ok (i, rest) ∧ step s = exec i (s.withRequests rest)) ∨
    (∃ e, decode s.requests = .error e) ∧ step s = .next s := by
  rcases hd : decode s.requests with e | ⟨i, rest⟩
  · exact .inr ⟨⟨e, rfl⟩, by simp [step, fetch, hd]⟩
  · exact .inl ⟨i, rest, rfl, by simp [step, fetch, hd]⟩

/-- A stream that ends too early holds no request (R86). -/
theorem decode_incomplete {ws : List Word}
    (h : ws.length < 2 ∨ ∃ w rest, ws = headerWords w ++ rest ∧ w.toNat % 16 = 0x9 ∧
      rest.length < w.toNat / 2 ^ 8 % 2 ^ 8) : ∃ e, decode ws = .error e := by
  rcases h with hshort | ⟨w, rest, rfl, hop, hmissing⟩
  · match ws, hshort with
    | [], _ => exact ⟨_, rfl⟩
    | [_], _ => exact ⟨_, rfl⟩
  · exact ⟨_, by rw [decode_headerWords, pulseCount_synEnqueue hop, if_pos hmissing]⟩

/-! ## The obligations -/

/-- Settles O1: the encoder's words are a header with the pulse words it counts, and each format's operands read back.
-/
theorem decodeOfEncodeIsIdentity : Obligations.DecodeOfEncodeIsIdentity := by
  intro i rest h
  rw [encode_eq, decode_request rest (pulseWordsOf_length h), instrOf_encodeHeader h]

/-- Settles O2: whatever decodes is the instruction of a header with the pulse words it counts. -/
theorem decodedInstructionIsWellFormed : Obligations.DecodedInstructionIsWellFormed := by
  intro ws i rest h
  obtain ⟨w, pws, -, hlen, rfl⟩ := eq_request_of_decode h
  exact instrOf_wellFormed hlen

/-- Settles O3: the first `pulseCount` words behind the header are its pulse words. -/
theorem requestLengthFollowsFromHeader : Obligations.RequestLengthFollowsFromHeader := by
  intro w rest n h
  have hn : pulseCount w = n := pulseCount_eq w
  rw [decode_headerWords, hn, if_neg h.not_gt]
  exact ⟨_, rfl⟩

/-- Settles O5: the decoder evaluates on each word. -/
theorem specWordsDecodeToTheirOperations : Obligations.SpecWordsDecodeToTheirOperations := by
  unfold Obligations.SpecWordsDecodeToTheirOperations
  decide +kernel

/-- Settles O7. -/
theorem stepRunsTheDecodedInstruction : Obligations.StepRunsTheDecodedInstruction :=
  fun s _ _ h => step_of_decode (s := s) h

/-- Settles O8: `decode` rejects a stream that ends too early, and a step then waits. -/
theorem stepWaitsForACompleteRequest : Obligations.StepWaitsForACompleteRequest := by
  intro s h
  obtain ⟨e, he⟩ := decode_incomplete h
  rcases step_cases s with ⟨i, rest, hd, -⟩ | ⟨-, hwait⟩
  · rw [he] at hd
    cases hd
  · exact hwait

end Sys2Proof.Machine

/-! SUPPORT. The checksum is linear, the frame codec inverts itself and a frame's train has the duration R192 says
(41_checksum.md R134, 42_frame_codec.md R149, 44_pulse_encoder.md R192). -/

namespace Sys2Proof.Machine

/-! ## The checksum -/

/-- The fold is linear in its field and in what it starts from (R134). -/
theorem foldMasks_xor {w : Nat} (f f' : BitVec w) (ms : List (BitVec 8)) (i : Nat) (acc acc' : BitVec 8) :
    foldMasks (f ^^^ f') ms i (acc ^^^ acc') = foldMasks f ms i acc ^^^ foldMasks f' ms i acc' := by
  induction ms generalizing i acc acc' with
  | nil => rfl
  | cons m ms ih =>
    have hstep : (if (f ^^^ f').getLsbD i then acc ^^^ acc' ^^^ m else acc ^^^ acc') =
        (if f.getLsbD i then acc ^^^ m else acc) ^^^ (if f'.getLsbD i then acc' ^^^ m else acc') := by
      have hcancel : acc ^^^ m ^^^ (acc' ^^^ m) = acc ^^^ acc' := by
        rw [BitVec.xor_comm acc' m, ← BitVec.xor_assoc, BitVec.xor_assoc acc m m, BitVec.xor_self, BitVec.xor_zero]
      have hleft : acc ^^^ m ^^^ acc' = acc ^^^ acc' ^^^ m := by
        rw [BitVec.xor_assoc, BitVec.xor_comm m, BitVec.xor_assoc]
      cases hf : f.getLsbD i <;> cases hf' : f'.getLsbD i <;> simp [hf, hf', hcancel, hleft, BitVec.xor_assoc]
    simp only [foldMasks, hstep, ih]

/-- The checksum is linear over XOR (R134). -/
theorem cksumOf_xor (g g' c c' : BitVec 4) (b b' : BitVec 8) :
    cksumOf (g ^^^ g') (c ^^^ c') (b ^^^ b') = cksumOf g c b ^^^ cksumOf g' c' b' := by
  have hzero : (0 : BitVec 8) = 0 ^^^ 0 := rfl
  rw [cksumOf, hzero, foldMasks_xor, foldMasks_xor, foldMasks_xor]
  rfl

/-- XOR with an operand whose checksum is a mask that is not 0 flips the mask's bits, and so changes the checksum. -/
theorem cksumOf_flip {g' c' : BitVec 4} {b' m : BitVec 8} (he : cksumOf g' c' b' = m ∧ m ≠ 0) (g c : BitVec 4)
    (b : BitVec 8) :
    cksumOf (g ^^^ g') (c ^^^ c') (b ^^^ b') = cksumOf g c b ^^^ m ∧
      cksumOf (g ^^^ g') (c ^^^ c') (b ^^^ b') ≠ cksumOf g c b := by
  obtain ⟨hmask, hne⟩ := he
  rw [cksumOf_xor, hmask]
  refine ⟨rfl, fun h => hne ?_⟩
  simpa [← BitVec.xor_assoc] using congrArg (cksumOf g c b ^^^ ·) h

/-! ## The frame codec -/

/-- The sum of the bits of a number below 2^n, each at its weight. -/
theorem sum_testBit_eq_mod (d n : Nat) :
    ((List.range n).map fun i => (d.testBit (n - 1 - i)).toNat * 2 ^ (n - 1 - i)).sum = d % 2 ^ n := by
  induction n with
  | zero => simp [Nat.mod_one]
  | succ n ih =>
    rw [List.range_succ_eq_map, List.map_cons, List.map_map, List.sum_cons, Nat.mod_pow_succ, ← ih,
      Nat.toNat_testBit, Nat.add_comm]
    simp [Function.comp_def, Nat.sub_sub, Nat.add_comm, Nat.mul_comm]

/-- The data bits of a frame stand for its data word (R81, R142). -/
theorem frameValue_frameSeq (c : Command) : frameValue (frameSeq c) = dataNumber c := by
  have hlt : c.pack.toNat < 2 ^ 32 := c.pack.isLt
  have hbits : ∀ i ∈ List.range 32, ((frameSeq c).getD i false).toNat * 2 ^ (31 - i) =
      (c.pack.toNat.testBit (32 - 1 - i)).toNat * 2 ^ (32 - 1 - i) := by
    intro i hi
    have hi32 : i < 32 := List.mem_range.mp hi
    rw [frameSeq_getD c (by omega), show 32 - i = 32 - 1 - i + 1 by omega, Nat.testBit_succ,
      Nat.mul_div_cancel_left _ (by omega)]
  rw [frameValue, List.map_congr_left hbits, sum_testBit_eq_mod, Nat.mod_eq_of_lt hlt, pack_toNat]

/-- A frame's pad bit is 0 (R80, R83). -/
theorem frameSeq_pad (c : Command) : (frameSeq c).getD 32 false = false := by
  rw [frameSeq_getD c (by omega)]
  simp

/-- CODEC_DECODE of a frame gives its data word (R142). -/
theorem exec_codecDecode_frameSeq (c : Command) (s : State) :
    exec (.codecDecode (.seq (frameSeq c))) s =
      .next (s.withEvents (s.events ++ [.result (.word (BitVec.ofNat 64 (dataNumber c)))])) := by
  have h := codecDecodeOutcome s (frameSeq c)
  rwa [if_neg (not_not.mpr (frameSeq_length c)), frameSeq_pad, if_neg Bool.false_ne_true, frameValue_frameSeq] at h

/-! ## The duration of a train -/

/-- The duration of a train. -/
def trainDuration (t : PulseTrain) : Nat := (t.map fun p => p.dur.toNat).sum

/-- The pulses of a sequence's bits: a separator for each, and each bit's time (R190). -/
theorem trainDuration_flatMap_bitPulses (c : CfgFile) (q : BitSeq) :
    trainDuration (q.flatMap (bitPulses c)) =
      q.length * c.encBitSepTime.value.toNat + q.count true * c.encBitHighTime.value.toNat +
        q.count false * c.encBitLowTime.value.toNat := by
  induction q with
  | nil => simp [trainDuration]
  | cons b q ih =>
    have hcons : trainDuration ((b :: q).flatMap (bitPulses c)) =
        trainDuration (bitPulses c b) + trainDuration (q.flatMap (bitPulses c)) := by
      simp [trainDuration]
    rw [hcons, ih]
    cases b <;> simp [trainDuration, bitPulses] <;> ring

/-- The duration of a sequence's train: the hello, and then its bits' pulses (R190). -/
theorem trainDuration_pulsesOf (c : CfgFile) (q : BitSeq) :
    trainDuration (pulsesOf c q) =
      c.encHelloTime.value.toNat + q.length * c.encBitSepTime.value.toNat +
        q.count true * c.encBitHighTime.value.toNat + (q.length - q.count true) * c.encBitLowTime.value.toNat := by
  have hhello : trainDuration (pulsesOf c q) =
      c.encHelloTime.value.toNat + trainDuration (q.flatMap (bitPulses c)) := by
    simp [trainDuration, pulsesOf]
  have hcount : q.count false = q.length - q.count true := by
    have hlength := q.count_false_add_count_true
    omega
  rw [hhello, trainDuration_flatMap_bitPulses, hcount]
  omega

/-! ## The obligations -/

/-- Settles O21: linearity is the fold's, and one flipped bit is an XOR with an operand whose checksum is its mask. -/
theorem cksumIsLinear : Obligations.CksumIsLinear := by
  have hgroup : ∀ j < 4, cksumOf (BitVec.twoPow 4 j) 0#4 0#8 = groupMasks.getD j 0 ∧ groupMasks.getD j 0 ≠ 0 := by
    decide
  have hchan : ∀ j < 4, cksumOf 0#4 (BitVec.twoPow 4 j) 0#8 = chanMasks.getD j 0 ∧ chanMasks.getD j 0 ≠ 0 := by
    decide
  have hbrightness : ∀ j < 7,
      cksumOf 0#4 0#4 (BitVec.twoPow 8 j) = brightnessMasks.getD j 0 ∧ brightnessMasks.getD j 0 ≠ 0 := by
    decide
  refine ⟨cksumOf_xor, fun g c b => ⟨fun i hi => ?group, fun i hi => ?chan, fun i hi => ?brightness⟩⟩
  case group => simpa only [BitVec.xor_zero] using cksumOf_flip (hgroup i hi) g c b
  case chan => simpa only [BitVec.xor_zero] using cksumOf_flip (hchan i hi) g c b
  case brightness => simpa only [BitVec.xor_zero] using cksumOf_flip (hbrightness i hi) g c b

/-- Settles O25: the emitted sequence is the frame of the truncated fields, whose data bits are its data word. -/
theorem codecRoundTrip : Obligations.CodecRoundTrip := by
  intro s t rg rc rb rcmd rcol rck q hencode
  have hq : q = frameSeq (truncateFields rg rc rb rcmd rcol rck) := by
    rw [exec_codecEncode] at hencode
    injection hencode with hstate
    have hevents := congrArg State.events hstate
    simpa using hevents.symm
  rw [hq, exec_codecDecode_frameSeq]
  simp only [truncateFields, BitVec.ofNat_toNat]

/-- Settles O34: the number of pulses and their total are those of `pulsesOf` for a sequence of 33 bits. -/
theorem frameTrainDuration : Obligations.FrameTrainDuration := by
  intro s q hlen
  refine ⟨pulsesOf s.cfg q, exec_encEncode_seq q s, ?length, ?duration⟩
  case length => rw [pulsesOf_length, hlen]
  case duration =>
    intro k total
    have hk : k ≤ 33 := hlen ▸ List.count_le_length
    have htotal : total = _ := trainDuration_pulsesOf s.cfg q
    rw [hlen] at htotal
    refine ⟨hk, htotal, fun hhello hlow hhigh hsep => ?_⟩
    rw [hhello, hlow, hhigh, hsep] at htotal
    simp only [BitVec.reduceToNat] at htotal
    omega

end Sys2Proof.Machine

/-! SUPPORT. What a pulse reads: the decoder's own registers and the registers 0x00 to 0x07, and what it writes: the
decoder and the event stream. With it the two statements on whole packets (40_decoder.md R119, R121). -/

namespace Sys2Proof.Machine

/-! ## What a pulse reads and writes -/

/-- Two configurations agree on the window registers 0x00 to 0x06 and on DEC_CTRL, 0x07 (R119). -/
def SameWindows (c c' : CfgFile) : Prop :=
  ∀ r : RegName, r.addr.toNat ≤ 0x07 → c.get r = c'.get r ∧ c.isSet r = c'.isSet r

/-- Two registers with the same value, zero-extended to 64 bits, hold the same value. -/
theorem eq_of_setWidth_eq {w : Nat} {x y : BitVec w} (hw : w ≤ 64) (h : x.setWidth 64 = y.setWidth 64) : x = y := by
  apply BitVec.eq_of_toNat_eq
  rw [← BitVec.toNat_setWidth_of_le hw, h, BitVec.toNat_setWidth_of_le hw]

/-- The values of the window registers and FORWARD_PARTIAL, read off the agreement (R32, R110). -/
theorem SameWindows.values {c c' : CfgFile} (h : SameWindows c c') :
    c'.decHelloMin.value = c.decHelloMin.value ∧ c'.decHelloMax.value = c.decHelloMax.value ∧
    c'.decLowMin.value = c.decLowMin.value ∧ c'.decLowMax.value = c.decLowMax.value ∧
    c'.decHighMax.value = c.decHighMax.value ∧ c'.decSepMin.value = c.decSepMin.value ∧
    c'.decSepMax.value = c.decSepMax.value ∧ c'.decCtrl.value = c.decCtrl.value :=
  ⟨(eq_of_setWidth_eq (by omega) (h .decHelloMin (by decide)).1).symm,
    (eq_of_setWidth_eq (by omega) (h .decHelloMax (by decide)).1).symm,
    (eq_of_setWidth_eq (by omega) (h .decLowMin (by decide)).1).symm,
    (eq_of_setWidth_eq (by omega) (h .decLowMax (by decide)).1).symm,
    (eq_of_setWidth_eq (by omega) (h .decHighMax (by decide)).1).symm,
    (eq_of_setWidth_eq (by omega) (h .decSepMin (by decide)).1).symm,
    (eq_of_setWidth_eq (by omega) (h .decSepMax (by decide)).1).symm,
    (eq_of_setWidth_eq (by omega) (h .decCtrl (by decide)).1).symm⟩

/-- `f` does the same to `s` and to `s'`: it leaves the decoder `d` and appends the events `es`, and changes nothing
else. -/
def SameEffect (f : State → State) (s s' : State) (d : Decoder) (es : List Event) : Prop :=
  f s = (s.withDec d).withEvents (s.events ++ es) ∧ f s' = (s'.withDec d).withEvents (s'.events ++ es)

theorem sameEffect_none {f : State → State} {s s' : State} (hdec : s'.dec = s.dec) (h : f s = s) (h' : f s' = s') :
    SameEffect f s s' s.dec [] := by
  rw [SameEffect, h, h', List.append_nil, List.append_nil, ← hdec]
  exact ⟨by rw [hdec]; rfl, rfl⟩

/-- A decoder with an empty buffer is as the invariant asks, in either state. -/
theorem Decoder.ok_empty (v : DecState) : Decoder.Ok ⟨v, [], false⟩ := ⟨by simp, fun _ => ⟨rfl, rfl⟩, nofun⟩

/-- A decoded bit in a message keeps the decoder as the invariant asks (R117). -/
theorem Decoder.Ok.withBit {d : Decoder} (h : d.Ok) (b : Bool) (hstate : d.state = .inMessage) :
    (Machine.withBit b d).Ok := by
  unfold Machine.withBit
  split
  · next hlt =>
    have hovf : d.ovf ≠ true := fun ho => hlt.ne (h.ovf_full ho)
    refine ⟨?_, fun ha => ?_, fun ho => absurd ho hovf⟩
    · rw [List.length_append]
      exact hlt
    · cases hstate.symm.trans ha
  · next hge =>
    have hlen : d.buf.length = 64 := Nat.le_antisymm h.len_le (Nat.le_of_not_lt hge)
    exact ⟨h.len_le, fun ha => (nomatch hstate.symm.trans ha), fun _ => hlen⟩

/-- A high pulse in a message (R115). -/
theorem pulseHigh_sameEffect {s s' : State} (p : Dur) (hdec : s'.dec = s.dec) (hw : SameWindows s.cfg s'.cfg) :
    ∃ d es, SameEffect (pulseHigh p) s s' d es ∧ (s.dec.Ok → d.Ok) := by
  obtain ⟨hhelloMin, hhelloMax, -, -, -, hsepMin, hsepMax, hctrl⟩ := hw.values
  have hresync : inHello s'.cfg p = inHello s.cfg p := by rw [inHello, inHello, hhelloMin, hhelloMax]
  have hforward : forwardPartial s'.cfg = forwardPartial s.cfg := by rw [forwardPartial, forwardPartial, hctrl]
  unfold SameEffect pulseHigh
  rw [hdec, hsepMin, hsepMax, hresync, hforward]
  split
  · refine ⟨_, _, ⟨by rw [setDecState_flush_valid_warn, List.append_assoc], ?_⟩, fun _ => Decoder.ok_empty _⟩
    rw [setDecState_flush_valid_warn, List.append_assoc, hdec]
  · split
    · refine ⟨_, _, ⟨by rw [setDecState_flush_partial_warn, List.append_assoc], ?_⟩, fun _ => Decoder.ok_empty _⟩
      rw [setDecState_flush_partial_warn, List.append_assoc, hdec, hforward]
    · exact ⟨_, _, sameEffect_none (f := id) hdec rfl rfl, id⟩

/-- A low pulse in a message (R116). -/
theorem pulseLow_sameEffect {s s' : State} (p : Dur) (hdec : s'.dec = s.dec) (hw : SameWindows s.cfg s'.cfg)
    (hstate : s.dec.state = .inMessage) : ∃ d es, SameEffect (pulseLow p) s s' d es ∧ (s.dec.Ok → d.Ok) := by
  obtain ⟨-, -, hlowMin, hlowMax, hhighMax, -, -, -⟩ := hw.values
  have hbit (b : Bool) : ∃ d es, SameEffect (appendBit b) s s' d es ∧ (s.dec.Ok → d.Ok) := by
    refine ⟨Machine.withBit b s.dec, [], ⟨?_, ?_⟩, fun h => h.withBit b hstate⟩
    · rw [appendBit_eq, List.append_nil]
      rfl
    · rw [appendBit_eq, List.append_nil, hdec]
      rfl
  unfold SameEffect at hbit ⊢
  unfold pulseLow
  rw [hdec, hlowMin, hlowMax, hhighMax]
  split
  · refine ⟨_, _, ⟨by rw [setDecState_flush_valid_warn, List.append_assoc], ?_⟩, fun _ => Decoder.ok_empty _⟩
    rw [setDecState_flush_valid_warn, List.append_assoc, hdec]
  · split
    · exact hbit false
    · split
      · refine ⟨_, _, ⟨setDecState_flush_valid .., ?_⟩, fun _ => Decoder.ok_empty _⟩
        rw [setDecState_flush_valid, hdec]
      · exact hbit true

/-- DEC_PULSE behind its configuration check depends on the decoder and on the registers 0x00 to 0x07 alone, and writes
the decoder alone (R113, R119). -/
theorem classifyPulse_sameEffect {s s' : State} (level : Bool) (p : Dur) (hdec : s'.dec = s.dec)
    (hw : SameWindows s.cfg s'.cfg) : ∃ d es, SameEffect (classifyPulse level p) s s' d es ∧ (s.dec.Ok → d.Ok) := by
  unfold SameEffect
  cases hstate : s.dec.state with
  | awaitingHello =>
    obtain ⟨hhelloMin, hhelloMax, -, -, -, -, -, -⟩ := hw.values
    have hresync : inHello s'.cfg p = inHello s.cfg p := by rw [inHello, inHello, hhelloMin, hhelloMax]
    rw [classifyPulse_awaiting level p hstate, classifyPulse_awaiting level p (hdec ▸ hstate)]
    unfold pulseAwaiting
    rw [hresync]
    split
    · exact ⟨⟨.inMessage, [], false⟩, [], ⟨by rw [List.append_nil]; rfl, by rw [List.append_nil]; rfl⟩,
        fun _ => Decoder.ok_empty _⟩
    · exact ⟨_, _, sameEffect_none (f := id) hdec rfl rfl, id⟩
  | inMessage =>
    cases level with
    | true =>
      rw [classifyPulse_high p hstate, classifyPulse_high p (hdec ▸ hstate)]
      exact pulseHigh_sameEffect p hdec hw
    | false =>
      rw [classifyPulse_low p hstate, classifyPulse_low p (hdec ▸ hstate)]
      exact pulseLow_sameEffect p hdec hw hstate

/-- DEC_PULSE too: its configuration check reads the registers 0x00 to 0x06 (R113, R119). -/
theorem exec_decPulse_sameEffect {s s' : State} (level : Bool) (p : Dur) (hdec : s'.dec = s.dec)
    (hw : SameWindows s.cfg s'.cfg) :
    ∃ d es, exec (.decPulse level p) s = .next ((s.withDec d).withEvents (s.events ++ es)) ∧
      exec (.decPulse level p) s' = .next ((s'.withDec d).withEvents (s'.events ++ es)) := by
  have haddr : ∀ r ∈ decRegs, r.addr.toNat ≤ 0x07 := by decide
  have hcheck : lowestUnset s'.cfg decRegs = lowestUnset s.cfg decRegs := by
    have hfilter : decRegs.filter (fun r => !s'.cfg.isSet r) = decRegs.filter fun r => !s.cfg.isSet r :=
      List.filter_congr fun r hr => by rw [(hw r (haddr r hr)).2]
    rw [lowestUnset, lowestUnset, hfilter]
  simp only [exec, execDecPulse, requireCfg, hcheck]
  cases lowestUnset s.cfg decRegs with
  | some a =>
    refine ⟨s.dec, [.diag .cfgUnset (BitVec.ofNat 64 a)], rfl, ?_⟩
    rw [← hdec]
    rfl
  | none =>
    obtain ⟨d, es, ⟨h, h'⟩, -⟩ := classifyPulse_sameEffect level p hdec hw
    exact ⟨d, es, congrArg _ h, congrArg _ h'⟩

/-! ## A packet -/

/-- The operations of a packet: its pulses and then DEC_END (R119). -/
def packet (ps : PulseTrain) : List Instr := ps.map (fun p => Instr.decPulse p.level p.dur) ++ [.decEnd]

/-- A run performs its first operation and goes on from there. -/
theorem execAll_cons_of_next {i : Instr} {is : List Instr} {s t : State} (h : exec i s = .next t) :
    execAll (i :: is) s = execAll is t := by
  simp only [execAll, h]

/-- A packet has the same effect on states that agree on the decoder and on the registers 0x00 to 0x07 (R119). -/
theorem execAll_packet_sameEffect (ps : PulseTrain) {s s' : State} (hdec : s'.dec = s.dec)
    (hw : SameWindows s.cfg s'.cfg) :
    ∃ es, execAll (packet ps) s = .next ((s.withDec ⟨.awaitingHello, [], false⟩).withEvents (s.events ++ es)) ∧
      execAll (packet ps) s' = .next ((s'.withDec ⟨.awaitingHello, [], false⟩).withEvents (s'.events ++ es)) := by
  induction ps generalizing s s' with
  | nil =>
    refine ⟨flushEvents s.dec, execAll_cons_of_next (exec_decEnd s), ?_⟩
    rw [← hdec]
    exact execAll_cons_of_next (exec_decEnd s')
  | cons p ps ih =>
    obtain ⟨d, es, h, h'⟩ := exec_decPulse_sameEffect p.level p.dur hdec hw
    obtain ⟨es', ht, ht'⟩ := ih (s := (s.withDec d).withEvents (s.events ++ es))
      (s' := (s'.withDec d).withEvents (s'.events ++ es)) rfl hw
    refine ⟨es ++ es', (execAll_cons_of_next h).trans (ht.trans ?_), (execAll_cons_of_next h').trans (ht'.trans ?_)⟩
    · rw [← List.append_assoc]
      rfl
    · rw [← List.append_assoc]
      rfl

/-! ## Loopback -/

/-- The windows bracket the encoder's timings (R121). -/
structure Brackets (c : CfgFile) : Prop where
  set : SetBetween c 0x00 0x06
  helloMin : c.decHelloMin.value.toNat ≤ c.encHelloTime.value.toNat
  helloMax : c.encHelloTime.value.toNat ≤ c.decHelloMax.value.toNat
  lowMin : c.decLowMin.value.toNat ≤ c.encBitLowTime.value.toNat
  lowMax : c.encBitLowTime.value.toNat < c.decLowMax.value.toNat
  highMin : c.decLowMax.value.toNat ≤ c.encBitHighTime.value.toNat
  highMax : c.encBitHighTime.value.toNat ≤ c.decHighMax.value.toNat
  sepMin : c.decSepMin.value.toNat ≤ c.encBitSepTime.value.toNat
  sepMax : c.encBitSepTime.value.toNat ≤ c.decSepMax.value.toNat
  trail : c.decHighMax.value.toNat < c.synTrailTime.value.toNat

/-- The hello pulse begins a message (R114, R121). -/
theorem exec_hello {s : State} (h : Brackets s.cfg) (hstate : s.dec.state = .awaitingHello) :
    exec (.decPulse true s.cfg.encHelloTime.value) s = .next (s.withDec ⟨.inMessage, [], false⟩) := by
  rw [pulseWhileAwaitingHello s _ _ h.set hstate, if_pos ⟨rfl, h.helloMin, h.helloMax⟩]

/-- The low pulse of a bit appends it to the buffer (R116, R121). -/
theorem exec_bitLow {s : State} (h : Brackets s.cfg) {q : BitSeq} (hdec : s.dec = ⟨.inMessage, q, false⟩)
    (hlen : q.length < 64) (b : Bool) :
    exec (.decPulse false (if b then s.cfg.encBitHighTime.value else s.cfg.encBitLowTime.value)) s =
      .next (s.withDec ⟨.inMessage, q ++ [b], false⟩) := by
  have hlow := h.lowMin
  have hmax := h.lowMax
  have hhigh := h.highMin
  have hbit : Machine.withBit b s.dec = ⟨.inMessage, q ++ [b], false⟩ := by
    rw [hdec, Machine.withBit, if_pos hlen]
  rw [lowPulseInAMessage s _ h.set (by rw [hdec])]
  cases b with
  | false => rw [if_neg (by simpa using hlow), if_pos (by simpa using hmax), hbit]
  | true =>
    have hnotShort : ¬s.cfg.encBitHighTime.value.toNat < s.cfg.decLowMin.value.toNat := by omega
    rw [if_neg (by simpa using hnotShort), if_neg (by simpa using hhigh), if_neg (by simpa using h.highMax), hbit]

/-- The separator of a bit is a gap (R115, R121). -/
theorem exec_bitSep {s : State} (h : Brackets s.cfg) (hstate : s.dec.state = .inMessage) :
    exec (.decPulse true s.cfg.encBitSepTime.value) s = .next s := by
  rw [highPulseInAMessage s _ h.set hstate, if_neg h.sepMin.not_gt, if_neg h.sepMax.not_gt]

/-- The trailing separator delivers the buffer (R116, R121). -/
theorem exec_trail {s : State} (h : Brackets s.cfg) (hstate : s.dec.state = .inMessage) :
    exec (.decPulse false s.cfg.synTrailTime.value) s =
      .next ((s.withDec ⟨.awaitingHello, [], false⟩).withEvents (s.events ++ flushEvents s.dec)) := by
  have hlow := h.lowMin
  have hmax := h.lowMax
  have hhigh := h.highMin
  have hhighMax := h.highMax
  have htrail := h.trail
  rw [lowPulseInAMessage s _ h.set hstate, if_neg (by omega), if_neg (by omega), if_pos htrail]

/-- The pulses of a bit sequence append it to the buffer, as far as it fits (R121). -/
theorem execAll_bitPulses {s : State} (h : Brackets s.cfg) (q : BitSeq) (is : List Instr) {buf : BitSeq}
    (hdec : s.dec = ⟨.inMessage, buf, false⟩) (hlen : buf.length + q.length ≤ 64) :
    execAll ((q.flatMap (bitPulses s.cfg)).map (fun p => Instr.decPulse p.level p.dur) ++ is) s =
      execAll is (s.withDec ⟨.inMessage, buf ++ q, false⟩) := by
  induction q generalizing s buf with
  | nil =>
    rw [List.append_nil, ← hdec]
    rfl
  | cons b q ih =>
    rw [List.length_cons] at hlen
    have hlow := exec_bitLow h hdec (by omega) b
    have hsep := exec_bitSep (s := s.withDec ⟨.inMessage, buf ++ [b], false⟩) h rfl
    have hrest := ih (s := s.withDec ⟨.inMessage, buf ++ [b], false⟩) (buf := buf ++ [b]) h rfl
      (by rw [List.length_append, List.length_singleton]; omega)
    refine (execAll_cons_of_next hlow).trans ((execAll_cons_of_next hsep).trans (hrest.trans ?_))
    rw [List.append_assoc]
    rfl

/-! ## The obligations -/

/-- Settles O31: from the empty decoder, the packet leaves it as it was. -/
theorem packetEventsDependOnlyOnPulsesAndWindows : Obligations.PacketEventsDependOnlyOnPulsesAndWindows := by
  intro s s' ps hdec hdec' hw
  obtain ⟨es, h, h'⟩ := execAll_packet_sameEffect ps (hdec'.trans hdec.symm) hw
  rw [← hdec, State.withDec_self] at h
  rw [← hdec', State.withDec_self] at h'
  exact ⟨es, h, h'⟩

/-- Settles O32: the hello begins the message, each bit's pulses append it, the trailing low delivers the sequence and
DEC_END the empty one. -/
theorem loopbackDeliversTheSequence : Obligations.LoopbackDeliversTheSequence := by
  intro s q hlen hstate hset hhelloMin hhelloMax hlowMin hlowMax hhighMin hhighMax hsepMin hsepMax htrail
  have h : Brackets s.cfg :=
    ⟨hset, hhelloMin, hhelloMax, hlowMin, hlowMax, hhighMin, hhighMax, hsepMin, hsepMax, htrail⟩
  refine ⟨pulsesOf s.cfg q, exec_encEncode_seq q s, pulsesOf_length s.cfg q, ?_⟩
  have hbits := execAll_bitPulses (s := s.withDec ⟨.inMessage, [], false⟩) h q
    [.decPulse false s.cfg.synTrailTime.value, .decEnd] rfl (by simpa using hlen)
  have hdeliver := exec_trail (s := s.withDec ⟨.inMessage, q, false⟩) h rfl
  have hend := exec_decEnd ((s.withDec ⟨.awaitingHello, [], false⟩).withEvents
    (s.events ++ flushEvents ⟨.inMessage, q, false⟩))
  rw [pulsesOf, List.map_append, List.append_assoc]
  refine (execAll_cons_of_next (exec_hello h hstate)).trans (hbits.trans ?_)
  refine (execAll_cons_of_next hdeliver).trans ((execAll_cons_of_next hend).trans ?_)
  simp [execAll, flushEvents, rxEvents]

end Sys2Proof.Machine

/-! SUPPORT. The fill loop, one sample at a time: a relation that the loop meets and that has one outcome, and what
SYN_FILL does in the statements' words (45_synthesizer.md R206 to R211). -/

namespace Sys2Proof.Machine

/-! ## The fill as a relation -/

/-- The warning for the pulses that a popped train replaces, if there are any (R207). -/
def preemptEvents (old : PulseTrain) : List Event :=
  if old = [] then [] else [.diag .synPreempt (BitVec.ofNat 64 old.length)]

/-- `FillRun c y n y' pre w`: under `c`, a fill of n samples takes the synthesizer from `y` to `y'`, emits the warnings
`pre` and writes `w`. Its rules are the cases of R207 and R208 with one sample written at a time; `fillLoop_run` ties it
to the loop. -/
inductive FillRun (c : CfgFile) : Synth → Nat → Synth → List Event → List Sample → Prop
  | full (y : Synth) : FillRun c y 0 y [] []
  | segment {y y' : Synth} {n : Nat} {pre : List Event} {w : List Sample} (hrem : 0 < y.rem.toNat)
      (h : FillRun c { y with rem := y.rem - 1 } n y' pre w) : FillRun c y (n + 1) y' pre (y.amp :: w)
  | train {y y' : Synth} {n : Nat} {pre : List Event} {w : List Sample} {t : PulseTrain} {q : List PulseTrain}
      (hn : n ≠ 0) (hrem : y.rem.toNat = 0) (hqueue : y.queue = t :: q)
      (hactive : activeFirst c = true → y.active = [])
      (h : FillRun c { y with queue := q, active := t } n y' pre w) :
      FillRun c y n y' (preemptEvents y.active ++ pre) w
  | pulse {y y' : Synth} {n : Nat} {pre : List Event} {w : List Sample} {p : Pulse} {ps : PulseTrain}
      (hn : n ≠ 0) (hrem : y.rem.toNat = 0) (hactive : y.active = p :: ps)
      (hqueue : activeFirst c = false → y.queue = [])
      (h : FillRun c { y with active := ps, amp := ampOf c p.level, rem := BitVec.ofNat 64 (toSamples c p.dur) }
        n y' pre w) : FillRun c y n y' pre w
  | idle {y y' : Synth} {n : Nat} {pre : List Event} {w : List Sample} (hrem : y.rem.toNat = 0) (hqueue : y.queue = [])
      (hactive : y.active = []) (h : FillRun c y n y' pre w) : FillRun c y (n + 1) y' pre (c.synAmpIdle.value :: w)

/-- ORDER decides between popping a train and popping a pulse (R207, R208). -/
theorem not_train_and_pulse {c : CfgFile} {y : Synth} {t : PulseTrain} {q : List PulseTrain} {p : Pulse}
    {ps : PulseTrain} (hqueue : y.queue = t :: q) (hnoActive : activeFirst c = true → y.active = [])
    (hactive : y.active = p :: ps) (hnoQueue : activeFirst c = false → y.queue = []) : False := by
  cases horder : activeFirst c with
  | true => cases hactive.symm.trans (hnoActive horder)
  | false => cases hqueue.symm.trans (hnoQueue horder)

/-- A fill has one outcome: no two of its rules apply to one synthesizer. -/
theorem FillRun.unique {c : CfgFile} {y y₁ y₂ : Synth} {n : Nat} {pre₁ pre₂ : List Event} {w₁ w₂ : List Sample}
    (h₁ : FillRun c y n y₁ pre₁ w₁) (h₂ : FillRun c y n y₂ pre₂ w₂) : y₁ = y₂ ∧ pre₁ = pre₂ ∧ w₁ = w₂ := by
  induction h₁ generalizing y₂ pre₂ w₂ with
  | full =>
    cases h₂ with
    | full => exact ⟨rfl, rfl, rfl⟩
    | train hn | pulse hn => exact absurd rfl hn
  | segment hrem _ ih =>
    cases h₂ with
    | segment _ h₂ => obtain ⟨rfl, rfl, rfl⟩ := ih h₂; exact ⟨rfl, rfl, rfl⟩
    | train _ hrem' | pulse _ hrem' | idle hrem' => omega
  | train hn hrem hqueue hactive _ ih =>
    cases h₂ with
    | full => exact absurd rfl hn
    | segment hrem' => omega
    | train _ _ hqueue' _ h₂ =>
      obtain ⟨rfl, rfl⟩ := List.cons.inj (hqueue.symm.trans hqueue')
      obtain ⟨rfl, rfl, rfl⟩ := ih h₂
      exact ⟨rfl, rfl, rfl⟩
    | pulse _ _ hactive' hqueue' => exact (not_train_and_pulse hqueue hactive hactive' hqueue').elim
    | idle _ hqueue' => cases hqueue.symm.trans hqueue'
  | pulse hn hrem hactive hqueue _ ih =>
    cases h₂ with
    | full => exact absurd rfl hn
    | segment hrem' => omega
    | train _ _ hqueue' hactive' => exact (not_train_and_pulse hqueue' hactive' hactive hqueue).elim
    | pulse _ _ hactive' _ h₂ =>
      obtain ⟨rfl, rfl⟩ := List.cons.inj (hactive.symm.trans hactive')
      exact ih h₂
    | idle _ _ hactive' => cases hactive.symm.trans hactive'
  | idle hrem hqueue hactive _ ih =>
    cases h₂ with
    | segment hrem' => omega
    | train _ _ hqueue' => cases hqueue.symm.trans hqueue'
    | pulse _ _ hactive' => cases hactive.symm.trans hactive'
    | idle _ _ _ h₂ => obtain ⟨rfl, rfl, rfl⟩ := ih h₂; exact ⟨rfl, rfl, rfl⟩

/-- Several samples from the segment in progress (R207). -/
theorem FillRun.segments {c : CfgFile} {y y' : Synth} {n k : Nat} {pre : List Event} {w : List Sample}
    (hk : k ≤ y.rem.toNat) (h : FillRun c { y with rem := y.rem - BitVec.ofNat 64 k } n y' pre w) :
    FillRun c y (n + k) y' pre (List.replicate k y.amp ++ w) := by
  induction k generalizing y with
  | zero => simpa using h
  | succ k ih =>
    have hsub : y.rem - BitVec.ofNat 64 (k + 1) = y.rem - 1 - BitVec.ofNat 64 k := by
      rw [BitVec.ofNat_add, BitVec.add_comm, ← BitVec.sub_sub]
      rfl
    have hk' : k ≤ (y.rem - 1).toNat := by
      rw [BitVec.toNat_sub_of_le (by rw [BitVec.le_def]; simp; omega)]
      simp
      omega
    rw [hsub] at h
    exact .segment (by omega) (ih (y := { y with rem := y.rem - 1 }) hk' h)

/-- Idle samples (R207, R211). -/
theorem FillRun.idles {c : CfgFile} {y : Synth} (hrem : y.rem.toNat = 0) (hqueue : y.queue = [])
    (hactive : y.active = []) (n : Nat) : FillRun c y n y [] (List.replicate n c.synAmpIdle.value) := by
  induction n with
  | zero => exact .full y
  | succ n ih => exact .idle hrem hqueue hactive ih

/-- A popped train replaces the active message, and the pulses it discards are reported (R207). -/
theorem fillPopTrain_eq (t : PulseTrain) (q : List PulseTrain) (x : FillCtx) :
    fillPopTrain t q x =
      ⟨(x.st.withSyn { x.st.syn with queue := q, active := t }).withEvents
        (x.st.events ++ preemptEvents x.st.syn.active), x.out, x.space⟩ := by
  by_cases hold : x.st.syn.active = []
  · simp [fillPopTrain, preemptEvents, hold]
  · simp only [fillPopTrain, preemptEvents, if_pos hold, if_neg hold, warn_eq]
    rfl

/-- With no space left the fill is done. -/
theorem fillRun_of_space {x : FillCtx} (hs : x.space = 0) :
    ∃ y pre w, FillRun x.st.cfg x.st.syn x.space y pre w ∧
      x = ⟨(x.st.withSyn y).withEvents (x.st.events ++ pre), x.out ++ w, 0⟩ := by
  refine ⟨x.st.syn, [], [], hs ▸ .full _, ?_⟩
  rw [List.append_nil, List.append_nil, ← hs]
  rfl

/-- A fill from where a step of the loop leads is a fill from before the step (R207, R208). -/
theorem fillRun_of_fillStep {x : FillCtx} {y : Synth} {pre : List Event} {w : List Sample} (hs : x.space ≠ 0)
    (h : FillRun (fillStep x).st.cfg (fillStep x).st.syn (fillStep x).space y pre w) :
    ∃ pre' w', FillRun x.st.cfg x.st.syn x.space y pre' w' ∧
      ((fillStep x).st.withSyn y).withEvents ((fillStep x).st.events ++ pre) =
        (x.st.withSyn y).withEvents (x.st.events ++ pre') ∧ (fillStep x).out ++ w = x.out ++ w' := by
  rcases fillStep_cases x with ⟨-, hstep⟩ | ⟨hrem, t, q, hqueue, hactive, hstep⟩ |
    ⟨hrem, p, ps, hactive, hqueue, hstep⟩ | ⟨hrem, hqueue, hactive, hstep⟩ <;> rw [hstep] at h ⊢
  · have hrun := FillRun.segments (Nat.min_le_right x.space x.st.syn.rem.toNat) h
    rw [show (fillSegment x).space + min x.space x.st.syn.rem.toNat = x.space from
      Nat.sub_add_cancel (Nat.min_le_left _ _)] at hrun
    exact ⟨_, _, hrun, rfl, List.append_assoc ..⟩
  · rw [fillPopTrain_eq] at h ⊢
    refine ⟨_, _, .train hs hrem hqueue hactive h, ?_, rfl⟩
    rw [← List.append_assoc]
    rfl
  · exact ⟨_, _, .pulse hs hrem hactive hqueue h, rfl, rfl⟩
  · obtain ⟨rfl, rfl, rfl⟩ := h.unique (.full _)
    exact ⟨_, _, .idles hrem hqueue hactive x.space, rfl, List.append_nil _⟩

/-- The fill loop, run to its end, is a fill (R206). -/
theorem fillLoop_run (fuel : Nat) (x : FillCtx) (hspace : (fillLoop fuel x).space = 0) :
    ∃ y pre w, FillRun x.st.cfg x.st.syn x.space y pre w ∧
      fillLoop fuel x = ⟨(x.st.withSyn y).withEvents (x.st.events ++ pre), x.out ++ w, 0⟩ := by
  induction fuel generalizing x with
  | zero => exact fillRun_of_space hspace
  | succ fuel ih =>
    rw [fillLoop] at hspace ⊢
    split
    · next hs => exact fillRun_of_space hs
    · next hs =>
      rw [if_neg hs] at hspace
      obtain ⟨y, pre, w, hrun, he⟩ := ih (fillStep x) hspace
      obtain ⟨pre', w', hrun', hst, hout⟩ := fillRun_of_fillStep hs hrun
      exact ⟨y, pre', w', hrun', by rw [he, hst, hout]⟩

/-- SYN_FILL behind its configuration check is a fill (R206). -/
theorem exists_fillRun (n : Nat) (s : State) :
    ∃ y pre w, FillRun s.cfg s.syn n y pre w ∧
      fillSamples n s = (s.withSyn y).withEvents (s.events ++ pre ++ [.samples w]) := by
  obtain ⟨y, pre, w, hrun, he⟩ := fillLoop_run (fillFuel s.syn) ⟨s, [], n⟩ (fillLoop_space _ _ (Nat.le_refl _))
  refine ⟨y, pre, w, hrun, ?_⟩
  rw [fillSamples, he]
  rfl

/-- With its registers written, SYN_FILL is a fill (R206). -/
theorem exec_synFill_of_set {s : State} (n : BitVec 32) (hset : SetBetween s.cfg 0x21 0x25) :
    ∃ y pre w, FillRun s.cfg s.syn n.toNat y pre w ∧
      exec (.synFill n) s = .next ((s.withSyn y).withEvents (s.events ++ pre ++ [.samples w])) := by
  have haddr : ∀ r ∈ fillRegs, 0x21 ≤ r.addr.toNat ∧ r.addr.toNat ≤ 0x25 := by decide
  obtain ⟨y, pre, w, hrun, he⟩ := exists_fillRun n.toNat s
  refine ⟨y, pre, w, hrun, ?_⟩
  rw [← he]
  exact congrArg _ (requireCfg_of_set _ fun r hr => hset r (haddr r hr).1 (haddr r hr).2)

/-- The outcome of SYN_FILL is that of any fill from the same synthesizer. -/
theorem exec_synFill_of_run {s : State} {n : BitVec 32} {y : Synth} {pre : List Event} {w : List Sample}
    (hset : SetBetween s.cfg 0x21 0x25) (hrun : FillRun s.cfg s.syn n.toNat y pre w) :
    exec (.synFill n) s = .next ((s.withSyn y).withEvents (s.events ++ pre ++ [.samples w])) := by
  obtain ⟨y', pre', w', hrun', he⟩ := exec_synFill_of_set n hset
  obtain ⟨rfl, rfl, rfl⟩ := hrun.unique hrun'
  exact he

/-! ## What every fill does -/

/-- A fill of n samples writes n samples (R206). -/
theorem FillRun.length_eq {c : CfgFile} {y y' : Synth} {n : Nat} {pre : List Event} {w : List Sample}
    (h : FillRun c y n y' pre w) : w.length = n := by
  induction h with
  | full => rfl
  | segment _ _ ih | idle _ _ _ _ ih => rw [List.length_cons, ih]
  | train _ _ _ _ _ ih | pulse _ _ _ _ _ ih => exact ih

/-- A fill warns of nothing but discarded pulses (R207). -/
theorem FillRun.pre_preempt {c : CfgFile} {y y' : Synth} {n : Nat} {pre : List Event} {w : List Sample}
    (h : FillRun c y n y' pre w) : ∀ e ∈ pre, isDiag .synPreempt e = true := by
  induction h with
  | full => exact List.forall_mem_nil _
  | segment _ _ ih | pulse _ _ _ _ _ ih | idle _ _ _ _ ih => exact ih
  | train _ _ _ _ _ ih =>
    refine List.forall_mem_append.mpr ⟨?_, ih⟩
    unfold preemptEvents
    split
    · exact List.forall_mem_nil _
    · exact List.forall_mem_singleton.mpr rfl

/-- Two fills one after the other are one fill of the summed length (R210). -/
theorem FillRun.append {c : CfgFile} {y y₁ y₂ : Synth} {m n : Nat} {pre₁ pre₂ : List Event} {w₁ w₂ : List Sample}
    (h₁ : FillRun c y m y₁ pre₁ w₁) (h₂ : FillRun c y₁ n y₂ pre₂ w₂) :
    FillRun c y (m + n) y₂ (pre₁ ++ pre₂) (w₁ ++ w₂) := by
  induction h₁ with
  | full => simpa using h₂
  | segment hrem _ ih =>
    rw [Nat.add_right_comm]
    exact .segment hrem (ih h₂)
  | train hn hrem hqueue hactive _ ih =>
    rw [List.append_assoc]
    exact .train (by omega) hrem hqueue hactive (ih h₂)
  | pulse hn hrem hactive hqueue _ ih =>
    exact .pulse (by omega) hrem hactive hqueue (ih h₂)
  | idle hrem hqueue hactive _ ih =>
    rw [Nat.add_right_comm]
    exact .idle hrem hqueue hactive (ih h₂)

/-! ## The cases of one fill -/

/-- ORDER is bit 1 of SYN_CTRL, and 1 is active-first (R38). -/
theorem activeFirst_iff (c : CfgFile) : activeFirst c = true ↔ c.synCtrl.value.toNat / 2 % 2 = 1 := by
  simp [activeFirst, BitVec.getLsbD, Nat.testBit_succ, Nat.testBit_zero]

/-- ORDER = 0 is queue-first (R38). -/
theorem activeFirst_eq_false_iff (c : CfgFile) : activeFirst c = false ↔ c.synCtrl.value.toNat / 2 % 2 = 0 := by
  rw [← Bool.not_eq_true, activeFirst_iff]
  omega

/-- SYN_FILL of some samples. -/
theorem toNat_ne_zero {n : BitVec 32} (h : n ≠ 0) : n.toNat ≠ 0 := fun h0 => h (BitVec.eq_of_toNat_eq h0)

/-- SYN_FILL writes from the segment in progress and goes on from what is left of it, with the rest of the samples
(R207, R208). -/
theorem exec_synFill_segment {s : State} (n : BitVec 32) (hset : SetBetween s.cfg 0x21 0x25) :
    let k := min n.toNat s.syn.rem.toNat
    let s1 := s.withSyn { s.syn with rem := s.syn.rem - BitVec.ofNat 64 k }
    ∃ (y : Synth) (pre : List Event) (w : List Sample),
      exec (.synFill (n - BitVec.ofNat 32 k)) s1 = .next ((s1.withSyn y).withEvents (s.events ++ pre ++ [.samples w])) ∧
      exec (.synFill n) s = .next ((s.withSyn y).withEvents
        (s.events ++ pre ++ [.samples (List.replicate k s.syn.amp ++ w)])) := by
  intro k s1
  have hk : k ≤ n.toNat := Nat.min_le_left _ _
  have hsub : (n - BitVec.ofNat 32 k).toNat + k = n.toNat := by
    have := n.isLt
    have hk32 : (BitVec.ofNat 32 k).toNat = k := by rw [BitVec.toNat_ofNat]; omega
    rw [BitVec.toNat_sub_of_le (by rw [BitVec.le_def, hk32]; exact hk), hk32, Nat.sub_add_cancel hk]
  obtain ⟨y, pre, w, hrun, he⟩ := exec_synFill_of_set (s := s1) (n - BitVec.ofNat 32 k) hset
  refine ⟨y, pre, w, he, exec_synFill_of_run hset ?_⟩
  rw [← hsub]
  exact .segments (Nat.min_le_right _ _) hrun

/-- SYN_FILL goes on from the state after a popped train (R207, R208). -/
theorem exec_synFill_train {s : State} {n : BitVec 32} {t : PulseTrain} {q : List PulseTrain}
    (hset : SetBetween s.cfg 0x21 0x25) (hn : n ≠ 0) (hrem : s.syn.rem = 0) (hqueue : s.syn.queue = t :: q)
    (hactive : activeFirst s.cfg = true → s.syn.active = []) :
    exec (.synFill n) s = exec (.synFill n) ((s.withSyn { s.syn with queue := q, active := t }).withEvents
      (s.events ++ preemptEvents s.syn.active)) := by
  obtain ⟨y, pre, w, hrun, he⟩ := exec_synFill_of_set
    (s := (s.withSyn { s.syn with queue := q, active := t }).withEvents (s.events ++ preemptEvents s.syn.active)) n hset
  have hrem0 : s.syn.rem.toNat = 0 := by rw [hrem]; rfl
  rw [he, exec_synFill_of_run hset (.train (toNat_ne_zero hn) hrem0 hqueue hactive hrun), ← List.append_assoc]
  rfl

/-- SYN_FILL goes on from the state after a popped pulse (R207, R208). -/
theorem exec_synFill_pulse {s : State} {n : BitVec 32} {p : Pulse} {ps : PulseTrain}
    (hset : SetBetween s.cfg 0x21 0x25) (hn : n ≠ 0) (hrem : s.syn.rem = 0) (hactive : s.syn.active = p :: ps)
    (hqueue : activeFirst s.cfg = false → s.syn.queue = []) :
    exec (.synFill n) s = exec (.synFill n) (s.withSyn
      ⟨s.syn.queue, ps, ampOf s.cfg p.level, BitVec.ofNat 64 (toSamples s.cfg p.dur)⟩) := by
  obtain ⟨y, pre, w, hrun, he⟩ := exec_synFill_of_set
    (s := s.withSyn ⟨s.syn.queue, ps, ampOf s.cfg p.level, BitVec.ofNat 64 (toSamples s.cfg p.dur)⟩) n hset
  have hrem0 : s.syn.rem.toNat = 0 := by rw [hrem]; rfl
  rw [he, exec_synFill_of_run hset (.pulse (toNat_ne_zero hn) hrem0 hactive hqueue hrun)]
  rfl

/-- With nothing to play SYN_FILL writes idle samples and changes nothing else (R211). -/
theorem exec_synFill_idle {s : State} (n : BitVec 32) (hset : SetBetween s.cfg 0x21 0x25) (hrem : s.syn.rem = 0)
    (hqueue : s.syn.queue = []) (hactive : s.syn.active = []) :
    exec (.synFill n) s =
      .next (s.withEvents (s.events ++ [.samples (List.replicate n.toNat s.cfg.synAmpIdle.value)])) := by
  have hrem0 : s.syn.rem.toNat = 0 := by rw [hrem]; rfl
  rw [exec_synFill_of_run hset (.idles hrem0 hqueue hactive n.toNat), List.append_nil, State.withSyn_self]

/-! ## Active-first -/

/-- A count of samples fits `S.syn_rem` (R202): a duration and a rate have 32 bits each. -/
theorem toSamples_lt (c : CfgFile) (d : Dur) : toSamples c d < 2 ^ 64 := by
  have hprod : d.toNat * c.synRateNum.value.toNat ≤ (2 ^ 32 - 1) * (2 ^ 32 - 1) :=
    Nat.mul_le_mul (Nat.le_sub_one_of_lt d.isLt) (Nat.le_sub_one_of_lt c.synRateNum.value.isLt)
  have hquot := Nat.div_le_self (d.toNat * c.synRateNum.value.toNat) c.synRateDen.value.toNat
  unfold toSamples
  rcases rhe_cases (d.toNat * c.synRateNum.value.toNat) c.synRateDen.value.toNat with ⟨h, -, -⟩ | ⟨h, -, -⟩ <;>
    rw [h] <;> omega

/-- A sample of the segment in progress is the first of those to play (R208). -/
theorem pendingSamples_segment (c : CfgFile) {y : Synth} (hrem : 0 < y.rem.toNat) :
    pendingSamples c y = y.amp :: pendingSamples c { y with rem := y.rem - 1 } := by
  have hsucc : y.rem.toNat = (y.rem - 1).toNat + 1 := by
    rw [BitVec.toNat_sub_of_le (by rw [BitVec.le_def]; exact hrem)]
    exact (Nat.sub_add_cancel hrem).symm
  rw [pendingSamples, hsucc, List.replicate_succ, List.cons_append]
  rfl

/-- A train popped behind an empty active message plays as it did in the queue (R208). -/
theorem pendingSamples_train (c : CfgFile) {y : Synth} {t : PulseTrain} {q : List PulseTrain}
    (hqueue : y.queue = t :: q) (hactive : y.active = []) :
    pendingSamples c y = pendingSamples c { y with queue := q, active := t } := by
  simp only [pendingSamples, hqueue, hactive, List.nil_append, List.flatten_cons]

/-- A popped pulse plays as it did in the active message (R202, R203, R208). -/
theorem pendingSamples_pulse (c : CfgFile) {y : Synth} {p : Pulse} {ps : PulseTrain} (hrem : y.rem.toNat = 0)
    (hactive : y.active = p :: ps) :
    pendingSamples c y = pendingSamples c
      { y with active := ps, amp := ampOf c p.level, rem := BitVec.ofNat 64 (toSamples c p.dur) } := by
  have hsegment : (BitVec.ofNat 64 (toSamples c p.dur)).toNat = toSamples c p.dur := by
    rw [BitVec.toNat_ofNat, Nat.mod_eq_of_lt (toSamples_lt c p.dur)]
  simp only [pendingSamples, hrem, hactive, hsegment, List.replicate_zero, List.nil_append, List.cons_append,
    List.flatMap_cons]
  rfl

/-- With nothing to play nothing is pending (R208). -/
theorem pendingSamples_idle (c : CfgFile) {y : Synth} (hrem : y.rem.toNat = 0) (hqueue : y.queue = [])
    (hactive : y.active = []) : pendingSamples c y = [] := by
  simp only [pendingSamples, hrem, hqueue, hactive, List.replicate_zero, List.flatten_nil, List.append_nil,
    List.flatMap_nil]

/-- With ORDER = 1 a fill warns of nothing, writes the first of the pending samples with idle ones behind them, and
leaves the rest pending (R208). -/
theorem FillRun.activeFirst_outcome {c : CfgFile} {y y' : Synth} {n : Nat} {pre : List Event} {w : List Sample}
    (h : FillRun c y n y' pre w) (horder : activeFirst c = true) {m : Nat} (hm : n ≤ m) :
    pre = [] ∧ w = (pendingSamples c y ++ List.replicate m c.synAmpIdle.value).take n ∧
      pendingSamples c y' = (pendingSamples c y).drop n := by
  induction h generalizing m with
  | full => exact ⟨rfl, rfl, rfl⟩
  | segment hrem _ ih =>
    obtain ⟨hpre, hw, hleft⟩ := ih (Nat.le_of_succ_le hm)
    rw [pendingSamples_segment c hrem, List.cons_append, List.take_succ_cons, List.drop_succ_cons, ← hw]
    exact ⟨hpre, rfl, hleft⟩
  | train _ _ hqueue hactive _ ih =>
    rw [pendingSamples_train c hqueue (hactive horder), hactive horder]
    exact ih hm
  | pulse _ hrem hactive _ _ ih =>
    rw [pendingSamples_pulse c hrem hactive]
    exact ih hm
  | idle hrem hqueue hactive _ ih =>
    obtain ⟨k, rfl⟩ := Nat.exists_eq_succ_of_ne_zero (Nat.ne_zero_of_lt hm)
    obtain ⟨hpre, hw, hleft⟩ := ih (Nat.le_of_succ_le_succ hm)
    rw [pendingSamples_idle c hrem hqueue hactive] at hw hleft ⊢
    rw [List.nil_append] at hw ⊢
    rw [List.replicate_succ, List.take_succ_cons, ← hw, hleft, List.drop_nil, List.drop_nil]
    exact ⟨hpre, rfl, rfl⟩

/-! ## The obligations -/

/-- Settles O37: the samples and the warnings are those of a fill, and a fill of none is no step. -/
theorem synFillEmitsExactlyNSamples : Obligations.SynFillEmitsExactlyNSamples := by
  intro s n hset
  obtain ⟨y, pre, w, hrun, he⟩ := exec_synFill_of_set n hset
  refine ⟨y, pre, w, he, hrun.length_eq, hrun.pre_preempt, ?_⟩
  rintro rfl
  obtain ⟨hy, hpre, -⟩ := hrun.unique (.full s.syn)
  exact ⟨hy, hpre⟩

/-- Settles O38: one lemma for each case; with ORDER = 0 a train may be popped whatever is active. -/
theorem synFillQueueFirstCases : Obligations.SynFillQueueFirstCases := by
  intro s n hset hn horder
  rw [← activeFirst_eq_false_iff] at horder
  refine ⟨fun _ => exec_synFill_segment n hset, fun hrem t q hqueue => ?train, fun hrem hqueue p ps hactive => ?pulse,
    fun hrem hqueue hactive => exec_synFill_idle n hset hrem hqueue hactive⟩
  case train => exact exec_synFill_train hset hn hrem hqueue fun h => by simp [horder] at h
  case pulse =>
    have h := exec_synFill_pulse hset hn hrem hactive fun _ => hqueue
    rwa [hqueue] at h

/-- Settles O39: one lemma for each case; with ORDER = 1 a pulse may be popped whatever is queued, and a train only
behind an empty active message, so with no warning. -/
theorem synFillActiveFirstCases : Obligations.SynFillActiveFirstCases := by
  intro s n hset hn horder
  rw [← activeFirst_iff] at horder
  refine ⟨fun _ => exec_synFill_segment n hset, fun hrem p ps hactive => ?pulse, fun hrem hactive t q hqueue => ?train,
    fun hrem hqueue hactive => exec_synFill_idle n hset hrem hqueue hactive⟩
  case pulse => exact exec_synFill_pulse hset hn hrem hactive fun h => by simp [horder] at h
  case train =>
    have h := exec_synFill_train hset hn hrem hqueue fun _ => hactive
    rwa [hactive, preemptEvents, if_pos rfl, List.append_nil, State.withSyn_withEvents_self] at h

/-- Settles O40: the two fills make one of the summed length, and that one has one outcome. -/
theorem synFillSplitsAcrossCalls : Obligations.SynFillSplitsAcrossCalls := by
  intro s m n hset hsum
  obtain ⟨y1, pre1, w1, hrun1, he1⟩ := exec_synFill_of_set m hset
  obtain ⟨y2, pre2, w2, hrun2, he2⟩ := exec_synFill_of_set
    (s := (s.withSyn y1).withEvents (s.events ++ pre1 ++ [.samples w1])) n hset
  have hlen : (m + n).toNat = m.toNat + n.toNat := by rw [BitVec.toNat_add, Nat.mod_eq_of_lt hsum]
  refine ⟨y1, y2, pre1, pre2, w1, w2, he1, he2, ?_⟩
  rw [exec_synFill_of_run hset (hlen ▸ hrun1.append hrun2), ← List.append_assoc]

/-- Settles O42: what a fill with ORDER = 1 writes and leaves is `FillRun.activeFirst_outcome`, by induction on the
fill. -/
theorem activeFirstPlaysEveryTrainInFull : Obligations.ActiveFirstPlaysEveryTrainInFull := by
  intro s n hset horder
  obtain ⟨y, pre, w, hrun, he⟩ := exec_synFill_of_set n hset
  obtain ⟨rfl, rfl, hleft⟩ := hrun.activeFirst_outcome ((activeFirst_iff s.cfg).mpr horder) (Nat.le_refl _)
  rw [List.append_nil] at he
  exact ⟨y, he, hleft⟩

/-- Settles O41: the idle case of the fill. -/
theorem idleFillChangesNothing : Obligations.IdleFillChangesNothing :=
  fun _ n hset hqueue hactive hrem => exec_synFill_idle n hset hrem hqueue hactive

end Sys2Proof.Machine

/-! SUPPORT. What each operation leaves unchanged and what it appends, from the one account of every operation
(`exec_checkedOutcome`) and from what each part's operations write (10_state.md sections 1 to 5, 60_exceptions.md
R260 to R265). -/

namespace Sys2Proof.Machine

/-! ## What a pass and a push write -/

/-- Dropping trains from the front leaves an end of the queue (R205). -/
theorem exists_dropFront_eq_drop (cap : Nat) (q : List PulseTrain) (n : Nat) :
    ∃ m, (dropFront cap q n).1 = q.drop m := by
  induction q generalizing n with
  | nil => exact ⟨0, rfl⟩
  | cons t q ih =>
    unfold dropFront
    split
    · obtain ⟨m, hm⟩ := ih (n + 1)
      exact ⟨m + 1, hm⟩
    · exact ⟨0, rfl⟩

/-- A push drops trains from the front, appends at most its own, warns of nothing but a full queue, and writes nothing
else (R204, R205). -/
theorem synPush_effect (t : PulseTrain) (s : State) :
    ∃ (es : List Event) (n : Nat) (new : List PulseTrain),
      synPush t s = (s.withSyn { s.syn with queue := s.syn.queue.drop n ++ new }).withEvents (s.events ++ es) ∧
      (∀ e ∈ es, isDiag .synQueueFull e = true) ∧
      (new = [] ∨ new = [t ++ [⟨false, s.cfg.synTrailTime.value⟩]]) := by
  obtain ⟨es, q, he, hcases⟩ := synPush_cases t s
  rw [he]
  rcases hcases with ⟨rfl, rfl⟩ | ⟨rfl, rfl⟩ | ⟨cap, -, -, rfl, rfl⟩
  · exact ⟨[], 0, _, rfl, List.forall_mem_nil _, .inr rfl⟩
  · exact ⟨_, 0, [], by rw [List.append_nil]; rfl, List.forall_mem_singleton.mpr rfl, .inl rfl⟩
  · obtain ⟨m, hm⟩ := exists_dropFront_eq_drop cap s.syn.queue 0
    exact ⟨_, m, _, by rw [hm], List.forall_mem_singleton.mpr rfl, .inr rfl⟩

/-- The table after the send of entry k in a pass at `now` on `s` (R170, R171). -/
def schedulerAfterSend (s : State) (now : Time) (k : Key) : Scheduler :=
  { setSlot s.sch k (slotAfterSend (slotAt s.sch k) now) with gainCur := gainAfter s now, gainLastSend := now }

/-- A pass that selects entry k: the gain step's event, EvTxCmd and the push's events; the table and the gain as R171
and R165 leave them, and the queue as the push leaves it (R170, R171). -/
theorem schPass_send {s : State} {now : Time} {k : Key} (hsel : Selected s now k) :
    ∃ (es : List Event) (n : Nat) (new : List PulseTrain),
      schPass now s = ((s.withSch (schedulerAfterSend s now k)).withSyn
        { s.syn with queue := s.syn.queue.drop n ++ new }).withEvents
          (s.events ++ gainEvents s now ++ [.txCmd (BitVec.ofNat 64 (dataNumber (slotAt s.sch k).command))] ++ es) ∧
      (∀ e ∈ es, isDiag .synQueueFull e = true) ∧
      (new = [] ∨ new = [txTrain s.cfg (slotAt s.sch k).command]) := by
  obtain ⟨es', q, hsend, hpush⟩ := emitEntry_eq k now (gained now s)
  obtain ⟨es, n, new, he, hes, hnew⟩ := synPush_effect (pulsesOf (gained now s).cfg
    (frameSeq (slotAt (gained now s).sch k).command))
    (emit (.txCmd (packed64 (slotAt (gained now s).sch k).command)) (gained now s))
  rw [he] at hpush
  have hqueue : s.syn.queue.drop n ++ new = q := congrArg (fun t : State => t.syn.queue) hpush
  have hevents : es = es' := List.append_cancel_left (congrArg State.events hpush)
  subst hqueue hevents
  refine ⟨es, n, new, ?_, hes, hnew⟩
  rw [schPass_of_selected hsel, hsend, packed64_eq]
  rfl

/-- What a pass can do: with nothing eligible its gain step and the warning, and otherwise the send of the selected
entry (R168, R169). -/
theorem schPass_outcome (now : Time) (s : State) :
    ((∀ k, ¬Selected s now k) ∧
      schPass now s = (s.withSch { s.sch with gainCur := gainAfter s now }).withEvents
        (s.events ++ gainEvents s now ++ [.diag .schNothingEligible (BitVec.ofNat 64 (validCount s.sch))])) ∨
    ∃ k, Selected s now k ∧ ∃ (es : List Event) (n : Nat) (new : List PulseTrain),
      schPass now s = ((s.withSch (schedulerAfterSend s now k)).withSyn
        { s.syn with queue := s.syn.queue.drop n ++ new }).withEvents
          (s.events ++ gainEvents s now ++ [.txCmd (BitVec.ofNat 64 (dataNumber (slotAt s.sch k).command))] ++ es) ∧
      (∀ e ∈ es, isDiag .synQueueFull e = true) ∧
      (new = [] ∨ new = [txTrain s.cfg (slotAt s.sch k).command]) := by
  rcases hpick : pickKey now s with _ | k
  · have hnone := (pickKey_eq_none_iff now s).mp hpick
    refine .inl ⟨fun k hk => hnone k hk.1, ?_⟩
    rw [schPass_of_not_eligible hnone, warn_eq]
    rfl
  · have hsel := selected_of_pickKey hpick
    exact .inr ⟨k, hsel, schPass_send hsel⟩

/-- `SchedulerSet` is what the scheduler's check asks (R160, R231). -/
theorem schedulerSet_iff (c : CfgFile) : SchedulerSet c ↔ ∀ r ∈ schRegs, c.isSet r = true := by
  refine ⟨isSet_of_schedulerSet, fun h => ⟨fun r hlo hhi => ?_, fun r hlo hhi => ?_⟩⟩
  · exact h r ((addr_eq_or_le_iff_mem_schRegs r).mp (.inr ⟨hlo, hhi⟩))
  · exact h r ((addr_eq_or_le_iff_mem_schRegs r).mp (.inl (Nat.le_antisymm hhi hlo)))

/-- SCH_TICK makes a pass, or its check refuses it (R173, R231). -/
theorem exec_schTick_cases (now : Time) (s : State) :
    (SchedulerSet s.cfg ∧ exec (.schTick now) s = .next (schPass now s)) ∨
    (¬SchedulerSet s.cfg ∧ ∃ a, exec (.schTick now) s = .next (raise .cfgUnset a s)) := by
  rw [schedulerSet_iff]
  rcases requireCfg_cases schRegs (schPass now) s with ⟨hset, he⟩ | ⟨r, hr, hunset, -, he⟩
  · exact .inl ⟨hset, congrArg _ he⟩
  · exact .inr ⟨fun hset => by simp [hset r hr] at hunset, _, congrArg _ he⟩

/-- SCH_SUBMIT makes a pass on the upserted table, or its check refuses it (R162, R231). -/
theorem exec_schSubmit_cases (c : Command) (now : Time) (s : State) :
    (SchedulerSet s.cfg ∧ exec (.schSubmit c now) s = .next (schPass now (upsert c s))) ∨
    (¬SchedulerSet s.cfg ∧ ∃ a, exec (.schSubmit c now) s = .next (raise .cfgUnset a s)) := by
  rw [schedulerSet_iff]
  rcases requireCfg_cases schRegs (fun s => schPass now (upsert c s)) s with ⟨hset, he⟩ | ⟨r, hr, hunset, -, he⟩
  · exact .inl ⟨hset, congrArg _ he⟩
  · exact .inr ⟨fun hset => by simp [hset r hr] at hunset, _, congrArg _ he⟩

/-! ## Which parts an operation writes -/

/-- `t` is `s` but for the parts that operation `i` writes and the event stream. -/
def OnlyItsParts (i : Instr) (s t : State) : Prop :=
  (writesDec i = false → t.dec = s.dec) ∧ (writesSch i = false → t.sch = s.sch) ∧
    (writesSyn i = false → t.syn = s.syn) ∧ (writesCfg i = false → t.cfg = s.cfg) ∧
    t.requests = s.requests ∧ t.queueDepth = s.queueDepth

/-- A state that differs in its events alone. -/
theorem onlyItsParts_withEvents (i : Instr) (s : State) (es : List Event) : OnlyItsParts i s (s.withEvents es) :=
  ⟨fun _ => rfl, fun _ => rfl, fun _ => rfl, fun _ => rfl, rfl, rfl⟩

/-- A pass writes the scheduler and the synthesizer (R61, R62). -/
theorem schPass_onlyItsParts {i : Instr} (hsch : writesSch i = true) (hsyn : writesSyn i = true) (now : Time)
    {s s' : State} (hs : OnlyItsParts i s s') : OnlyItsParts i s (schPass now s') := by
  obtain ⟨hdec, -, -, hcfg, hreq, hdepth⟩ := hs
  rcases schPass_outcome now s' with ⟨-, he⟩ | ⟨k, -, es, n, new, he, -, -⟩ <;> rw [he] <;>
    exact ⟨hdec, by simp [hsch], by simp [hsyn], hcfg, hreq, hdepth⟩

/-- Behind a configuration check that refuses with no write. -/
theorem onlyItsParts_requireCfg {i : Instr} {regs : List RegName} {body : State → State} {s : State}
    (h : OnlyItsParts i s (body s)) : OnlyItsParts i s (requireCfg regs body s) := by
  rcases requireCfg_cases regs body s with ⟨-, he⟩ | ⟨r, -, -, -, he⟩
  · rwa [he]
  · rw [he]
    exact onlyItsParts_withEvents ..

/-- A codec operation emits and writes nothing (R141, R147). -/
theorem codecDecodeSeq_onlyItsParts (i : Instr) (q : BitSeq) (s : State) :
    OnlyItsParts i s (codecDecodeSeq q s) := by
  obtain ⟨e, he⟩ := codecDecodeSeq_cases q s
  rw [he]
  exact onlyItsParts_withEvents ..

/-- The pulse decoder's operations write the decoder (R24 to R26). -/
theorem onlyItsParts_withDec {i : Instr} (hdec : writesDec i = true) (s : State) (d : Decoder) (es : List Event) :
    OnlyItsParts i s ((s.withDec d).withEvents es) :=
  ⟨by simp [hdec], fun _ => rfl, fun _ => rfl, fun _ => rfl, rfl, rfl⟩

/-- The synthesizer's operations write the synthesizer (R29, R62). -/
theorem onlyItsParts_withSyn {i : Instr} (hsyn : writesSyn i = true) (s : State) (y : Synth) (es : List Event) :
    OnlyItsParts i s ((s.withSyn y).withEvents es) :=
  ⟨fun _ => rfl, fun _ => rfl, by simp [hsyn], fun _ => rfl, rfl, rfl⟩

/-- CFG_WRITE writes the configuration (R60, R232). -/
theorem cfgWriteReg_onlyItsParts (a : BitVec 8) (v : BitVec 64) (s : State) :
    OnlyItsParts (.cfgWrite a v) s (cfgWriteReg a v s) := by
  rcases cfgWriteReg_cases a v s with ⟨st, -, he⟩ | ⟨-, he⟩ | ⟨r, -, -, -, he⟩ | ⟨r, -, -, he⟩ <;> rw [he]
  · exact onlyItsParts_withEvents ..
  · exact onlyItsParts_withEvents ..
  · exact onlyItsParts_withEvents ..
  · exact ⟨fun _ => rfl, fun _ => rfl, fun _ => rfl, nofun, rfl, rfl⟩

/-- CFG_READ writes nothing (R234). -/
theorem cfgReadReg_onlyItsParts (i : Instr) (a : BitVec 8) (s : State) : OnlyItsParts i s (cfgReadReg a s) := by
  unfold cfgReadReg
  split
  · exact onlyItsParts_withEvents ..
  · exact onlyItsParts_withEvents ..
  · split
    · exact onlyItsParts_withEvents ..
    · exact onlyItsParts_withEvents ..

/-- The operations write the parts that the spec lists for them, and no other (R24 to R30, R60 to R62, R235). -/
theorem exec_onlyItsParts {i : Instr} {s t : State} (h : exec i s = .next t) : OnlyItsParts i s t := by
  cases i with
  | decPulse level p =>
    obtain ⟨d, es, ⟨he, -⟩, -⟩ := classifyPulse_sameEffect (s := s) level p rfl fun _ _ => ⟨rfl, rfl⟩
    cases h
    exact onlyItsParts_requireCfg (he ▸ onlyItsParts_withDec rfl s d _)
  | decEnd =>
    rw [exec_decEnd] at h
    cases h
    exact onlyItsParts_withDec rfl s _ _
  | schSubmit c now =>
    cases h
    exact onlyItsParts_requireCfg (body := fun s => schPass now (upsert c s)) (schPass_onlyItsParts rfl rfl now
      ⟨fun _ => rfl, nofun, fun _ => rfl, fun _ => rfl, rfl, rfl⟩)
  | schTick now =>
    cases h
    exact onlyItsParts_requireCfg (schPass_onlyItsParts rfl rfl now (onlyItsParts_withEvents _ s s.events))
  | synFill n =>
    obtain ⟨y, pre, w, -, he⟩ := exists_fillRun n.toNat s
    cases h
    exact onlyItsParts_requireCfg (he ▸ onlyItsParts_withSyn rfl s y _)
  | synEnqueue o =>
    cases o with
    | train train =>
      obtain ⟨es, n, new, he, -, -⟩ := synPush_effect train s
      cases h
      exact onlyItsParts_requireCfg (he ▸ onlyItsParts_withSyn rfl s _ _)
    | tooLong count => cases h; exact onlyItsParts_withEvents ..
  | codecDecode o =>
    cases o with
    | seq q => cases h; exact codecDecodeSeq_onlyItsParts _ q s
    | tooLong len => cases h; exact onlyItsParts_withEvents ..
  | encEncode o => cases o <;> cases h <;> exact onlyItsParts_withEvents ..
  | cfgWrite a v => cases h; exact cfgWriteReg_onlyItsParts a v s
  | cfgRead a => cases h; exact cfgReadReg_onlyItsParts _ a s
  | cksum | codecEncode | reservedD | reservedE => cases h; exact onlyItsParts_withEvents ..
  | nop => cases h; exact onlyItsParts_withEvents _ s s.events
  | reset => cases h; exact ⟨nofun, nofun, nofun, nofun, rfl, rfl⟩

/-! ## What an operation appends -/

/-- The op code of an operation that checks a register is one that CFG_UNSET lists (R231, R261). -/
theorem opcodeOf_mem_emitters_cfgUnset {i : Instr} {r : RegName} (h : needsReg i r) (arg : BitVec 64) :
    opcodeOf i ∈ emitters (.diag .cfgUnset arg) := by
  cases i with
  | decPulse | schSubmit | schTick | synEnqueue | synFill => simp [opcodeOf, emitters]
  | _ => exact h.elim

/-- What an operation does to the events: it appends ordinary ones of its own, or it ends in a raise (R22, R260,
R261). -/
theorem exec_events_cases {i : Instr} {s t : State} (h : exec i s = .next t) :
    Appends (Ordinary (opcodeOf i)) s t ∨
      ∃ code arg, t = s.withEvents (s.events ++ [.diag code arg]) ∧ isRaiseCode code = true ∧
        opcodeOf i ∈ emitters (.diag code arg) := by
  rcases exec_checkedOutcome i s with ⟨r, hneeds, -, -, he⟩ | ⟨-, t', he, hperforms⟩
  · cases he.symm.trans h
    exact .inr ⟨_, _, rfl, rfl, opcodeOf_mem_emitters_cfgUnset hneeds _⟩
  · cases he.symm.trans h
    rcases hperforms with happends | ⟨code, arg, rfl, hcode, hop, -⟩
    · exact .inl happends
    · exact .inr ⟨code, arg, rfl, hcode, hop⟩

/-- Every event an operation appends is one of its own (R22, R261). -/
theorem exec_appends {i : Instr} {s t : State} (h : exec i s = .next t) :
    Appends (fun e => opcodeOf i ∈ emitters e) s t := by
  rcases exec_events_cases h with ⟨es, he, hes⟩ | ⟨code, arg, rfl, -, hop⟩
  · exact ⟨es, he, fun e hm => (hes e hm).1⟩
  · exact ⟨_, rfl, List.forall_mem_singleton.mpr hop⟩

/-- The events that operation `i` does not emit stand after it as before. -/
theorem filter_events_of_not_emitted {i : Instr} {s t : State} (h : exec i s = .next t) {P : Event → Bool}
    (hP : ∀ e, P e = true → opcodeOf i ∉ emitters e) : t.events.filter P = s.events.filter P := by
  obtain ⟨es, he, hes⟩ := exec_appends h
  have hnone : es.filter P = [] := List.filter_eq_nil_iff.mpr fun e hm hp => hP e hp (hes e hm)
  rw [he, List.filter_append, hnone, List.append_nil]

/-- No operation stops the machine (section 4 of 93_implementation_defined.md). -/
theorem exists_exec_eq_next (i : Instr) (s : State) : ∃ t, exec i s = .next t := by
  rcases exec_checkedOutcome i s with ⟨r, -, -, -, he⟩ | ⟨-, t, he, -⟩
  · exact ⟨_, he⟩
  · exact ⟨t, he⟩

/-! ## The obligations -/

/-- Settles O26: CODEC_OVERFLOW has no emitter. -/
theorem codecOverflowIsNeverEmitted : Obligations.CodecOverflowIsNeverEmitted := by
  intro i s t h
  refine filter_events_of_not_emitted h fun e he => ?_
  cases e with
  | diag code arg =>
    obtain rfl : code = .codecOverflow := of_decide_eq_true he
    simp [emitters]
  | result | rxSeq | rxCmd | txCmd | gain | samples => cases he

/-- Settles O49. -/
theorem eachPartHasItsWriters : Obligations.EachPartHasItsWriters := fun _ _ _ h => exec_onlyItsParts h

/-- Settles O50. -/
theorem eachEventHasItsEmitters : Obligations.EachEventHasItsEmitters := fun _ _ _ h => exec_appends h

/-- Settles O51: ordinary events are no refusals, and a raise appends its one diagnostic. -/
theorem raiseIsTheOnlyEffect : Obligations.RaiseIsTheOnlyEffect := by
  intro i s t es code arg h he hmem hcode
  rcases exec_events_cases h with ⟨es', he', hes'⟩ | ⟨code', arg', rfl, -, -⟩
  · rw [he] at he'
    obtain ⟨-, hrefusal⟩ := hes' _ (List.append_cancel_left he' ▸ hmem)
    cases hrefusal.symm.trans hcode
  · rw [← List.append_cancel_left he] at hmem
    rw [List.mem_singleton.mp hmem]

/-- Settles O52: a step performs an operation or changes nothing. -/
theorem eventStreamOnlyGrows : Obligations.EventStreamOnlyGrows := by
  intro s t h
  rcases step_cases s with ⟨i, rest, -, he⟩ | ⟨-, he⟩
  · obtain ⟨es, hevents, -⟩ := exec_appends (he.symm.trans h)
    exact ⟨es, hevents⟩
  · cases he.symm.trans h
    exact ⟨[], (List.append_nil _).symm⟩

/-- Settles O53: a step performs an operation or changes nothing. -/
theorem everyStepAnswersANextState : Obligations.EveryStepAnswersANextState := by
  intro s
  rcases step_cases s with ⟨i, rest, -, he⟩ | ⟨-, he⟩
  · rw [he]
    exact exists_exec_eq_next i _
  · exact ⟨s, he⟩

/-- Settles O14: the list is compared with the tables entry by entry, and each register is looked up in it. -/
theorem registerMapAsListed : Obligations.RegisterMapAsListed := by
  refine ⟨by decide, fun r => ?_⟩
  cases r <;> decide

end Sys2Proof.Machine

/-! SUPPORT. Each part of the invariant, kept by each operation that writes the part, and the invariant itself
(10_state.md sections 2 to 5, 43_scheduler.md R171, 45_synthesizer.md R204 to R207, 46_system.md R232). -/

namespace Sys2Proof.Machine

/-! ## After reset -/

theorem Scheduler.ok_reset : Scheduler.Ok .reset := by
  intro k hvalid
  simp [Scheduler.reset, Slot.reset, slotAt] at hvalid

theorem Synth.ok_reset : Synth.Ok .reset := ⟨List.forall_mem_nil _, Nat.zero_le _⟩

theorem CfgFile.ok_reset : CfgFile.Ok .reset := ⟨by decide, nofun, nofun⟩

/-! ## The decoder -/

/-- DEC_PULSE, DEC_END and RESET keep the decoder as the invariant asks. -/
theorem exec_keeps_dec {i : Instr} {s t : State} (h : exec i s = .next t) (hok : s.dec.Ok) : t.dec.Ok := by
  obtain ⟨hframe, -⟩ := exec_onlyItsParts h
  cases i with
  | decPulse level p =>
    obtain ⟨d, es, ⟨he, -⟩, hd⟩ := classifyPulse_sameEffect (s := s) level p rfl fun _ _ => ⟨rfl, rfl⟩
    cases h
    rcases requireCfg_cases decRegs (classifyPulse level p) s with ⟨-, hc⟩ | ⟨r, -, -, -, hc⟩ <;> rw [hc]
    · rw [he]
      exact hd hok
    · exact hok
  | decEnd =>
    rw [exec_decEnd] at h
    cases h
    exact Decoder.ok_empty _
  | reset =>
    cases h
    exact Decoder.ok_empty _
  | _ => exact hframe rfl ▸ hok

/-! ## The configuration -/

/-- A store into another register leaves SYN_RATE_DEN alone (R66). -/
theorem CfgFile.synRateDen_set_of_ne (c : CfgFile) (v : BitVec 64) {r : RegName} (h : r ≠ .synRateDen) :
    (c.set v r).synRateDen = c.synRateDen := by
  cases r with
  | synRateDen => exact absurd rfl h
  | _ => rfl

/-- A store into another register leaves SCH_REPEAT_COUNT alone (R66). -/
theorem CfgFile.schRepeatCount_set_of_ne (c : CfgFile) (v : BitVec 64) {r : RegName} (h : r ≠ .schRepeatCount) :
    (c.set v r).schRepeatCount = c.schRepeatCount := by
  cases r with
  | schRepeatCount => exact absurd rfl h
  | _ => rfl

/-- A store that CFG_WRITE does not refuse keeps the configuration as the invariant asks (R232). -/
theorem CfgFile.Ok.set {c : CfgFile} (h : c.Ok) {v : BitVec 64} {r : RegName}
    (hr : ¬((r = .synRateDen ∨ r = .schRepeatCount) ∧ v.setWidth r.width = 0)) : (c.set v r).Ok := by
  refine ⟨fun r' hr' => ?_, fun hwritten => ?_, fun hwritten => ?_⟩
  · by_cases hne : r' = r
    · rw [hne, CfgFile.isSet_set_self]
    · rw [CfgFile.isSet_set_of_ne c v hne]
      exact h.reset_set r' hr'
  · by_cases hden : r = .synRateDen
    · subst hden
      exact fun h0 => hr ⟨.inl rfl, h0⟩
    · rw [CfgFile.synRateDen_set_of_ne c v hden] at hwritten ⊢
      exact h.den_ne hwritten
  · by_cases hcount : r = .schRepeatCount
    · subst hcount
      exact fun h0 => hr ⟨.inr rfl, h0⟩
    · rw [CfgFile.schRepeatCount_set_of_ne c v hcount] at hwritten ⊢
      exact h.repeat_ne hwritten

/-- CFG_WRITE and RESET keep the configuration as the invariant asks. -/
theorem exec_keeps_cfg {i : Instr} {s t : State} (h : exec i s = .next t) (hok : s.cfg.Ok) : t.cfg.Ok := by
  obtain ⟨-, -, -, hframe, -⟩ := exec_onlyItsParts h
  cases i with
  | cfgWrite a v =>
    cases h
    rcases cfgWriteReg_cases a v s with ⟨st, -, he⟩ | ⟨-, he⟩ | ⟨r, -, -, -, he⟩ | ⟨r, -, hr, he⟩ <;> rw [he]
    · exact hok
    · exact hok
    · exact hok
    · exact hok.set hr
  | reset =>
    cases h
    exact CfgFile.ok_reset
  | _ => exact hframe rfl ▸ hok

/-! ## The scheduler -/

/-- A slot as the invariant asks of the one at key k. -/
def SlotOk (k : Key) (slot : Slot) : Prop :=
  slot.valid = true → slot.repeats ≠ 0 ∧ k.toNat = slot.command.chan.toNat * 16 + slot.command.group.toNat

/-- Writing such a slot keeps the table as the invariant asks. -/
theorem Scheduler.Ok.setSlot {c : Scheduler} (h : c.Ok) {k : Key} {slot : Slot} (hslot : SlotOk k slot) :
    (Machine.setSlot c k slot).Ok := by
  intro j
  by_cases hj : j = k
  · rw [hj, slotAt_setSlot_self]
    exact hslot
  · rw [slotAt_setSlot_of_ne c slot hj]
    exact h j

/-- A send leaves a repeat or removes the entry (R171). -/
theorem SlotOk.afterSend {k : Key} {slot : Slot} (h : SlotOk k slot) (hvalid : slot.valid = true) (now : Time) :
    SlotOk k (slotAfterSend slot now) := by
  obtain ⟨hrepeats, hkey⟩ := h hvalid
  rcases slotAfterSend_cases slot now with ⟨-, he⟩ | ⟨hmore, he⟩ <;> rw [he]
  · exact nofun
  · exact fun _ => ⟨by bv_omega, hkey⟩

/-- A pass keeps the table as the invariant asks. -/
theorem schPass_keeps_sch (now : Time) {s : State} (h : s.sch.Ok) : (schPass now s).sch.Ok := by
  rcases schPass_outcome now s with ⟨-, he⟩ | ⟨k, hsel, es, n, new, he, -, -⟩ <;> rw [he]
  · exact h
  · exact h.setSlot ((show SlotOk k (slotAt s.sch k) from h k).afterSend hsel.1.1 now)

/-- The key of a Command as a number (R161). -/
theorem commandKey_toNat (c : Command) : (commandKey c).toNat = c.chan.toNat * 16 + c.group.toNat :=
  append_toNat_eq_add c.chan c.group

/-- The upsert of a SCH_SUBMIT with a written SCH_REPEAT_COUNT keeps the table as the invariant asks (R162, R232). -/
theorem upsert_keeps_sch (c : Command) {s : State} (h : s.sch.Ok) (hcfg : s.cfg.Ok)
    (hset : s.cfg.isSet .schRepeatCount = true) : (upsert c s).sch.Ok :=
  h.setSlot fun _ => ⟨hcfg.repeat_ne hset, commandKey_toNat c⟩

/-- SCH_SUBMIT, SCH_TICK and RESET keep the table as the invariant asks. -/
theorem exec_keeps_sch {i : Instr} {s t : State} (h : exec i s = .next t) (hok : s.sch.Ok) (hcfg : s.cfg.Ok) :
    t.sch.Ok := by
  obtain ⟨-, hframe, -⟩ := exec_onlyItsParts h
  cases i with
  | schSubmit c now =>
    rcases exec_schSubmit_cases c now s with ⟨hset, he⟩ | ⟨-, a, he⟩ <;> cases he.symm.trans h
    · have hcount := (schedulerSet_iff s.cfg).mp hset .schRepeatCount (by decide)
      exact schPass_keeps_sch now (upsert_keeps_sch c hok hcfg hcount)
    · exact hok
  | schTick now =>
    rcases exec_schTick_cases now s with ⟨-, he⟩ | ⟨-, a, he⟩ <;> cases he.symm.trans h
    · exact schPass_keeps_sch now hok
    · exact hok
  | reset =>
    cases h
    exact Scheduler.ok_reset
  | _ => exact hframe rfl ▸ hok

/-! ## The synthesizer -/

/-- The synthesizer as the invariant asks, its queue within a bounded QUEUE_DEPTH (R8, R205). -/
structure SynFits (y : Synth) (depth : Option Nat) : Prop where
  ok : y.Ok
  depth : ∀ d, depth = some d → 1 ≤ d ∧ y.queue.length ≤ d

/-- A train of at most 129 pulses with its trailing separator is a queued one (R85, R204). -/
theorem queuedTrain_append (t : PulseTrain) (trail : Dur) (h : t.length ≤ 129) : QueuedTrain (t ++ [⟨false, trail⟩]) :=
  ⟨by rw [List.length_append, List.length_singleton]; omega, t, trail, rfl⟩

/-- A push keeps the queued trains such (R204). -/
theorem synPush_keeps_ok {t : PulseTrain} {s : State} (ht : t.length ≤ 129) (h : s.syn.Ok) : (synPush t s).syn.Ok := by
  obtain ⟨es, n, new, he, -, hnew⟩ := synPush_effect t s
  rw [he]
  refine ⟨List.forall_mem_append.mpr ⟨fun u hu => h.queued u (List.mem_of_mem_drop hu), ?_⟩, h.active_le⟩
  rcases hnew with rfl | rfl
  · exact List.forall_mem_nil _
  · exact List.forall_mem_singleton.mpr (queuedTrain_append t _ ht)

/-- A queue without room has an effective capacity, at or above which it is (R205). -/
theorem exists_capIs_of_not_hasRoom {s : State} (h : ¬HasRoom s) : ∃ cap, CapIs s cap ∧ cap ≤ s.syn.queue.length := by
  simp only [hasRoom_iff, not_forall, Nat.not_lt, exists_prop] at h
  obtain ⟨cap, hcap, hle⟩ := h
  exact ⟨cap, (effectiveCap_eq_some_iff s cap).mp hcap, hle⟩

/-- The queue after a push is within QUEUE_DEPTH (R205). -/
theorem synPush_keeps_depth {t : PulseTrain} {s : State} {d : Nat} (hd : s.queueDepth = some d) (hpos : 1 ≤ d)
    (hle : s.syn.queue.length ≤ d) : (synPush t s).syn.queue.length ≤ d := by
  by_cases hroom : HasRoom s
  · rw [synPush_of_hasRoom t hroom]
    have := hroom.2 d hd
    simpa using this
  · obtain ⟨cap, hcap, hfull⟩ := exists_capIs_of_not_hasRoom hroom
    by_cases hpolicy : s.cfg.synCtrl.value.toNat % 2 = 0
    · rw [synPush_of_full_rejectNew t hcap hfull hpolicy]
      exact hle
    · obtain ⟨-, hcapDepth, hcapIs⟩ := id hcap
      have hcapPos : 1 ≤ cap := by
        rcases hcapIs with ⟨hne, rfl⟩ | hdepth
        · omega
        · cases hd.symm.trans hdepth
          exact hpos
      have hcapLe := hcapDepth d hd
      rw [synPush_of_full_dropOldest t hcap hcapPos hfull hpolicy]
      simp only [State.withEvents_syn, State.withSyn_syn, List.length_append, List.length_drop, List.length_singleton]
      omega

/-- A push of a train of at most 129 pulses keeps the synthesizer as the invariant asks (R204, R205). -/
theorem synPush_keeps_fits {t : PulseTrain} {s : State} (ht : t.length ≤ 129) (h : SynFits s.syn s.queueDepth) :
    SynFits (synPush t s).syn s.queueDepth :=
  ⟨synPush_keeps_ok ht h.ok, fun d hd =>
    ⟨(h.depth d hd).1, synPush_keeps_depth hd (h.depth d hd).1 (h.depth d hd).2⟩⟩

/-- A pass keeps the synthesizer as the invariant asks: a frame has 67 pulses (R190, R237). -/
theorem schPass_keeps_fits (now : Time) {s : State} (h : SynFits s.syn s.queueDepth) :
    SynFits (schPass now s).syn s.queueDepth := by
  rw [schPass_eq]
  cases pickKey now s with
  | none => exact h
  | some k =>
    have hlen := pulsesOf_frameSeq_length (gained now s).cfg (slotAt (gained now s).sch k).command
    exact synPush_keeps_fits (s := emit (.txCmd _) (gained now s)) (by rw [emit_cfg, hlen]; omega) h

/-- A fill keeps the synthesizer as the invariant asks: what is active is what is left of a queued train (R207). -/
theorem FillRun.keeps_fits {c : CfgFile} {y y' : Synth} {n : Nat} {pre : List Event} {w : List Sample}
    {depth : Option Nat} (h : FillRun c y n y' pre w) (hfits : SynFits y depth) : SynFits y' depth := by
  induction h with
  | full => exact hfits
  | segment _ _ ih => exact ih ⟨⟨hfits.ok.queued, hfits.ok.active_le⟩, hfits.depth⟩
  | train _ _ hqueue _ _ ih =>
    have hqueued := hfits.ok.queued
    rw [hqueue, List.forall_mem_cons] at hqueued
    obtain ⟨⟨htrain, -⟩, hrest⟩ := hqueued
    refine ih ⟨⟨hrest, htrain⟩, fun d hd => ?_⟩
    obtain ⟨hpos, hlen⟩ := hfits.depth d hd
    rw [hqueue, List.length_cons] at hlen
    exact ⟨hpos, Nat.le_of_succ_le hlen⟩
  | pulse _ _ hactive _ _ ih =>
    have hle := hfits.ok.active_le
    rw [hactive, List.length_cons] at hle
    exact ih ⟨⟨hfits.ok.queued, Nat.le_of_succ_le hle⟩, hfits.depth⟩
  | idle _ _ _ _ ih => exact ih hfits

/-- SYN_ENQUEUE of a well-formed operand, SYN_FILL, SCH_SUBMIT, SCH_TICK and RESET keep the synthesizer as the invariant
asks. -/
theorem exec_keeps_fits {i : Instr} {s t : State} (h : exec i s = .next t) (hi : i.wellFormed = true)
    (hfits : SynFits s.syn s.queueDepth) : SynFits t.syn s.queueDepth := by
  obtain ⟨-, -, hframe, -⟩ := exec_onlyItsParts h
  cases i with
  | synEnqueue o =>
    cases o with
    | train train =>
      cases h
      rcases requireCfg_cases [.synTrailTime] (synPush train) s with ⟨-, he⟩ | ⟨r, -, -, -, he⟩
      · exact (congrArg State.syn he).symm ▸ synPush_keeps_fits (of_decide_eq_true hi) hfits
      · exact (congrArg State.syn he).symm ▸ hfits
    | tooLong count => cases h; exact hfits
  | synFill n =>
    obtain ⟨y, pre, w, hrun, hfill⟩ := exists_fillRun n.toNat s
    cases h
    rcases requireCfg_cases fillRegs (fillSamples n.toNat) s with ⟨-, he⟩ | ⟨r, -, -, -, he⟩ <;> rw [he]
    · rw [hfill]
      exact hrun.keeps_fits hfits
    · exact hfits
  | schSubmit c now =>
    rcases exec_schSubmit_cases c now s with ⟨-, he⟩ | ⟨-, a, he⟩ <;> cases he.symm.trans h
    · exact schPass_keeps_fits now (s := upsert c s) hfits
    · exact hfits
  | schTick now =>
    rcases exec_schTick_cases now s with ⟨-, he⟩ | ⟨-, a, he⟩ <;> cases he.symm.trans h
    · exact schPass_keeps_fits now hfits
    · exact hfits
  | reset =>
    cases h
    exact ⟨Synth.ok_reset, fun d hd => ⟨(hfits.depth d hd).1, Nat.zero_le d⟩⟩
  | _ => exact hframe rfl ▸ hfits

/-! ## The invariant -/

/-- An operation that a request can carry keeps the invariant. -/
theorem exec_keeps_inv {i : Instr} {s t : State} (h : exec i s = .next t) (hi : i.wellFormed = true) (hinv : s.Inv) :
    t.Inv := by
  obtain ⟨-, -, -, -, -, hdepth⟩ := exec_onlyItsParts h
  have hfits := exec_keeps_fits h hi ⟨hinv.syn, hinv.depth⟩
  exact ⟨exec_keeps_dec h hinv.dec, exec_keeps_sch h hinv.sch hinv.cfg, hfits.ok, exec_keeps_cfg h hinv.cfg,
    hdepth ▸ hfits.depth⟩

/-! ## The obligations -/

/-- Settles O55: a step performs a decoded instruction, which is well-formed, or changes nothing. -/
theorem everyStepKeepsTheInvariant : Obligations.EveryStepKeepsTheInvariant := by
  intro s t hinv h
  rcases step_cases s with ⟨i, rest, hd, he⟩ | ⟨-, he⟩
  · have hinv' : (s.withRequests rest).Inv := ⟨hinv.dec, hinv.sch, hinv.syn, hinv.cfg, hinv.depth⟩
    exact exec_keeps_inv (he.symm.trans h) (decodedInstructionIsWellFormed _ _ _ hd) hinv'
  · cases he.symm.trans h
    exact hinv

/-- Settles O54: power-on builds the four parts that RESET also gives, and QUEUE_DEPTH is unbounded. -/
theorem invariantHoldsAtReset : Obligations.InvariantHoldsAtReset :=
  ⟨Decoder.ok_empty _, Scheduler.ok_reset, Synth.ok_reset, CfgFile.ok_reset, nofun⟩

end Sys2Proof.Machine

/-! SUPPORT. How often a command is sent: by one pass, by the passes over an entry alone in the table, and by any run
over a table with other entries (43_scheduler.md R171, R172, R174). -/

namespace Sys2Proof.Machine

/-! ## The events of one pass -/

/-- Diagnostics are filtered out by every test that no diagnostic passes. -/
theorem filter_eq_nil_of_diag {es : List Event} {code : DiagCode} (hes : ∀ e ∈ es, isDiag code e = true)
    {P : Event → Bool} (hdiag : ∀ code arg, P (.diag code arg) = false) : es.filter P = [] := by
  refine List.filter_eq_nil_iff.mpr fun e hm => ?_
  cases e with
  | diag code arg => simp [hdiag]
  | result | rxSeq | rxCmd | txCmd | gain | samples => cases hes _ hm

/-- The gain step emits no event but EvGain (R165). -/
theorem filter_gainEvents_eq_nil (s : State) (now : Time) {P : Event → Bool} (hgain : ∀ g, P (.gain g) = false) :
    (gainEvents s now).filter P = [] := by
  unfold gainEvents
  split
  · simp [hgain]
  · rfl

/-- Of the events that are neither diagnostics nor gains, a pass with nothing eligible appends none, and one that
selects an entry at most the EvTxCmd of its command (R168, R170). -/
theorem schPass_filter (now : Time) (s : State) {P : Event → Bool} (hdiag : ∀ code arg, P (.diag code arg) = false)
    (hgain : ∀ g, P (.gain g) = false) :
    ((∀ k, ¬Selected s now k) ∧ (schPass now s).sch = { s.sch with gainCur := gainAfter s now } ∧
      (schPass now s).events.filter P = s.events.filter P) ∨
    ∃ k, Selected s now k ∧ (schPass now s).sch = schedulerAfterSend s now k ∧
      (schPass now s).events.filter P = s.events.filter P ++
        [.txCmd (BitVec.ofNat 64 (dataNumber (slotAt s.sch k).command))].filter P := by
  rcases schPass_outcome now s with ⟨hnone, he⟩ | ⟨k, hsel, es, n, new, he, hes, -⟩
  · refine .inl ⟨hnone, by rw [he]; rfl, ?_⟩
    rw [he, State.withEvents_events, List.filter_append, List.filter_append, filter_gainEvents_eq_nil s now hgain]
    simp [hdiag]
  · refine .inr ⟨k, hsel, by rw [he]; rfl, ?_⟩
    rw [he, State.withEvents_events, List.filter_append, List.filter_append, List.filter_append,
      filter_gainEvents_eq_nil s now hgain, filter_eq_nil_of_diag hes hdiag, List.append_nil, List.append_nil]

/-- A pass appends at most one EvTxCmd and at most one EvGain and pushes at most one train (R172). -/
theorem schPass_sends_at_most_one (now : Time) (s : State) :
    ∃ (es : List Event) (n : Nat) (new : List PulseTrain),
      (schPass now s).events = s.events ++ es ∧ (es.filter isTx).length ≤ 1 ∧ (es.filter isGain).length ≤ 1 ∧
      (schPass now s).syn.queue = s.syn.queue.drop n ++ new ∧ new.length ≤ 1 := by
  have hgain : ((gainEvents s now).filter isGain).length ≤ 1 := by
    refine (List.length_filter_le _ _).trans ?_
    unfold gainEvents
    split
    · exact Nat.le_refl 1
    · exact Nat.zero_le 1
  have htx : (gainEvents s now).filter isTx = [] := filter_gainEvents_eq_nil s now fun _ => rfl
  rcases schPass_outcome now s with ⟨-, he⟩ | ⟨k, -, es, n, new, he, hes, hnew⟩ <;> rw [he]
  · refine ⟨_, 0, [], List.append_assoc .., ?_, ?_, (List.append_nil _).symm, Nat.zero_le 1⟩
    · rw [List.filter_append, htx]
      exact Nat.zero_le 1
    · rw [List.filter_append]
      simpa [isGain] using hgain
  · refine ⟨_, n, new, by rw [State.withEvents_events, List.append_assoc, List.append_assoc], ?_, ?_, rfl, ?_⟩
    · rw [List.filter_append, List.filter_append, htx, filter_eq_nil_of_diag hes fun _ _ => rfl]
      exact Nat.le_refl 1
    · rw [List.filter_append, List.filter_append, filter_eq_nil_of_diag hes fun _ _ => rfl]
      simpa [isGain] using hgain
    · rcases hnew with rfl | rfl
      · exact Nat.zero_le 1
      · exact Nat.le_refl 1

/-! ## The sent entry -/

/-- A send that selects entry k updates the table as R171 says. -/
theorem sentAt_schedulerAfterSend {s : State} {now : Time} {k : Key} (hsel : Selected s now k)
    (hrepeats : (slotAt s.sch k).repeats ≠ 0) : SentAt s.sch (schedulerAfterSend s now k) k now :=
  sentAt_setSlot now (gainAfter s now) now hsel.1.1 hrepeats

/-! ## An entry alone in the table -/

/-- A table with no valid slot counts none (R27). -/
theorem validCount_eq_zero {c : Scheduler} (h : ∀ k, (slotAt c k).valid = false) : validCount c = 0 := by
  refine List.countP_eq_zero.mpr fun k _ => ?_
  rw [h]
  exact Bool.false_ne_true

/-- The only valid entry, once it is old enough, is the selected one (R167, R169). -/
theorem selected_of_alone {s : State} {now : Time} {k : Key} (hvalid : (slotAt s.sch k).valid = true)
    (halone : ∀ j, j ≠ k → (slotAt s.sch j).valid = false)
    (hold : (slotAt s.sch k).lastSent.toNat + s.cfg.schTbr.value.toNat ≤ now.toNat) : Selected s now k := by
  refine ⟨⟨hvalid, by omega⟩, fun j hj => .inr ?_⟩
  by_cases hjk : j = k
  · subst hjk
    exact ⟨rfl, Nat.le_refl _⟩
  · exact absurd hj.1 (by rw [halone j hjk]; exact Bool.false_ne_true)

/-- Ticks on an entry alone in the table, as many as it has repeats left (R174): each sends it, and the last removes
it. -/
theorem execAll_ticks_alone {k : Key} {ts : List Time} {s : State} (hset : SchedulerSet s.cfg)
    (hvalid : (slotAt s.sch k).valid = true) (halone : ∀ j, j ≠ k → (slotAt s.sch j).valid = false) (hne : ts ≠ [])
    (hlen : ts.length = (slotAt s.sch k).repeats.toNat)
    (hspaced : Spaced s.cfg.schTbr.value.toNat (slotAt s.sch k).lastSent.toNat ts) :
    ∃ t, execAll (ts.map .schTick) s = .next t ∧ validCount t.sch = 0 ∧
      t.events.filter isTx = s.events.filter isTx ++
        List.replicate ts.length (.txCmd (BitVec.ofNat 64 (dataNumber (slotAt s.sch k).command))) := by
  induction ts generalizing s with
  | nil => exact absurd rfl hne
  | cons now ts ih =>
    obtain ⟨hold, hspaced'⟩ := hspaced
    rw [List.length_cons] at hlen
    have hsel := selected_of_alone hvalid halone hold
    have hrepeats : (slotAt s.sch k).repeats ≠ 0 := fun h0 => by simp [h0] at hlen
    obtain ⟨-, -, -, hcfg, -⟩ := exec_onlyItsParts (exec_schTick_of_set now hset)
    replace hcfg : (schPass now s).cfg = s.cfg := hcfg rfl
    obtain ⟨hsch, hevents⟩ : (schPass now s).sch = schedulerAfterSend s now k ∧
        (schPass now s).events.filter isTx = s.events.filter isTx ++
          [.txCmd (BitVec.ofNat 64 (dataNumber (slotAt s.sch k).command))] := by
      rcases schPass_filter now s (P := isTx) (fun _ _ => rfl) (fun _ => rfl) with ⟨hnone, -⟩ | ⟨j, hj, hsch, he⟩
      · exact absurd hsel (hnone k)
      · rw [hj.unique hsel] at hsch he
        exact ⟨hsch, he⟩
    obtain ⟨hothers, hentry⟩ := hsch ▸ sentAt_schedulerAfterSend hsel hrepeats
    have halone' : ∀ j, j ≠ k → (slotAt (schPass now s).sch j).valid = false := fun j hj => by
      rw [hothers j hj, halone j hj]
    rw [List.map_cons, execAll_cons_of_next (exec_schTick_of_set now hset)]
    cases ts with
    | nil =>
      have hlast : (slotAt s.sch k).repeats.toNat = 1 := hlen.symm
      rw [if_pos hlast] at hentry
      refine ⟨schPass now s, rfl, validCount_eq_zero fun j => ?_, hevents⟩
      by_cases hj : j = k
      · rw [hj, hentry]
      · exact halone' j hj
    | cons now' ts =>
      rw [List.length_cons] at hlen
      rw [if_neg (by omega)] at hentry
      obtain ⟨hvalid', hlast', hrepeats', hcommand'⟩ := hentry
      obtain ⟨t, he, hcount, htx⟩ := ih (s := schPass now s) (hcfg ▸ hset) hvalid' halone' (List.cons_ne_nil _ _)
        (by rw [List.length_cons]; omega) (by rw [hcfg, hlast']; exact hspaced')
      refine ⟨t, he, hcount, ?_⟩
      rw [htx, hevents, hcommand', List.append_assoc]
      rfl

/-! ## An entry among others -/

/-- Entry k holds command `c` with r repeats left, and is removed at none (R171). -/
def Tracks (k : Key) (c : Command) (sch : Scheduler) (r : Nat) : Prop :=
  if r = 0 then (slotAt sch k).valid = false
  else (slotAt sch k).valid = true ∧ (slotAt sch k).command = c ∧ (slotAt sch k).repeats.toNat = r

/-- From `s` to `t`: where `sel` holds, entry k is sent, one of its r repeats is used up and its command is the one
event of its key; otherwise the entry stands and no event of its key is emitted. -/
def Advances (k : Key) (c : Command) (sel : Prop) (s t : State) (r : Nat) : Prop :=
  (sel ∧ 1 ≤ r ∧ Tracks k c t.sch (r - 1) ∧ t.events.filter (isTxOf k) = s.events.filter (isTxOf k) ++
    [.txCmd (BitVec.ofNat 64 (dataNumber c))]) ∨
  (¬sel ∧ Tracks k c t.sch r ∧ t.events.filter (isTxOf k) = s.events.filter (isTxOf k))

/-- Two Commands have one key exactly when they have one destination (R161). -/
theorem commandKey_inj {c c' : Command} : commandKey c' = commandKey c ↔ c'.chan = c.chan ∧ c'.group = c.group := by
  simp only [← BitVec.toNat_inj, commandKey_toNat]
  omega

/-- The EvTxCmd of a Command is of its key (R99, R161). -/
theorem isTxOf_txCmd_iff (k : Key) (c : Command) :
    isTxOf k (.txCmd (BitVec.ofNat 64 (dataNumber c))) = true ↔ commandKey c = k := by
  have hlt : dataNumber c < 2 ^ 64 := (pack_toNat c).symm.trans_lt (c.pack.isLt.trans (by omega))
  have hchan : dataNumber c / 2 ^ 24 % 2 ^ 4 = c.chan.toNat := by
    simp only [dataNumber]
    omega
  have hgroup : dataNumber c / 2 ^ 28 % 2 ^ 4 = c.group.toNat := by
    simp only [dataNumber]
    omega
  rw [isTxOf, decide_eq_true_iff, ← BitVec.toNat_inj, commandKey_toNat, BitVec.toNat_ofNat, Nat.mod_eq_of_lt hlt,
    hchan, hgroup]

/-- A pass advances an entry exactly when it selects it (R169 to R171). -/
theorem schPass_advances {k : Key} {c : Command} {r : Nat} (now : Time) {s : State} (hok : s.sch.Ok)
    (hkey : commandKey c = k) (ht : Tracks k c s.sch r) : Advances k c (Selected s now k) s (schPass now s) r := by
  rcases schPass_filter now s (P := isTxOf k) (fun _ _ => rfl) (fun _ => rfl) with
    ⟨hnone, hsch, he⟩ | ⟨j, hj, hsch, he⟩
  · refine .inr ⟨hnone k, ?_, he⟩
    rw [hsch]
    exact ht
  · obtain ⟨hrepeats, hjkey⟩ := hok j hj.1.1
    obtain ⟨hothers, hentry⟩ := hsch ▸ sentAt_schedulerAfterSend hj hrepeats
    have hcommandKey : commandKey (slotAt s.sch j).command = j :=
      BitVec.eq_of_toNat_eq ((commandKey_toNat _).trans hjkey.symm)
    by_cases hjk : j = k
    · subst hjk
      have hr : r ≠ 0 := by
        rintro rfl
        exact Bool.false_ne_true (ht.symm.trans hj.1.1)
      rw [Tracks, if_neg hr] at ht
      obtain ⟨-, hcommand, hleft⟩ := ht
      rw [hcommand] at he hentry
      rw [hleft] at hentry
      refine .inl ⟨hj, Nat.pos_of_ne_zero hr, ?_, ?_⟩
      · unfold Tracks
        split at hentry
        · rw [if_pos (by omega)]
          exact hentry
        · obtain ⟨hvalid', -, hrepeats', hcommand'⟩ := hentry
          rw [if_neg (by omega)]
          exact ⟨hvalid', hcommand', by omega⟩
      · rw [he, List.filter_cons_of_pos ((isTxOf_txCmd_iff _ c).mpr hkey), List.filter_nil]
    · refine .inr ⟨fun hk => hjk (hj.unique hk), ?_, ?_⟩
      · rw [Tracks, hothers k (Ne.symm hjk)]
        exact ht
      · have hother : ¬isTxOf k (.txCmd (BitVec.ofNat 64 (dataNumber (slotAt s.sch j).command))) = true := by
          rw [isTxOf_txCmd_iff, hcommandKey]
          exact hjk
        rw [he, List.filter_cons_of_neg hother, List.filter_nil, List.append_nil]

/-- Selection sees the slots and the configuration alone (R167, R169). -/
theorem selected_congr {s s' : State} (hcfg : s'.cfg = s.cfg) (hslot : ∀ j, slotAt s'.sch j = slotAt s.sch j)
    (now : Time) (k : Key) : Selected s' now k ↔ Selected s now k := by
  simp only [Selected, Eligible, hcfg, hslot]

/-- The pass of a SCH_SUBMIT selects on the upserted table (R162, R163). -/
theorem passSelects_schSubmit_iff (c : Command) (now : Time) (s : State) (k : Key) :
    PassSelects (.schSubmit c now) s k ↔ SchedulerSet s.cfg ∧ Selected (upsert c s) now k := by
  have hupserted := upserted_upsert s c
  refine and_congr_right fun _ => ⟨fun ⟨sch, hsch, hsel⟩ => ?_, fun hsel => ⟨_, hupserted, hsel⟩⟩
  refine (selected_congr (s := upsert c s) (s' := s.withSch sch) rfl (fun j => ?_) now k).mp hsel
  by_cases hj : j = BitVec.ofNat 8 (c.chan.toNat * 16 + c.group.toNat)
  · rw [hj]
    exact hsch.1.trans hupserted.1.symm
  · exact (hsch.2.1 j hj).trans (hupserted.2.1 j hj).symm

/-- SCH_SUBMIT advances an entry of the upserted table exactly when its pass selects it. -/
theorem exec_schSubmit_advances {k : Key} {c c' : Command} {r : Nat} (now : Time) {s : State}
    (hset : SchedulerSet s.cfg) (hsch : s.sch.Ok) (hcfg : s.cfg.Ok) (hkey : commandKey c = k)
    (ht : Tracks k c (upsert c' s).sch r) :
    Advances k c (PassSelects (.schSubmit c' now) s k) s (schPass now (upsert c' s)) r := by
  have hcount := (schedulerSet_iff s.cfg).mp hset .schRepeatCount (by decide)
  have hadvances := schPass_advances now (upsert_keeps_sch c' hsch hcfg hcount) hkey ht
  rw [passSelects_schSubmit_iff, and_iff_right hset]
  exact hadvances

/-- An operation that does not write the scheduler makes no pass and emits no EvTxCmd. -/
theorem advances_of_not_writesSch {k : Key} {c : Command} {r : Nat} {i : Instr} {s t : State}
    (hi : writesSch i = false) (h : exec i s = .next t) (ht : Tracks k c s.sch r) :
    Advances k c (PassSelects i s k) s t r := by
  obtain ⟨-, hsch, -⟩ := exec_onlyItsParts h
  have hop : opcodeOf i ∉ [0x6#4, 0x7#4] := by
    cases i with
    | schSubmit | schTick | reset => cases hi
    | _ => simp [opcodeOf]
  refine .inr ⟨?_, hsch hi ▸ ht, filter_events_of_not_emitted h fun e he => ?_⟩
  · cases i with
    | schSubmit | schTick | reset => cases hi
    | _ => exact id
  · cases e with
    | txCmd d => exact hop
    | diag | result | rxSeq | rxCmd | gain | samples => cases he

/-- An operation that neither is RESET nor submits key k advances entry k exactly when it makes a pass that selects
it (R174). -/
theorem exec_advances {k : Key} {c : Command} {r : Nat} {i : Instr} {s t : State} (hreset : i ≠ .reset)
    (hsubmit : ∀ c' now, i = .schSubmit c' now → commandKey c' ≠ k) (h : exec i s = .next t) (hsch : s.sch.Ok)
    (hcfg : s.cfg.Ok) (hkey : commandKey c = k) (ht : Tracks k c s.sch r) :
    Advances k c (PassSelects i s k) s t r := by
  cases i with
  | reset => exact absurd rfl hreset
  | schSubmit c' now =>
    rcases exec_schSubmit_cases c' now s with ⟨hset, he⟩ | ⟨hunset, a, he⟩ <;> cases he.symm.trans h
    · refine exec_schSubmit_advances now hset hsch hcfg hkey ?_
      have hslot : slotAt (upsert c' s).sch k = slotAt s.sch k :=
        slotAt_setSlot_of_ne s.sch _ (Ne.symm (hsubmit c' now rfl))
      rw [Tracks, hslot]
      exact ht
    · exact .inr ⟨fun hsel => hunset hsel.1, ht, by simp [raise_eq, isTxOf]⟩
  | schTick now =>
    rcases exec_schTick_cases now s with ⟨hset, he⟩ | ⟨hunset, a, he⟩ <;> cases he.symm.trans h
    · rw [PassSelects, and_iff_right hset]
      exact schPass_advances now hsch hkey ht
    · exact .inr ⟨fun hsel => hunset hsel.1, ht, by simp [raise_eq, isTxOf]⟩
  | _ => exact advances_of_not_writesSch rfl h ht

/-- The run of `is` from `s` sends entry k, with r repeats left, once for each pass that selects it, r times at most. -/
def RunSends (k : Key) (c : Command) (is : List Instr) (s : State) (r : Nat) : Prop :=
  ∃ t n, execAll is s = .next t ∧ SelectionsAre k is s n ∧ n ≤ r ∧ Tracks k c t.sch (r - n) ∧
    t.events.filter (isTxOf k) = s.events.filter (isTxOf k) ++
      List.replicate n (.txCmd (BitVec.ofNat 64 (dataNumber c)))

/-- An operation that advances the entry, before a run that sends what is then left. -/
theorem RunSends.cons {k : Key} {c : Command} {i : Instr} {is : List Instr} {s t : State} {r : Nat}
    (h : exec i s = .next t) (hadvances : Advances k c (PassSelects i s k) s t r)
    (hrest : ∀ r', Tracks k c t.sch r' → RunSends k c is t r') : RunSends k c (i :: is) s r := by
  rcases hadvances with ⟨hsel, hr, ht, he⟩ | ⟨hnot, ht, he⟩
  · obtain ⟨u, n, hu, hn, hle, htu, heu⟩ := hrest _ ht
    refine ⟨u, n + 1, (execAll_cons_of_next h).trans hu, ⟨t, n, h, hn, .inl ⟨hsel, rfl⟩⟩, by omega, ?_, ?_⟩
    · rwa [Nat.sub_add_eq, Nat.sub_right_comm]
    · rw [heu, he, List.append_assoc]
      rfl
  · obtain ⟨u, n, hu, hn, hle, htu, heu⟩ := hrest _ ht
    exact ⟨u, n, (execAll_cons_of_next h).trans hu, ⟨t, n, h, hn, .inr ⟨hnot, rfl⟩⟩, hle, htu, by rw [heu, he]⟩

/-- Any run with no RESET and no SCH_SUBMIT of key k sends its entry once for each pass that selects it (R174). -/
theorem runSends {k : Key} {c : Command} (hkey : commandKey c = k) {is : List Instr} {s : State} {r : Nat}
    (his : ∀ i ∈ is, i ≠ .reset ∧ ∀ c' now, i = .schSubmit c' now → commandKey c' ≠ k) (hsch : s.sch.Ok)
    (hcfg : s.cfg.Ok) (ht : Tracks k c s.sch r) : RunSends k c is s r := by
  induction is generalizing s r with
  | nil => exact ⟨s, 0, rfl, rfl, Nat.zero_le r, ht, (List.append_nil _).symm⟩
  | cons i is ih =>
    rw [List.forall_mem_cons] at his
    obtain ⟨⟨hreset, hsubmit⟩, his⟩ := his
    obtain ⟨t, h⟩ := exists_exec_eq_next i s
    exact .cons h (exec_advances hreset hsubmit h hsch hcfg hkey ht) fun r' ht' =>
      ih his (exec_keeps_sch h hsch hcfg) (exec_keeps_cfg h hcfg) ht'

/-! ## The obligations -/

/-- Settles O46: each of the two operations is refused or makes one pass, on the same events and the same queue. -/
theorem atMostOneSendPerOperation : Obligations.AtMostOneSendPerOperation := by
  have hrefused (a : BitVec 64) (s : State) : ∃ (es : List Event) (n : Nat) (new : List PulseTrain),
      (raise .cfgUnset a s).events = s.events ++ es ∧ (es.filter isTx).length ≤ 1 ∧ (es.filter isGain).length ≤ 1 ∧
      (raise .cfgUnset a s).syn.queue = s.syn.queue.drop n ++ new ∧ new.length ≤ 1 :=
    ⟨[.diag .cfgUnset a], 0, [], rfl, Nat.zero_le 1, Nat.zero_le 1, (List.append_nil _).symm, Nat.zero_le 1⟩
  rintro i s (⟨c, now, rfl⟩ | ⟨now, rfl⟩)
  · rcases exec_schSubmit_cases c now s with ⟨-, he⟩ | ⟨-, a, he⟩
    · obtain ⟨es, n, new, h⟩ := schPass_sends_at_most_one now (upsert c s)
      exact ⟨_, es, n, new, he, h⟩
    · obtain ⟨es, n, new, h⟩ := hrefused a s
      exact ⟨_, es, n, new, he, h⟩
  · rcases exec_schTick_cases now s with ⟨-, he⟩ | ⟨-, a, he⟩
    · obtain ⟨es, n, new, h⟩ := schPass_sends_at_most_one now s
      exact ⟨_, es, n, new, he, h⟩
    · obtain ⟨es, n, new, h⟩ := hrefused a s
      exact ⟨_, es, n, new, he, h⟩

/-- Settles O47: the only valid entry is the one each tick selects. -/
theorem entryIsSentRepeatCountTimes : Obligations.EntryIsSentRepeatCountTimes :=
  fun _ _ _ hset hvalid halone hne hlen hspaced => execAll_ticks_alone hset hvalid halone hne hlen hspaced

/-- Settles O48: the SCH_SUBMIT puts the entry in with SCH_REPEAT_COUNT repeats, and every operation from there on
advances it exactly when it makes a pass that selects it. -/
theorem entryAmongOthersIsSentRepeatCountTimes : Obligations.EntryAmongOthersIsSentRepeatCountTimes := by
  intro s c now is hinv hset his k count
  have hkey : commandKey c = k := commandKey_eq c
  have hcount : s.cfg.isSet .schRepeatCount = true := (schedulerSet_iff s.cfg).mp hset .schRepeatCount (by decide)
  have hcountPos : count ≠ 0 := fun h0 => hinv.cfg.repeat_ne hcount (BitVec.eq_of_toNat_eq h0)
  have hexec := exec_schSubmit_of_set c now hset
  have hentry : slotAt (upsert c s).sch k = ⟨true, 0, s.cfg.schRepeatCount.value, c⟩ := (upserted_upsert s c).1
  have hstart : Tracks k c (upsert c s).sch count := by
    rw [Tracks, if_neg hcountPos, hentry]
    exact ⟨rfl, rfl, rfl⟩
  have hothers : ∀ i ∈ is, i ≠ .reset ∧ ∀ c' now', i = .schSubmit c' now' → commandKey c' ≠ k := by
    intro i hi
    obtain ⟨hreset, hsubmit⟩ := his i hi
    exact ⟨hreset, fun c' now' he hsame => hsubmit c' now' he (commandKey_inj.mp (hsame.trans hkey.symm))⟩
  obtain ⟨t, n, ht, hn, hle, htracks, hevents⟩ := RunSends.cons hexec
    (exec_schSubmit_advances now hset hinv.sch hinv.cfg hkey hstart) fun r' hr' =>
      runSends hkey hothers (exec_keeps_sch hexec hinv.sch hinv.cfg) (exec_keeps_cfg hexec hinv.cfg) hr'
  refine ⟨t, n, ht, hn, hle, hevents, ?_⟩
  unfold Tracks at htracks
  split
  · next hall => rwa [if_pos (by omega)] at htracks
  · next hsome =>
    rw [if_neg (by omega)] at htracks
    obtain ⟨hvalid, hcommand, hrepeats⟩ := htracks
    exact ⟨hvalid, hcommand, by omega⟩

end Sys2Proof.Machine
